-- ==== Sys2Proof/Word.lean ====
section
/-! DEFINITION. The RBC's words: the u8 of a register byte and of a bus transfer, and the u16 of a command word, a
response's data and `last_input_state` (00_scope.md R6, R8). Bit 0 is the least significant bit. -/

namespace Sys2Proof

/-- A u8: one device register, one cache byte, one bus transfer (00_scope.md R6, 20_memory.md R46). -/
abbrev Byte := BitVec 8

/-- A u16: a command word, response data, a pair word, `last_input_state` (00_scope.md R8, R12). -/
abbrev Word := BitVec 16

end Sys2Proof
end

