-- ==== Sys2Proof/Syntax.lean ====
section
/-! DEFINITION. The eight commands of the RBC (00_scope.md R3), one constructor per row of spec/opcode_table.json. -/

namespace Sys2Proof

/-- A command. `pin` is the number in the `PIN` field, read unsigned and unscaled (30_encoding.md R72); `v` is the `V` bit.
A pin above 15 is no ill-formed command: it ends with `InvalidPin` (R76). -/
inductive Instr
  /-- Seed the cache from the device (40_init.md R90). -/
  | init
  /-- Set the direction of a pin, `v` true for input (41_config_polarity.md R96). -/
  | setdir (pin : Nat) (v : Bool)
  /-- Read the cached direction of a pin (R97). -/
  | getdir (pin : Nat)
  /-- Set the polarity of a pin, `v` true for inverted (R99). -/
  | setpol (pin : Nat) (v : Bool)
  /-- Read the cached polarity of a pin (R100). -/
  | getpol (pin : Nat)
  /-- Set the output latch of a pin to `v` (42_value.md R105). -/
  | setval (pin : Nat) (v : Bool)
  /-- Report the effective level of a pin (R107). -/
  | getval (pin : Nat)
  /-- Report the effective levels of all pins (R110). -/
  | getvals
deriving DecidableEq, Repr

namespace Instr

/-- The mnemonic of a command, as 30_encoding.md R73 and spec/opcode_table.json spell it. -/
def mnemonic : Instr → String
  | init => "INIT"
  | setdir _ _ => "SETDIR"
  | getdir _ => "GETDIR"
  | setpol _ _ => "SETPOL"
  | getpol _ => "GETPOL"
  | setval _ _ => "SETVAL"
  | getval _ => "GETVAL"
  | getvals => "GETVALS"

/-- The pin operand, for the six commands of the formats P and PV (30_encoding.md R71). -/
def pin? : Instr → Option Nat
  | init => none
  | setdir p _ => some p
  | getdir p => some p
  | setpol p _ => some p
  | getpol p => some p
  | setval p _ => some p
  | getval p => some p
  | getvals => none

end Instr

end Sys2Proof
end

