-- ==== Sys2Proof/WellFormed.lean ====
section
/-! DEFINITION. Which commands have an encoding: the operand fits its field (30_encoding.md R70, R72). -/

namespace Sys2Proof.Instr

/-- The pin operand fits the 8-bit `PIN` field. `V` is one bit by its type, and the formats N and P have no other operand. -/
def wellFormed (i : Instr) : Bool :=
  match i with
  | .init => true
  | .setdir p _ => p < 256
  | .getdir p => p < 256
  | .setpol p _ => p < 256
  | .getpol p => p < 256
  | .setval p _ => p < 256
  | .getval p => p < 256
  | .getvals => true

end Sys2Proof.Instr
end

