-- ==== Sys2Proof/Decode.lean ====
section
/-! DEFINITION. The command word (30_encoding.md R70 to R75): its fields, the decoder, the opcode map as rows of match and
mask, and the encoder. -/

namespace Sys2Proof

/-! ## Fields of the command word (30_encoding.md R70) -/

/-- `OP`, bits 15:12. -/
def fieldOp (w : Word) : BitVec 4 := w.extractLsb' 12 4

/-- `RSV`, bits 11:9. -/
def fieldRsv (w : Word) : BitVec 3 := w.extractLsb' 9 3

/-- `V`, bit 8. -/
def fieldV (w : Word) : Bool := w.getLsbD 8

/-- `PIN`, bits 7:0. -/
def fieldPin (w : Word) : BitVec 8 := w.extractLsb' 0 8

/-- The word with the given `OP`, `V` and `PIN`, and `RSV` zero: `OP << 12 | RSV << 9 | V << 8 | PIN` (R70). -/
def packWord (op : BitVec 4) (v : Bool) (pin : BitVec 8) : Word :=
  op ++ (0#3) ++ (BitVec.ofBool v) ++ pin

/-! ## Formats (30_encoding.md R71)

Each reads the operands of a word of its format, and refuses a word with a 1 in a bit that the format requires to be 0. -/

/-- Format N, no operand: `RSV`, `V` and `PIN` are 0. -/
def formatN (i : Instr) (w : Word) : Option Instr :=
  if fieldRsv w = 0 ∧ fieldV w = false ∧ fieldPin w = 0 then some i else none

/-- Format P, a pin: `RSV` and `V` are 0. -/
def formatP (i : Nat → Instr) (w : Word) : Option Instr :=
  if fieldRsv w = 0 ∧ fieldV w = false then some (i (fieldPin w).toNat) else none

/-- Format PV, a pin and a value: `RSV` is 0. -/
def formatPV (i : Nat → Bool → Instr) (w : Word) : Option Instr :=
  if fieldRsv w = 0 then some (i (fieldPin w).toNat (fieldV w)) else none

/-! ## The decoder -/

/-- The command a word stands for; `none` for an illegal word (30_encoding.md R73, R74). -/
def decode (w : Word) : Option Instr :=
  match (fieldOp w).toNat with
  | 0x1 => formatN .init w
  | 0x2 => formatPV .setdir w
  | 0x3 => formatP .getdir w
  | 0x4 => formatPV .setpol w
  | 0x5 => formatP .getpol w
  | 0x6 => formatPV .setval w
  | 0x7 => formatP .getval w
  | 0x8 => formatN .getvals w
  | _ => none

/-- The word of a command (30_encoding.md R73, R80): the command's own word when it is well-formed. -/
def encode : Instr → Word
  | .init => packWord 0x1 false 0
  | .setdir p v => packWord 0x2 v (BitVec.ofNat 8 p)
  | .getdir p => packWord 0x3 false (BitVec.ofNat 8 p)
  | .setpol p v => packWord 0x4 v (BitVec.ofNat 8 p)
  | .getpol p => packWord 0x5 false (BitVec.ofNat 8 p)
  | .setval p v => packWord 0x6 v (BitVec.ofNat 8 p)
  | .getval p => packWord 0x7 false (BitVec.ofNat 8 p)
  | .getvals => packWord 0x8 false 0

/-! ## The opcode map as match and mask (the second table of 30_encoding.md R73) -/

/-- A row of the opcode map: a word w is the command when `w & mask = match`. -/
structure OpcodeRow where
  /-- The command's mnemonic. -/
  mnemonic : String
  /-- The row's `match`. -/
  pattern : Word
  /-- The row's `mask`. -/
  mask : Word
deriving DecidableEq, Repr

/-- Does the row match the word? -/
def OpcodeRow.matchesWord (r : OpcodeRow) (w : Word) : Bool := w &&& r.mask == r.pattern

/-- The eight rows of 30_encoding.md R73. -/
def opcodeMap : List OpcodeRow :=
  [⟨"INIT", 0x1000, 0xFFFF⟩,
   ⟨"SETDIR", 0x2000, 0xFE00⟩,
   ⟨"GETDIR", 0x3000, 0xFF00⟩,
   ⟨"SETPOL", 0x4000, 0xFE00⟩,
   ⟨"GETPOL", 0x5000, 0xFF00⟩,
   ⟨"SETVAL", 0x6000, 0xFE00⟩,
   ⟨"GETVAL", 0x7000, 0xFF00⟩,
   ⟨"GETVALS", 0x8000, 0xFFFF⟩]

/-! ## What the decoder reads from a row of the opcode table -/

/-- The command the decoder reads from the `nbits` bits of `w`. A command is one 16-bit word (30_encoding.md R70), so a
longer row is refused; the bits above `nbits` are 0. -/
def decodeTableWord (nbits w : Nat) : Option Instr :=
  if nbits ≤ 16 then decode (BitVec.ofNat 16 (w % 2 ^ nbits)) else none

end Sys2Proof
end

