-- ==== Sys2Proof/Config.lean ====
section
/-! DEFINITION. What an implementation of the RBC fixes, and the free values of the model.

Free values are `opaque`: no proof can see one, so a statement holds whatever it is. -/

namespace Sys2Proof.Config

/-! ## Free values -/

/-- Whether the bus collaborator answers a transaction `Ok`, for a transaction past the end of `State.answers`
(20_memory.md R48, 93_implementation_defined.md I14: a draw under no law). log 5. -/
opaque freeOk : Nat → Bool

/-- The byte of an `Ok` answer past the end of `State.answers` (93_implementation_defined.md I13: any value). log 5. -/
opaque freeData : Nat → Byte

/-- The choice `ARB` makes past the end of `State.arb` (00_scope.md R7, 93_implementation_defined.md I12). log 8. -/
opaque freeChoice : Nat → Nat

/-- What scratch register number `j` of 10_state.md R33 holds at a grant, before the command writes it. log 4. -/
opaque freeScratch (draw j : Nat) : Byte

/-! ## Construction parameters (00_scope.md R7, 10_state.md R30)

The parameters of the instance that `Machine.State.reset` constructs. `BUS_ID`, its width and `ADDRESS` stay open (log 10). -/

/-- One less than `BUS_ID_WIDTH`, which is at least 1 (00_scope.md R7). -/
opaque busIdWidthLessOne : Nat

/-- `BUS_ID_WIDTH` (00_scope.md R7). -/
def busIdWidth : Nat := busIdWidthLessOne + 1

/-- `BUS_ID` (00_scope.md R7, 92_eei_decisions.md D29). -/
opaque busId : BitVec busIdWidth

/-- `ADDRESS`, any of the 128 values: the RBC does not check it (00_scope.md R7). -/
opaque address : BitVec 7

/-- `N_PORTS` of the instance that `Machine.State.reset` constructs. DESIGN CHOICE: any number from 1 on is legal
(00_scope.md R7), and `Machine.State.constructed` takes it as an argument. Two are what the spec's own programs P4 and P5
use. log 9. -/
def nPorts : Nat := 2

/-- The parameter `REINIT` of 93_implementation_defined.md I1: what an INIT does when `initialized = 1`. -/
inductive Reinit
  /-- It runs again (40_init.md R93). -/
  | reseed
  /-- It has no meaning (a model of the source's contract). -/
  | refuse
deriving DecidableEq, Repr

/-- `REINIT` of the instance that `Machine.State.reset` constructs: I1's default. log 11. -/
def reinit : Reinit := .reseed

/-- `RBC_APPLIES_POLARITY` of that instance: the default of 93_implementation_defined.md I2. log 11. -/
def appliesPolarity : Bool := true

end Sys2Proof.Config
end

