-- ==== Sys2Proof/Machine/State.lean ====
section
/-! DEFINITION. The state of the RBC (10_state.md), the agents around it as plain data (60_exceptions.md R124), the reasons a
step can stop, and the state after reset (10_state.md R36, 70_reset_and_hazards.md R140). -/

namespace Sys2Proof.Machine

/-! ## Cache registers (10_state.md R24 to R28) -/

/-- A pair of register bytes: byte 0 holds pins 0 to 7 and byte 1 holds pins 8 to 15 (20_memory.md R50). -/
structure Pair where
  /-- Byte 0 of the pair. -/
  lo : Byte
  /-- Byte 1 of the pair. -/
  hi : Byte
deriving DecidableEq, Repr

/-- The RBC's data registers (10_state.md R20). -/
structure Cache where
  /-- `config[0..1]`, bit 1 for an input pin (R24). -/
  config : Pair
  /-- `polarity[0..1]`, bit 1 for an inverted read (R25). -/
  polarity : Pair
  /-- `output[0..1]`, the output latches (R26). -/
  output : Pair
  /-- `last_input_state`: bit p is the last effective level of pin p that the RBC reported (R27). -/
  lastInputState : Word
deriving DecidableEq, Repr

/-! ## Responses and ports (10_state.md R31, 30_encoding.md R78) -/

/-- The statuses the RBC produces (30_encoding.md R78); `Status.code` gives their 3-bit codes. The codes 4, 5 and 6 are
reserved and never produced, so they have no constructor. -/
inductive Status
  /-- The command completed. -/
  | ok
  /-- The pin operand is outside 0 to 15. -/
  | invalidPin
  /-- A bus transaction failed. -/
  | busError
  /-- The command came before a successful INIT. -/
  | notInitialized
  /-- The word is illegal. -/
  | illegalCommand
deriving DecidableEq, Repr

/-- A requester port. The command word exists while it is valid, and so does the response (10_state.md R31). log 24. -/
inductive Port
  /-- `Idle`: nothing issued since reset. -/
  | idle
  /-- `Pending`: `cmd` waits for its grant. -/
  | pending (cmd : Word)
  /-- `Busy`: `cmd` was granted. -/
  | busy (cmd : Word)
  /-- `Done`: the response of the last command. -/
  | done (status : Status) (data : Word)
deriving DecidableEq, Repr

/-! ## The bus (20_memory.md R46 to R48) -/

/-- `BUS_ID` with its width (00_scope.md R7). The RBC only forwards it. -/
structure BusId where
  /-- `BUS_ID_WIDTH`. -/
  width : Nat
  /-- `BUS_ID`. -/
  value : BitVec width
deriving DecidableEq, Repr

/-- A bus request (20_memory.md R47). -/
inductive BusRequest
  /-- `op = RD`. -/
  | rd (busId : BusId) (address : BitVec 7) (index : BitVec 3)
  /-- `op = WR`. -/
  | wr (busId : BusId) (address : BitVec 7) (index : BitVec 3) (wdata : Byte)
deriving DecidableEq, Repr

/-- What a transaction returned (R47). The byte of an `Ok` is the data of a read, and means nothing for a write. log 25. -/
inductive BusReply
  /-- `Ok(rdata)`. -/
  | ok (rdata : Byte)
  /-- `Err`. -/
  | err
deriving DecidableEq, Repr

/-- What the bus collaborator will do with a transaction. -/
inductive BusAnswer
  /-- It returns. -/
  | reply (r : BusReply)
  /-- It never returns (93_implementation_defined.md I7, outside the collaborator's contract): the command that issued it
  waits for ever. log 6. -/
  | never
deriving DecidableEq, Repr

/-! ## Hidden state (10_state.md R32, R33) -/

/-- The lock (R32). -/
inductive Lock
  /-- `Free`. -/
  | free
  /-- `Held(k)`. -/
  | held (port : Nat)
deriving DecidableEq, Repr

/-- The scratch registers the sequencer holds while it executes a command (R33). No command can read them. -/
structure Scratch where
  /-- `nb`: the new byte of a read-modify-write command. -/
  nb : Byte
  /-- `s[0..7]`: the staging bytes of INIT, by device register index. -/
  s : Vector Byte 8
  /-- `in0`: the first input byte of GETVALS. -/
  in0 : Byte
deriving DecidableEq, Repr

/-- A command in execution: `Exec(k, w, n)` with its scratch registers (R33). -/
structure Exec where
  /-- k: the port whose command executes. -/
  port : Nat
  /-- w: the command word. -/
  word : Word
  /-- n: the number of its bus transactions already completed. -/
  done : Nat
  /-- The scratch registers. -/
  scratch : Scratch
deriving DecidableEq, Repr

/-- The sequencer's phase (R33). The spec's `Exec(k, w, n)` is both `exec` and `stuck`. -/
inductive Phase
  /-- `Idle`. -/
  | idle
  /-- `Exec(k, w, n)`: the sequencer can step. -/
  | exec (e : Exec)
  /-- `Exec(k, w, n)` with the request of a transaction that never returns: the sequencer has no step
  (93_implementation_defined.md I7). log 6. -/
  | stuck (e : Exec) (request : BusRequest)
deriving DecidableEq, Repr

/-! ## Parameters (00_scope.md R7, 10_state.md R30, 93_implementation_defined.md I1, I2) -/

/-- What is fixed when an RBC is constructed. `N_PORTS` is the length of `State.ports`. -/
structure Params where
  /-- `BUS_ID` of `BUS_ID_WIDTH` bits. -/
  busId : BusId
  /-- `ADDRESS`. -/
  address : BitVec 7
  /-- `REINIT`. -/
  reinit : Config.Reinit
  /-- `RBC_APPLIES_POLARITY`. -/
  appliesPolarity : Bool
deriving DecidableEq, Repr

/-! ## The agents' moves, and what was seen -/

/-- What moves next (10_state.md R34: each transition is one step). log 13. -/
inductive Move
  /-- A requester issues a word on its port. -/
  | issue (port : Nat) (word : Word)
  /-- The sequencer grants, or executes one step of a command. -/
  | sequencer
  /-- The owner constructs the RBC anew (70_reset_and_hazards.md R140). -/
  | reset
deriving DecidableEq, Repr

/-- An event of a run. The bus events are those 20_memory.md R47 asks a model to record. log 15. -/
inductive Event
  /-- A requester issued a word. -/
  | issue (port : Nat) (word : Word)
  /-- The sequencer granted a port's command. -/
  | grant (port : Nat) (word : Word)
  /-- A bus transaction: its request and what it returned. -/
  | bus (request : BusRequest) (reply : BusReply)
  /-- The request of a transaction that never returns (93_implementation_defined.md I7). -/
  | hang (request : BusRequest)
  /-- The sequencer latched a response and released the lock. -/
  | release (port : Nat) (status : Status) (data : Word)
  /-- The RBC was constructed anew. -/
  | reset
deriving DecidableEq, Repr

/-! ## The state -/

/-- The state of one RBC, of the agents around it, and of the record of its run. -/
structure State where
  /-- The construction parameters. No step changes them. -/
  params : Params
  /-- `initialized` (10_state.md R22). -/
  initialized : Bool
  /-- The cache registers. Meanings read them by `State.withCache` only. -/
  cache : Cache
  /-- The lock (R32). -/
  lock : Lock
  /-- The sequencer's phase (R33). -/
  phase : Phase
  /-- The requester ports, port k at position k (R31). -/
  ports : List Port
  /-- The moves to come, in order; after the last one the sequencer moves. The model's own. log 13. -/
  agenda : List Move
  /-- The choices `ARB` will make, in order, before free values. The model's own. log 8. -/
  arb : List Nat
  /-- The answers of the bus collaborator to come, in order, before free values. The model's own. log 5. -/
  answers : List BusAnswer
  /-- How many free values were drawn. The model's own. log 22. -/
  draws : Nat
  /-- The events so far, newest first. The model's own. log 15. -/
  log : List Event
deriving DecidableEq, Repr

/-! ## Why a step stops -/

/-- A stop with a fault. -/
inductive Fault
  /-- A cache register is read before its first write (10_state.md R36, 60_exceptions.md R127,
  92_eei_decisions.md D21, 93_implementation_defined.md I8). Raised by `State.withCache`. Safe: no step from a state that
  satisfies the model's invariant raises it. log 7. -/
  | cacheReadBeforeWrite
  /-- A command's meaning is applied in a phase that no run of the command passes through. Raised by the meanings.
  Safe: no step from a state that satisfies the model's invariant raises it. log 17. -/
  | offPhase
deriving DecidableEq, Repr

/-- A refusal: the model gives the form no meaning. -/
inductive Refusal
  /-- An instruction without a meaning. No arm of `exec` uses it. Safe. -/
  | notModelled (mnemonic : String)
  /-- An issue on a port in `Pending` or `Busy` (10_state.md R34, 93_implementation_defined.md I6). Raised by an issue.
  Safe. log 12. -/
  | portBusy
  /-- An issue on a port number from `N_PORTS` on: there is no such port (10_state.md R31). Raised by an issue. Safe.
  log 12. -/
  | noSuchPort
  /-- A second INIT under `REINIT = refuse` (93_implementation_defined.md I1). Raised by INIT. Safe. log 11. -/
  | secondInit
deriving DecidableEq, Repr

/-! ## Reset (10_state.md R36, 70_reset_and_hazards.md R140) -/

/-- What the cache registers hold after construction. DESIGN CHOICE: the spec leaves them unspecified (R36). No command
answers from them before INIT writes them; `LIS_OUT` shows `last_input_state` at all times. logs 1, 20. -/
def Cache.unwritten : Cache :=
  { config := ⟨0, 0⟩, polarity := ⟨0, 0⟩, output := ⟨0, 0⟩, lastInputState := 0 }

/-- The RBC right after its construction with the given parameters and number of ports, and nothing yet said of what the
agents around it will do. -/
def State.constructed (params : Params) (nPorts : Nat) : State :=
  { params := params
    initialized := false
    cache := Cache.unwritten
    lock := .free
    phase := .idle
    ports := List.replicate nPorts .idle
    agenda := []
    arb := []
    answers := []
    draws := 0
    log := [] }

/-- The parameters of the instance `State.reset` constructs. -/
def Params.default : Params :=
  { busId := ⟨Config.busIdWidth, Config.busId⟩
    address := Config.address
    reinit := Config.reinit
    appliesPolarity := Config.appliesPolarity }

/-- The machine right after reset. -/
def State.reset : State := State.constructed Params.default Config.nPorts

end Sys2Proof.Machine
end

