-- ==== Sys2Proof/Machine/Operands.lean ====
section
/-! DEFINITION. Pin operands and the bit operations of the RBC (00_scope.md R8 to R12, 41_config_polarity.md R104). -/

namespace Sys2Proof.Machine

/-! ## Pins (00_scope.md R9, 30_encoding.md R72) -/

/-- `reg(p) = p / 8`: the register byte of a pin within a pair. -/
def reg (p : Nat) : Nat := p / 8

/-- `bit(p) = p % 8`: the bit offset of a pin in its register byte. -/
def bit (p : Nat) : Nat := p % 8

/-- A valid pin is 0 to 15. -/
def validPin (p : Nat) : Bool := p ≤ 15

/-- The device register index `B + reg(p)` of the byte that holds pin p in the pair with base index `B`
(20_memory.md R45): a u3. -/
def deviceIndex (base p : Nat) : BitVec 3 := BitVec.ofNat 3 (base + reg p)

/-! ## Bits -/

/-- `x` with bit i set to `v`: `x | (1 << i)` or `x & ~(1 << i)` (41_config_polarity.md R95). -/
def setBitTo {n : Nat} (x : BitVec n) (i : Nat) (v : Bool) : BitVec n :=
  if v then x ||| (1#n <<< i) else x &&& ~~~(1#n <<< i)

/-- `zext_16` of one bit (00_scope.md R10). -/
def zext16 (b : Bool) : Word := (BitVec.ofBool b).setWidth 16

/-! ## Pairs (00_scope.md R12, 20_memory.md R50) -/

/-- Byte b of a pair. -/
def Pair.byte (x : Pair) (b : Nat) : Byte := if b = 0 then x.lo else x.hi

/-- The pair with byte b replaced. -/
def Pair.setByte (x : Pair) (b : Nat) (v : Byte) : Pair := if b = 0 then { x with lo := v } else { x with hi := v }

/-- The pair word `byte1:byte0`. -/
def Pair.word (x : Pair) : Word := x.hi ++ x.lo

/-- The bit of pin p in a pair: bit `bit(p)` of byte `reg(p)`. -/
def Pair.pin (x : Pair) (p : Nat) : Bool := (x.byte (reg p)).getLsbD (bit p)

/-! ## The three cached pairs, as the read-modify-write sequence takes them (41_config_polarity.md R95) -/

/-- The pair C of `RMW(C, B, p, v)`. -/
inductive PairName
  /-- `config`. -/
  | config
  /-- `polarity`. -/
  | polarity
  /-- `output`. -/
  | output
deriving DecidableEq, Repr

/-- The device base index B of a pair (20_memory.md R45). -/
def PairName.base : PairName → Nat
  | .config => 6
  | .polarity => 4
  | .output => 2

/-- The pair of that name. -/
def Cache.pair (c : Cache) : PairName → Pair
  | .config => c.config
  | .polarity => c.polarity
  | .output => c.output

/-- The cache with the pair of that name replaced. -/
def Cache.setPair (c : Cache) (x : Pair) : PairName → Cache
  | .config => { c with config := x }
  | .polarity => { c with polarity := x }
  | .output => { c with output := x }

/-! ## Effective levels (00_scope.md R11, 42_value.md R112) -/

/-- `compose(raw, cfg, pol, out)`: input pins take the polarity-corrected level, output pins the latch. -/
def compose (raw cfg pol out : Word) : Word := ((raw ^^^ pol) &&& cfg) ||| (out &&& ~~~cfg)

/-- The polarity the RBC applies to the raw levels: the pair itself, or none when `RBC_APPLIES_POLARITY` is false
(93_implementation_defined.md I2). log 11. -/
def Params.appliedPolarity (p : Params) (pol : Pair) : Pair := if p.appliesPolarity then pol else ⟨0, 0⟩

/-- The effective-level word of all 16 pins for a raw input word (R11, R12). -/
def Cache.levels (c : Cache) (p : Params) (raw : Word) : Word :=
  compose raw c.config.word (p.appliedPolarity c.polarity).word c.output.word

/-! ## Scratch registers (10_state.md R33) -/

/-- The staging byte `s[index]` written. -/
def Scratch.stage (sc : Scratch) (index : BitVec 3) (b : Byte) : Scratch :=
  { sc with s := sc.s.set index.toNat b index.isLt }

/-- The staging byte `s[index]`. -/
def Scratch.staged (sc : Scratch) (index : BitVec 3) : Byte := sc.s[index.toNat]'index.isLt

end Sys2Proof.Machine
end

