-- ==== Sys2Proof/Machine/Flags.lean ====
section
/-! DEFINITION. Statuses and responses (30_encoding.md R78, R79). The RBC has no condition codes (10_state.md R23); its one
flag is `initialized` (R22), written by INIT's commit and by reset. -/

namespace Sys2Proof.Machine

/-- The 3-bit code of a status (30_encoding.md R78). -/
def Status.code : Status → BitVec 3
  | .ok => 0
  | .invalidPin => 1
  | .busError => 2
  | .notInitialized => 3
  | .illegalCommand => 7

/-- The packed response `STATUS << 16 | DATA`, 19 bits (30_encoding.md R78). -/
def packResponse (st : Status) (data : Word) : BitVec 19 := st.code ++ data

/-- The response a port shows: `status` and `data`, valid in `Done` only (10_state.md R31). -/
def Port.response? : Port → Option (Status × Word)
  | .idle => none
  | .pending _ => none
  | .busy _ => none
  | .done st d => some (st, d)

/-- The command word a port holds: valid in `Pending` and `Busy` only (10_state.md R31). -/
def Port.cmd? : Port → Option Word
  | .idle => none
  | .pending w => some w
  | .busy w => some w
  | .done _ _ => none

/-- May a requester issue on the port? In `Idle` and `Done` (10_state.md R34). -/
def Port.mayIssue : Port → Bool
  | .idle => true
  | .pending _ => false
  | .busy _ => false
  | .done _ _ => true

/-- The command of the spec's `Exec(k, w, n)`, whether its sequencer can step or waits for a bus that never answers
(10_state.md R33). -/
def Phase.exec? : Phase → Option Exec
  | .idle => none
  | .exec e => some e
  | .stuck e _ => some e

/-- The word a port waits with, in `Pending`. -/
def Port.pending? : Port → Option Word
  | .idle => none
  | .pending w => some w
  | .busy _ => none
  | .done _ _ => none

end Sys2Proof.Machine
end

