-- ==== Sys2Proof/Machine/Ops.lean ====
section
/-! DEFINITION. The shared operations: the view of the cache, bus transactions, the ending of a command (which is also how
the RBC takes an error: 60_exceptions.md R113, R121, no trap exists), the checks, the read-modify-write sequence, the grant,
the issue and the construction. -/

namespace Sys2Proof.Machine

/-! ## Outputs and views -/

/-- The cache registers that hold a value: none before the first INIT commit (10_state.md R36, 70_reset_and_hazards.md
R140). -/
def State.view (s : State) : Option Cache := if s.initialized then some s.cache else none

/-- The read-only output `LIS_OUT`, which is driven with `last_input_state` at all times (60_exceptions.md R120). Before the
first INIT commit it shows the register's reset value. log 20. -/
def State.lisOut (s : State) : Word := s.cache.lastInputState

/-- Read the cache: a fault before its first write (10_state.md R36, 60_exceptions.md R127, 93_implementation_defined.md
I8). log 7. -/
def State.withCache (s : State) (run : Cache → Host.Outcome State Fault Refusal) : Host.Outcome State Fault Refusal :=
  match s.view with
  | some c => run c
  | none => .fault .cacheReadBeforeWrite

/-- Run a step of the command in execution (10_state.md R33); a command has a meaning in `Exec` only. log 17. -/
def State.withExec (s : State) (run : Exec → Host.Outcome State Fault Refusal) : Host.Outcome State Fault Refusal :=
  match s.phase with
  | .exec e => run e
  | .idle => .fault .offPhase
  | .stuck _ _ => .fault .offPhase

/-! ## The ending of a command (20_memory.md R54) -/

/-- The state with one more event in its log. -/
def State.record (s : State) (ev : Event) : State := { s with log := ev :: s.log }

/-- Latch the response and release the lock: on every ending, `respond` and `raise` alike (R54). -/
def State.release (s : State) (k : Nat) (st : Status) (d : Word) : State :=
  { s with
    ports := s.ports.set k (.done st d)
    lock := .free
    phase := .idle
    log := .release k st d :: s.log }

/-- `respond(OK, d)` (00_scope.md R10). -/
def State.respond (s : State) (e : Exec) (d : Word) : State := s.release e.port .ok d

/-- `raise E()`: the status of E and data 0x0000; nothing else is written (00_scope.md R10, R13, 60_exceptions.md R113). -/
def State.raise (s : State) (e : Exec) (st : Status) : State := s.release e.port st 0

/-- The command goes on: one more transaction is completed, and the scratch registers are as given (R54). -/
def State.advance (s : State) (e : Exec) (sc : Scratch) : State :=
  { s with phase := .exec { e with done := e.done + 1, scratch := sc } }

/-- The cache registers written (a command's commit, in its release step: R54, 00_scope.md R13). -/
def State.setCache (s : State) (c : Cache) : State := { s with cache := c }

/-! ## Bus transactions (20_memory.md R47, R48) -/

/-- The read request of a device register index (R47). -/
def Params.read (p : Params) (index : BitVec 3) : BusRequest := .rd p.busId p.address index

/-- The write request of a byte to a device register index (R47). -/
def Params.write (p : Params) (index : BitVec 3) (b : Byte) : BusRequest := .wr p.busId p.address index b

/-- A free bus answer: `Ok` with any byte, or `Err`. It always arrives (20_memory.md R48). log 5. -/
def freeReply (n : Nat) : BusReply := if Config.freeOk n then .ok (Config.freeData n) else .err

/-- What the next transaction returns: the next answer of the collaborator, a free value when none is listed, and nothing
when it never answers. -/
def State.nextReply (s : State) : Option BusReply :=
  match s.answers with
  | [] => some (freeReply s.draws)
  | .reply r :: _ => some r
  | .never :: _ => none

/-- The state after a transaction that returned `r`: its answer is used up and the event recorded (R47). -/
def State.answered (s : State) (req : BusRequest) (r : BusReply) : State :=
  { s with
    answers := s.answers.tail
    draws := if s.answers.isEmpty then s.draws + 1 else s.draws
    log := .bus req r :: s.log }

/-- The state after the request of a transaction that never returns: the command waits, with the lock held, and nothing else
of the RBC changes (93_implementation_defined.md I7, 92_eei_decisions.md D19). log 6. -/
def State.hang (s : State) (e : Exec) (req : BusRequest) : State :=
  { s with
    phase := .stuck e req
    answers := s.answers.tail
    log := .hang req :: s.log }

/-- One bus transaction of the command in execution: the request is issued and its answer taken, in one step (R54). With a
collaborator that never answers, the request is issued and the sequencer is stuck. -/
def State.transactWith (s : State) (e : Exec) (req : BusRequest)
    (andThen : BusReply → State → Host.Outcome State Fault Refusal) : Host.Outcome State Fault Refusal :=
  match s.nextReply with
  | some r => andThen r (s.answered req r)
  | none => .next (s.hang e req)

/-- A bus transaction after which the command ends or goes on, whatever the answer. -/
def State.transact (s : State) (e : Exec) (req : BusRequest) (andThen : BusReply → State → State) :
    Host.Outcome State Fault Refusal :=
  s.transactWith e req fun r t => .next (andThen r t)

/-! ## Checks before execution (30_encoding.md R76, steps 2 and 3) -/

/-- The check of step 2 and the reading of the cache, for the commands without a pin. -/
def State.checkedCache (s : State) (e : Exec) (run : Cache → Host.Outcome State Fault Refusal) :
    Host.Outcome State Fault Refusal :=
  if s.initialized then s.withCache run else .next (s.raise e .notInitialized)

/-- The checks of steps 2 and 3 and the reading of the cache, for the commands with a pin. The checks come when the
sequencer starts the command, so with no transaction completed. -/
def State.checkedPin (s : State) (p : Nat) (run : Exec → Cache → Host.Outcome State Fault Refusal) :
    Host.Outcome State Fault Refusal :=
  s.withExec fun e =>
    if e.done = 0 then
      s.checkedCache e fun c => if validPin p then run e c else .next (s.raise e .invalidPin)
    else .fault .offPhase

/-! ## The read-modify-write sequence (41_config_polarity.md R95) -/

/-- The new byte of `RMW(C, B, p, v)`: the cached byte of pin p with the pin's bit set to v. -/
def Cache.newByte (c : Cache) (C : PairName) (p : Nat) (v : Bool) : Byte :=
  setBitTo ((c.pair C).byte (reg p)) (bit p) v

/-- Commit `nb` to `C[reg(p)]` (R95). -/
def Cache.commitByte (c : Cache) (C : PairName) (p : Nat) (nb : Byte) : Cache :=
  c.setPair ((c.pair C).setByte (reg p) nb) C

/-- `RMW(C, B, p, v)`: the read is of the cache, the one transaction writes the whole byte, and the byte is committed only
if the write succeeded. The scratch byte `nb` (10_state.md R33) carries it from the request to the commit. -/
def State.rmw (s : State) (C : PairName) (p : Nat) (v : Bool) : Host.Outcome State Fault Refusal :=
  s.checkedPin p fun e c =>
    let f : Exec := { e with scratch := { e.scratch with nb := c.newByte C p v } }
    s.transact f (s.params.write (deviceIndex C.base p) f.scratch.nb) fun r t =>
      match r with
      | .ok _ => (t.setCache (c.commitByte C p f.scratch.nb)).respond f 0
      | .err => t.raise f .busError

/-- A command that answers with the cached bit of pin p, and issues no transaction (41_config_polarity.md R97, R100). -/
def State.answerBit (s : State) (C : PairName) (p : Nat) : Host.Outcome State Fault Refusal :=
  s.checkedPin p fun e c => .next (s.respond e (zext16 ((c.pair C).pin p)))

/-! ## The grant (20_memory.md R53) -/

/-- The numbers of the ports in `Pending`, rising, counted from `k`. -/
def pendingFrom (k : Nat) : List Port → List Nat
  | [] => []
  | p :: ps => if p.pending?.isSome then k :: pendingFrom (k + 1) ps else pendingFrom (k + 1) ps

/-- The ports in `Pending`. -/
def State.pendingPorts (s : State) : List Nat := pendingFrom 0 s.ports

/-- The port `ARB` grants among the pending ones: the first from `choice` on, else the first of all. Every pending port is
some choice's. A single pending port needs no choice. log 8. -/
def pickPort (choice : Nat) : List Nat → Option Nat
  | [] => none
  | [k] => some k
  | k :: ks => some (((k :: ks).find? (choice ≤ ·)).getD k)

/-- The next choice of `ARB`: the next one listed, or a free value. log 8. -/
def State.nextChoice (s : State) : Nat := s.arb.headD (Config.freeChoice s.draws)

/-- The scratch registers at a grant: free values (10_state.md R33). log 4. -/
def freeScratch (n : Nat) : Scratch :=
  { nb := Config.freeScratch n 0
    s := #v[Config.freeScratch n 1, Config.freeScratch n 2, Config.freeScratch n 3, Config.freeScratch n 4,
      Config.freeScratch n 5, Config.freeScratch n 6, Config.freeScratch n 7, Config.freeScratch n 8]
    in0 := Config.freeScratch n 9 }

/-- The grant of port k, whose command word is w (20_memory.md R53). -/
def State.grantTo (s : State) (k : Nat) (w : Word) : State :=
  { s with
    lock := .held k
    phase := .exec { port := k, word := w, done := 0, scratch := freeScratch s.draws }
    ports := s.ports.set k (.busy w)
    arb := s.arb.tail
    draws := s.draws + 1
    log := .grant k w :: s.log }

/-- The port a grant would choose, with its word: a grant is enabled when the lock is free, the phase is `Idle` and a port
is pending (R53). -/
def State.grantee (s : State) : Option (Nat × Word) :=
  match s.lock, s.phase with
  | .free, .idle => do
    let k ← pickPort s.nextChoice s.pendingPorts
    let w ← (s.ports[k]?).bind Port.pending?
    return (k, w)
  | _, _ => none

/-- The sequencer's step in `Idle`: a grant when one is enabled, and nothing otherwise (70_reset_and_hazards.md R142).
log 13. -/
def State.grant (s : State) : State :=
  match s.grantee with
  | some (k, w) => s.grantTo k w
  | none => s

/-! ## Requesters and construction -/

/-- A requester issues a word (10_state.md R34): on a port in `Idle` or `Done`, whose previous response is discarded. An
issue on a busy port is refused (93_implementation_defined.md I6), and so is one on a port that does not exist. log 12. -/
def State.issue (s : State) (k : Nat) (w : Word) : Host.Outcome State Fault Refusal :=
  match s.ports[k]? with
  | none => .refused .noSuchPort
  | some p =>
    if p.mayIssue then .next { s with ports := s.ports.set k (.pending w), log := .issue k w :: s.log }
    else .refused .portBusy

/-- The RBC constructed anew, with the same parameters and ports (70_reset_and_hazards.md R140). What the agents around it
will do, and the record of the run, are not RBC state and go on. log 14. -/
def State.construct (s : State) : State :=
  { State.constructed s.params s.ports.length with
    agenda := s.agenda
    arb := s.arb
    answers := s.answers
    draws := s.draws
    log := .reset :: s.log }

/-! ## Whose move it is -/

/-- The next move: the agenda's next entry; the sequencer's when the agenda is empty. log 13. -/
def State.nextMove (s : State) : Move := s.agenda.headD .sequencer

/-- The state with the next move taken off the agenda. -/
def State.takeMove (s : State) : State := { s with agenda := s.agenda.tail }

end Sys2Proof.Machine
end

