-- ==== Sys2Proof/Machine/ConfigPolarity.lean ====
section
/-! DEFINITION. SETDIR, GETDIR, SETPOL and GETPOL (41_config_polarity.md R96, R97, R99, R100). -/

namespace Sys2Proof.Machine

/-- SETDIR p, v: `RMW(config, 6, p, v)` (R96). -/
def execSetdir (p : Nat) (v : Bool) (s : State) : Host.Outcome State Fault Refusal := s.rmw .config p v

/-- GETDIR p: the cached direction, 1 for input (R97). -/
def execGetdir (p : Nat) (s : State) : Host.Outcome State Fault Refusal := s.answerBit .config p

/-- SETPOL p, v: `RMW(polarity, 4, p, v)` (R99). -/
def execSetpol (p : Nat) (v : Bool) (s : State) : Host.Outcome State Fault Refusal := s.rmw .polarity p v

/-- GETPOL p: the cached polarity, 1 for inverted (R100). -/
def execGetpol (p : Nat) (s : State) : Host.Outcome State Fault Refusal := s.answerBit .polarity p

end Sys2Proof.Machine
end

