-- ==== Sys2Proof/Machine/Init.lean ====
section
/-! DEFINITION. INIT (40_init.md R90 to R94). -/

namespace Sys2Proof.Machine

/-- The device register indices INIT reads, in order: config pair, polarity pair, output pair, input pair (40_init.md R90). -/
def initOrder : List (BitVec 3) := [6, 7, 4, 5, 2, 3, 0, 1]

/-- The cache INIT commits from its staging bytes (40_init.md R91). -/
def Scratch.seeded (sc : Scratch) (p : Params) : Cache :=
  let seed : Cache :=
    { config := ⟨sc.staged 6, sc.staged 7⟩
      polarity := ⟨sc.staged 4, sc.staged 5⟩
      output := ⟨sc.staged 2, sc.staged 3⟩
      lastInputState := 0 }
  { seed with lastInputState := seed.levels p (Pair.word ⟨sc.staged 0, sc.staged 1⟩) }

/-- INIT's commit: the whole cache and `initialized`, together (40_init.md R91). -/
def State.commitInit (s : State) (sc : Scratch) : State :=
  { s with cache := sc.seeded s.params, initialized := true }

/-- One step of INIT: the read of the next index in order. A failed read ends it with nothing committed (R92); the eighth
`Ok` commits (R91). INIT is exempt from the `NotInitialized` check (30_encoding.md R76). Under `REINIT = refuse` a second
INIT has no meaning (93_implementation_defined.md I1). -/
def execInit (s : State) : Host.Outcome State Fault Refusal :=
  s.withExec fun e =>
    match initOrder[e.done]? with
    | none => .fault .offPhase
    | some index =>
      if e.done = 0 ∧ s.initialized = true ∧ s.params.reinit = .refuse then .refused .secondInit
      else
        s.transact e (s.params.read index) fun r t =>
          match r with
          | .err => t.raise e .busError
          | .ok b =>
            let sc := e.scratch.stage index b
            if e.done + 1 = initOrder.length then (t.commitInit sc).respond e 0 else t.advance e sc

end Sys2Proof.Machine
end

