-- ==== Sys2Proof/Machine/Value.lean ====
section
/-! DEFINITION. SETVAL, GETVAL and GETVALS (42_value.md R105 to R112). -/

namespace Sys2Proof.Machine

/-- SETVAL p, v: `RMW(output, 2, p, v)`, on input pins too (R105, R106). -/
def execSetval (p : Nat) (v : Bool) (s : State) : Host.Outcome State Fault Refusal := s.rmw .output p v

/-- The level of an input pin in the raw input byte of its register: `level XOR polarity_bit` (R107, R112). -/
def Cache.inputLevel (c : Cache) (params : Params) (p : Nat) (raw : Byte) : Bool :=
  (raw ^^^ (params.appliedPolarity c.polarity).byte (reg p)).getLsbD (bit p)

/-- `last_input_state[p] <- lvl` (R108). -/
def Cache.setLevel (c : Cache) (p : Nat) (lvl : Bool) : Cache :=
  { c with lastInputState := setBitTo c.lastInputState p lvl }

/-- GETVAL p: an input pin is read from the bus and its bit of `last_input_state` written (R107, R108); an output pin
answers with the cached latch (R109). The cached direction chooses. -/
def execGetval (p : Nat) (s : State) : Host.Outcome State Fault Refusal :=
  s.checkedPin p fun e c =>
    if c.config.pin p then
      s.transact e (s.params.read (deviceIndex 0 p)) fun r t =>
        match r with
        | .err => t.raise e .busError
        | .ok b =>
          let lvl := c.inputLevel s.params p b
          (t.setCache (c.setLevel p lvl)).respond e (zext16 lvl)
    else .next (s.respond e (zext16 (c.output.pin p)))

/-- GETVALS: input-low, then input-high, then the composed word (R110). The first byte waits in the scratch byte `in0`. The
cache is read after both transactions, as in R110's pseudocode. -/
def execGetvals (s : State) : Host.Outcome State Fault Refusal :=
  s.withExec fun e =>
    match e.done with
    | 0 =>
      s.checkedCache e fun _ =>
        s.transact e (s.params.read 0) fun r t =>
          match r with
          | .err => t.raise e .busError
          | .ok b => t.advance e { e.scratch with in0 := b }
    | 1 =>
      s.transactWith e (s.params.read 1) fun r t =>
        match r with
        | .err => .next (t.raise e .busError)
        | .ok b =>
          t.withCache fun c =>
            let w := c.levels s.params (Pair.word ⟨e.scratch.in0, b⟩)
            .next ((t.setCache { c with lastInputState := w }).respond e w)
    | _ => .fault .offPhase

end Sys2Proof.Machine
end

