-- ==== Sys2Proof/Machine/Dispatch.lean ====
section
/-! DEFINITION. One arm per command: what one sequencer step of it does. -/

namespace Sys2Proof.Machine

/-- One step of the command `i`, which the sequencer executes (20_memory.md R54). -/
def exec (i : Instr) (s : State) : Host.Outcome State Fault Refusal :=
  match i with
  | .init => Sys2Proof.Machine.execInit s
  | .setdir p v => Sys2Proof.Machine.execSetdir p v s
  | .getdir p => Sys2Proof.Machine.execGetdir p s
  | .setpol p v => Sys2Proof.Machine.execSetpol p v s
  | .getpol p => Sys2Proof.Machine.execGetpol p s
  | .setval p v => Sys2Proof.Machine.execSetval p v s
  | .getval p => Sys2Proof.Machine.execGetval p s
  | .getvals => Sys2Proof.Machine.execGetvals s

end Sys2Proof.Machine
end

