-- ==== Sys2Proof/Machine/Step.lean ====
section
/-! DEFINITION. One step of the machine, and the placing of a command for the very next step. -/

namespace Sys2Proof.Machine

/-- The sequencer's step: in `Idle` a grant; in `Exec` one step of the command, after the check that its word is legal
(20_memory.md R53, R54, 30_encoding.md R76 step 1). Stuck at a bus that never answers, the sequencer has no step: its move
changes nothing (93_implementation_defined.md I7). log 6. -/
def State.sequence (s : State) : Host.Outcome State Fault Refusal :=
  match s.phase with
  | .idle => .next s.grant
  | .exec e =>
    match decode e.word with
    | some i => exec i s
    | none => .next (s.raise e .illegalCommand)
  | .stuck _ _ => .next s

/-- One step: the move of the agent whose turn it is (10_state.md R34, 60_exceptions.md R124). -/
def step (s : State) : Host.Outcome State Fault Refusal :=
  match s.nextMove with
  | .issue k w => s.takeMove.issue k w
  | .sequencer => s.takeMove.sequence
  | .reset => .next s.takeMove.construct

/-- The state with the command word `w` on port 0, granted, and the sequencer to move: the very next step executes it. It
stands for the issue and the grant of the word (70_reset_and_hazards.md R142). log 16. -/
def State.withFetchWord (s : State) (nbits w : Nat) : State :=
  let word : Word := BitVec.ofNat 16 (w % 2 ^ nbits)
  let issued : State :=
    { s with
      ports := s.ports.set 0 (.pending word)
      agenda := .sequencer :: s.agenda
      log := .issue 0 word :: s.log }
  issued.grantTo 0 word

end Sys2Proof.Machine
end

