-- ==== Sys2Proof/Machine/Assembler.lean ====
section
/-! DEFINITION. The assembler syntax and the pseudo-instructions (30_encoding.md R80, R81, 92_eei_decisions.md D28): notation
for command words, no part of the machine. -/

namespace Sys2Proof.Machine

/-- A command as written: the eight commands, the six pseudo-instructions and a bare word. Operands are integers. -/
inductive Source
  | init
  | setdir (p v : Int)
  | getdir (p : Int)
  | setpol (p v : Int)
  | getpol (p : Int)
  | setval (p v : Int)
  | getval (p : Int)
  | getvals
  | input (p : Int)
  | output (p : Int)
  | invert (p : Int)
  | normal (p : Int)
  | high (p : Int)
  | low (p : Int)
  | word (w : Int)
deriving DecidableEq, Repr

/-- The `PIN` field of an operand p: its 8-bit two's-complement value, for p from -128 to 255 (R80). -/
def pinOperand (p : Int) : Option Nat := if -128 ≤ p ∧ p ≤ 255 then some (BitVec.ofInt 8 p).toNat else none

/-- The `V` field of an operand v: 0 or 1 (R80). -/
def valueOperand (v : Int) : Option Bool := if v = 0 then some false else if v = 1 then some true else none

/-- A set command with its operands assembled. -/
def setSource (i : Nat → Bool → Instr) (p v : Int) : Option Instr := do
  let q ← pinOperand p
  let b ← valueOperand v
  return i q b

/-- The command a source stands for; each pseudo-instruction expands to one command (R81). -/
def Source.instr? : Source → Option Instr
  | .init => some .init
  | .setdir p v => setSource .setdir p v
  | .getdir p => (pinOperand p).map .getdir
  | .setpol p v => setSource .setpol p v
  | .getpol p => (pinOperand p).map .getpol
  | .setval p v => setSource .setval p v
  | .getval p => (pinOperand p).map .getval
  | .getvals => some .getvals
  | .input p => setSource .setdir p 1
  | .output p => setSource .setdir p 0
  | .invert p => setSource .setpol p 1
  | .normal p => setSource .setpol p 0
  | .high p => setSource .setval p 1
  | .low p => setSource .setval p 0
  | .word _ => none

/-- The command word of a source; none when the assembler refuses an operand (R80). `.word` spells any 16-bit word. -/
def Source.assemble : Source → Option Word
  | .word w => if 0 ≤ w ∧ w ≤ 0xFFFF then some (BitVec.ofInt 16 w) else none
  | src => src.instr?.map encode

/-! ## Lines of text, as lists of characters. log 21 -/

/-- A blank. -/
def isBlank (c : Char) : Bool := c == ' ' || c == '\t'

/-- The characters without blanks at both ends. -/
def trim (l : List Char) : List Char := ((l.dropWhile isBlank).reverse.dropWhile isBlank).reverse

/-- The value of a decimal or hexadecimal digit, in either letter case: its place in the row of digits. -/
def digit? (c : Char) : Option Nat := "0123456789ABCDEF".toList.findIdx? (· == c.toUpper)

/-- The number that digits of the given base spell, after the part already read. -/
def digitsFrom (base acc : Nat) : List Char → Option Nat
  | [] => some acc
  | c :: cs =>
    match digit? c with
    | some d => if d < base then digitsFrom base (acc * base + d) cs else none
    | none => none

/-- A number: decimal digits, or `0x` and hexadecimal digits. -/
def parseNat : List Char → Option Nat
  | [] => none
  | ['0', 'x'] => none
  | '0' :: 'x' :: cs => digitsFrom 16 0 cs
  | cs => digitsFrom 10 0 cs

/-- An integer: a number, or `-` and a number. -/
def parseInt : List Char → Option Int
  | '-' :: cs => (parseNat cs).map fun n => -(n : Int)
  | cs => (parseNat cs).map fun n => (n : Int)

/-- The pieces between the separators. -/
def pieces (sep : Char) : List Char → List (List Char)
  | [] => [[]]
  | c :: cs =>
    match pieces sep cs with
    | [] => [[c]]
    | q :: qs => if c == sep then [] :: q :: qs else (c :: q) :: qs

/-- The operands of a line: integers between commas, or nothing. -/
def parseOperands (l : List Char) : Option (List Int) :=
  match trim l with
  | [] => some []
  | cs => (pieces ',' cs).mapM fun q => parseInt (trim q)

/-- The source of a mnemonic and its operands (R80, R81). -/
def sourceOf (mnemonic : List Char) (ops : List Int) : Option Source :=
  match mnemonic, ops with
  | ['I', 'N', 'I', 'T'], [] => some .init
  | ['S', 'E', 'T', 'D', 'I', 'R'], [p, v] => some (.setdir p v)
  | ['G', 'E', 'T', 'D', 'I', 'R'], [p] => some (.getdir p)
  | ['S', 'E', 'T', 'P', 'O', 'L'], [p, v] => some (.setpol p v)
  | ['G', 'E', 'T', 'P', 'O', 'L'], [p] => some (.getpol p)
  | ['S', 'E', 'T', 'V', 'A', 'L'], [p, v] => some (.setval p v)
  | ['G', 'E', 'T', 'V', 'A', 'L'], [p] => some (.getval p)
  | ['G', 'E', 'T', 'V', 'A', 'L', 'S'], [] => some .getvals
  | ['I', 'N', 'P', 'U', 'T'], [p] => some (.input p)
  | ['O', 'U', 'T', 'P', 'U', 'T'], [p] => some (.output p)
  | ['I', 'N', 'V', 'E', 'R', 'T'], [p] => some (.invert p)
  | ['N', 'O', 'R', 'M', 'A', 'L'], [p] => some (.normal p)
  | ['H', 'I', 'G', 'H'], [p] => some (.high p)
  | ['L', 'O', 'W'], [p] => some (.low p)
  | ['.', 'w', 'o', 'r', 'd'], [w] => some (.word w)
  | _, _ => none

/-- A line that is no blank and no comment only: its port, 0 when none is written, and its source. -/
def parseCommand (l : List Char) : Option (Nat × Source) := do
  let (port, body) ← match pieces ':' l with
    | [body] => some (0, trim body)
    | [k, body] => (parseNat (trim k)).map fun n => (n, trim body)
    | _ => none
  let ops ← parseOperands (body.dropWhile fun c => !isBlank c)
  let src ← sourceOf (body.takeWhile fun c => !isBlank c) ops
  return (port, src)

/-- A line: `;` starts a comment, and a line with nothing else issues nothing. The outer none is the assembler's refusal. -/
def assembleLine (l : List Char) : Option (Option (Nat × Word)) :=
  match trim (l.takeWhile fun c => c != ';') with
  | [] => some none
  | cs =>
    match parseCommand cs with
    | none => none
    | some (k, src) => src.assemble.map fun w => some (k, w)

end Sys2Proof.Machine
end

