-- ==== Sys2Proof/Machine/Reference.lean ====
section
/-! DEFINITION. The commands as a serial machine: what one whole command returns and leaves in the cache, given the bus
answers it got, and which request it issues after how many of them. Nothing of the sequencer, the lock or the ports stands
here, and pins are bits of 16-bit words, not bits of bytes. 20_memory.md R59 says that every run of the RBC agrees with this
serial machine, and R68 lists its transactions. -/

namespace Sys2Proof.Machine

namespace Reference

/-- The pair with the bit of pin p set to v, as a change of its 16-bit word (00_scope.md R12). -/
def setPin (x : Pair) (p : Nat) (v : Bool) : Pair :=
  let w := setBitTo x.word p v
  { lo := w.extractLsb' 0 8, hi := w.extractLsb' 8 8 }

/-- The byte of pin p's register in a pair word. -/
def byteOf (w : Word) (p : Nat) : Byte := if p < 8 then w.extractLsb' 0 8 else w.extractLsb' 8 8

/-- The request of a set command: the whole owning byte, with the pin's bit set (41_config_polarity.md R95). -/
def setRequest (params : Params) (base : Nat) (x : Pair) (p : Nat) (v : Bool) : BusRequest :=
  .wr params.busId params.address (BitVec.ofNat 3 (if p < 8 then base else base + 1)) (byteOf (setBitTo x.word p v) p)

/-- The request command `i` issues when `n` of its transactions have returned `Ok` (20_memory.md R68); `none` when it
issues none. `v` is the cache, none before the first INIT. The checks of 30_encoding.md R76 are made at `n = 0` only. -/
def request (params : Params) (v : Option Cache) (i : Instr) (n : Nat) : Option BusRequest :=
  match i, v with
  | .init, _ =>
    if n = 0 ∧ v.isSome = true ∧ params.reinit = .refuse then none
    else (initOrder[n]?).map (.rd params.busId params.address)
  | .setdir p b, some c => if n = 0 ∧ p ≤ 15 then some (setRequest params 6 c.config p b) else none
  | .setpol p b, some c => if n = 0 ∧ p ≤ 15 then some (setRequest params 4 c.polarity p b) else none
  | .setval p b, some c => if n = 0 ∧ p ≤ 15 then some (setRequest params 2 c.output p b) else none
  | .getval p, some c =>
    if n = 0 ∧ p ≤ 15 ∧ c.config.word.getLsbD p then
      some (.rd params.busId params.address (if p < 8 then 0 else 1))
    else none
  | .getvals, some _ =>
    if n = 0 then some (.rd params.busId params.address 0)
    else if n = 1 then some (.rd params.busId params.address 1) else none
  | .getdir _, some _ => none
  | .getpol _, some _ => none
  | .setdir _ _, none => none
  | .getdir _, none => none
  | .setpol _ _, none => none
  | .getpol _, none => none
  | .setval _ _, none => none
  | .getval _, none => none
  | .getvals, none => if n = 1 then some (.rd params.busId params.address 1) else none

/-- What a whole command leaves: the cache and the response. -/
structure Result where
  /-- The cache; none while no INIT has succeeded. -/
  cache : Option Cache
  /-- The status of the response. -/
  status : Status
  /-- The data of the response. -/
  data : Word
deriving DecidableEq, Repr

/-- The ending of a command with an error: no cache register changes (60_exceptions.md R113). -/
def failed (v : Option Cache) (st : Status) : Result := { cache := v, status := st, data := 0 }

/-- The ending of a set command (41_config_polarity.md R95). -/
def setResult (c : Cache) (c' : Cache) : List BusReply → Result
  | [.ok _] => { cache := some c', status := .ok, data := 0 }
  | _ => failed (some c) .busError

/-- The cache INIT seeds from the eight bytes it read, in the order it read them (40_init.md R90, R91). -/
def seed (params : Params) (c0 c1 p0 p1 o0 o1 i0 i1 : Byte) : Cache :=
  { config := ⟨c0, c1⟩
    polarity := ⟨p0, p1⟩
    output := ⟨o0, o1⟩
    lastInputState := compose (i1 ++ i0) (c1 ++ c0) (if params.appliesPolarity then p1 ++ p0 else 0) (o1 ++ o0) }

/-- A legal command with the answers `rs` it got. The checks of 30_encoding.md R76 come before the first of them, so a command
that got one has passed them. -/
def runInstr (params : Params) (v : Option Cache) (i : Instr) (rs : List BusReply) : Result :=
  match i, v with
  | .init, _ =>
    match rs with
    | [.ok c0, .ok c1, .ok p0, .ok p1, .ok o0, .ok o1, .ok i0, .ok i1] =>
      { cache := some (seed params c0 c1 p0 p1 o0 o1 i0 i1), status := .ok, data := 0 }
    | _ => failed v .busError
  | .setdir p b, some c =>
    if p ≤ 15 then setResult c { c with config := setPin c.config p b } rs else failed v .invalidPin
  | .setpol p b, some c =>
    if p ≤ 15 then setResult c { c with polarity := setPin c.polarity p b } rs else failed v .invalidPin
  | .setval p b, some c =>
    if p ≤ 15 then setResult c { c with output := setPin c.output p b } rs else failed v .invalidPin
  | .getdir p, some c =>
    if p ≤ 15 then { cache := v, status := .ok, data := zext16 (c.config.word.getLsbD p) } else failed v .invalidPin
  | .getpol p, some c =>
    if p ≤ 15 then { cache := v, status := .ok, data := zext16 (c.polarity.word.getLsbD p) } else failed v .invalidPin
  | .getval p, some c =>
    if p ≤ 15 then
      if c.config.word.getLsbD p then
        match rs with
        | [.ok raw] =>
          let lvl := (c.levels params (raw ++ raw)).getLsbD p
          { cache := some { c with lastInputState := setBitTo c.lastInputState p lvl }, status := .ok, data := zext16 lvl }
        | _ => failed v .busError
      else { cache := v, status := .ok, data := zext16 (c.output.word.getLsbD p) }
    else failed v .invalidPin
  | .getvals, some c =>
    match rs with
    | [.ok i0, .ok i1] =>
      { cache := some { c with lastInputState := c.levels params (i1 ++ i0) }, status := .ok
        data := c.levels params (i1 ++ i0) }
    | _ => failed v .busError
  | .setdir _ _, none => failed v .notInitialized
  | .getdir _, none => failed v .notInitialized
  | .setpol _ _, none => failed v .notInitialized
  | .getpol _, none => failed v .notInitialized
  | .setval _ _, none => failed v .notInitialized
  | .getval _, none => failed v .notInitialized
  | .getvals, none =>
    match rs with
    | [] => failed v .notInitialized
    | _ :: _ => failed v .busError

/-- A whole command word: an illegal word ends with `IllegalCommand` before any other check (30_encoding.md R76). -/
def run (params : Params) (v : Option Cache) (w : Word) (rs : List BusReply) : Result :=
  match decode w with
  | some i => runInstr params v i rs
  | none => failed v .illegalCommand

end Reference

/-! ## The events of a run, replayed on the serial machine (20_memory.md R59) -/

/-- What the serial machine holds after a list of events. -/
structure Replay where
  /-- The cache; none while no INIT has succeeded since the last reset. -/
  cache : Option Cache
  /-- The ports. -/
  ports : List Port
  /-- The command in execution and the answers it got so far, oldest first. -/
  current : Option (Nat × Word × List BusReply)
  /-- The request that the command in execution waits with for ever, if any. -/
  hung : Option BusRequest
  /-- Was every event so far the one the serial machine allows? -/
  agrees : Bool
deriving DecidableEq, Repr

/-- Before the first event. -/
def Replay.start (nPorts : Nat) : Replay :=
  { cache := none, ports := List.replicate nPorts .idle, current := none, hung := none, agrees := true }

/-- The replay found an event that the serial machine does not allow. -/
def Replay.differ (r : Replay) : Replay := { r with agrees := false }

/-- The next event, replayed. A grant takes a pending word, and only when no command is in execution; each request is the
one the serial machine issues; the response and the cache at a release are those of the whole command. After a request that
never returns, the command has no further event. -/
def Replay.event (params : Params) (r : Replay) : Event → Replay
  | .issue k w =>
    if ((r.ports[k]?).map Port.mayIssue) = some true then { r with ports := r.ports.set k (.pending w) } else r.differ
  | .grant k w =>
    if r.current = none ∧ r.ports[k]? = some (.pending w) then
      { r with current := some (k, w, []), ports := r.ports.set k (.busy w) }
    else r.differ
  | .bus req rep =>
    match r.current, r.hung with
    | some (k, w, rs), none =>
      if (decode w).bind (Reference.request params r.cache · rs.length) = some req then
        { r with current := some (k, w, rs ++ [rep]) }
      else r.differ
    | _, _ => r.differ
  | .hang req =>
    match r.current, r.hung with
    | some (_, w, rs), none =>
      if (decode w).bind (Reference.request params r.cache · rs.length) = some req then { r with hung := some req }
      else r.differ
    | _, _ => r.differ
  | .release k st d =>
    match r.current, r.hung with
    | some (k', w, rs), none =>
      let res := Reference.run params r.cache w rs
      if k = k' ∧ st = res.status ∧ d = res.data then
        { r with cache := res.cache, current := none, ports := r.ports.set k (.done st d) }
      else r.differ
    | _, _ => r.differ
  | .reset => { Replay.start r.ports.length with agrees := r.agrees }

/-- The replay of a log (newest event first). -/
def replay (params : Params) (nPorts : Nat) : List Event → Replay
  | [] => Replay.start nPorts
  | ev :: evs => (replay params nPorts evs).event params ev

end Sys2Proof.Machine
end

