-- ==== Sys2Proof/Machine/MockBus.lean ====
section
/-! DEFINITION. The spec's mock bus (20_memory.md R58): a test harness around the RBC, no part of it. Eight cells stand for
the device's registers, and a list of transaction numbers for the transactions that fail. -/

namespace Sys2Proof.Machine

/-- An RBC on the mock bus. -/
structure Mock where
  /-- The RBC. Its `answers` are not used: the mock bus answers. -/
  rbc : State
  /-- `dev[0..7]`. -/
  dev : Vector Byte 8
  /-- `FAIL`: the numbers of the transactions that fail, counted from 1. -/
  fail : List Nat
  /-- How many transactions there were. -/
  count : Nat
deriving DecidableEq, Repr

/-- Does the next transaction fail? -/
def Mock.failsNext (m : Mock) : Bool := m.fail.contains (m.count + 1)

/-- The answer of the mock bus to a request (R58). -/
def Mock.reply (m : Mock) (req : BusRequest) : BusReply :=
  if m.failsNext then .err
  else
    match req with
    | .rd _ _ index => .ok (m.dev[index.toNat]'index.isLt)
    | .wr _ _ _ _ => .ok 0

/-- The cells after a request: a write that does not fail sets its cell (R58). -/
def Mock.cellsAfter (m : Mock) (req : BusRequest) : Vector Byte 8 :=
  if m.failsNext then m.dev
  else
    match req with
    | .rd _ _ _ => m.dev
    | .wr _ _ index b => m.dev.set index.toNat b index.isLt

/-- The request the RBC issues in its next step, if any (20_memory.md R68). -/
def State.nextRequest (s : State) : Option BusRequest :=
  match s.nextMove, s.phase with
  | .sequencer, .exec e => (decode e.word).bind (Reference.request s.params s.view · e.done)
  | _, _ => none

/-- One step of the RBC, with the mock bus answering its request. DESIGN CHOICE: a reset in the middle of a run does not restart
the numbers that `FAIL` counts by; R58 does not say. log 26. -/
def Mock.step (m : Mock) : Host.Outcome Mock Fault Refusal :=
  match m.rbc.nextRequest with
  | none =>
    match Sys2Proof.Machine.step m.rbc with
    | .next t => .next { m with rbc := t }
    | .fault f => .fault f
    | .refused r => .refused r
  | some req =>
    match Sys2Proof.Machine.step { m.rbc with answers := [.reply (m.reply req)] } with
    | .next t => .next { rbc := t, dev := m.cellsAfter req, fail := m.fail, count := m.count + 1 }
    | .fault f => .fault f
    | .refused r => .refused r

/-- `n` steps of the RBC on the mock bus. -/
def Mock.run : Nat → Mock → Host.Outcome Mock Fault Refusal
  | 0, m => .next m
  | n + 1, m =>
    match m.step with
    | .next m' => m'.run n
    | .fault f => .fault f
    | .refused r => .refused r

/-- The moves that run one command alone: its issue, its grant and at most eight transactions (20_memory.md R63). -/
def aloneMoves (k : Nat) (w : Word) : List Move := .issue k w :: List.replicate 9 .sequencer

end Sys2Proof.Machine
end

