-- ==== Sys2Proof/Safety.lean ====
section
/-! DEFINITION. What counts as a well-formed state and a safe run, and the words the statements use. -/

namespace Sys2Proof.Machine

/-! ## Well-formed states -/

/-- At most how many sequencer steps the command of a word takes, the release step included (20_memory.md R68). -/
def stepsOf (w : Word) : Nat :=
  match decode w with
  | some .init => 8
  | some .getvals => 2
  | _ => 1

/-- The bookkeeping of port, lock and phase (10_state.md R31 to R33, 20_memory.md R53, R54), and what a command past its
first transaction has already checked (30_encoding.md R76). -/
structure State.Inv (s : State) : Prop where
  /-- `N_PORTS` is at least 1, and so is `BUS_ID_WIDTH` (00_scope.md R7). -/
  params : 0 < s.ports.length ∧ 0 < s.params.busId.width
  /-- In `Idle` the lock is free and no port is `Busy`. -/
  idle : s.phase = .idle → s.lock = .free ∧ ∀ (k : Nat) (w : Word), s.ports[k]? ≠ some (Port.busy w)
  /-- In `Exec(k, w, n)` the lock is `Held(k)`, port k is `Busy` with w, and no other port is `Busy`. -/
  owner : ∀ e, s.phase.exec? = some e →
    s.lock = .held e.port ∧ s.ports[e.port]? = some (.busy e.word) ∧
      ∀ (k : Nat) (w : Word), s.ports[k]? = some (Port.busy w) → k = e.port
  /-- n stays below the steps of the command, and a command past its first transaction is INIT or has found
  `initialized = 1`. -/
  progress : ∀ e, s.phase.exec? = some e →
    e.done < stepsOf e.word ∧ (0 < e.done → decode e.word = some .init ∨ s.initialized = true)

/-- The collaborator answers every transaction in finite time, those to come and the one in progress: the named premise of
93_implementation_defined.md I7 and 92_eei_decisions.md D19. -/
def State.FiniteResponse (s : State) : Prop := BusAnswer.never ∉ s.answers ∧ ∀ e req, s.phase ≠ .stuck e req

/-- INIT has a meaning here: it is not a second INIT under `REINIT = refuse` (93_implementation_defined.md I1). -/
def State.InitAllowed (s : State) : Prop := s.initialized = true → s.params.reinit = .reseed

/-- The polarity bit of pin p as the RBC applies it: the cached bit, or 0 when `RBC_APPLIES_POLARITY` is false
(93_implementation_defined.md I2; true is the rule of 42_value.md R112). -/
def State.polarityOf (s : State) (p : Nat) : Bool := s.params.appliesPolarity && s.cache.polarity.pin p

/-- The polarity word as the RBC applies it (as `State.polarityOf`, for all pins). -/
def State.polarityWord (s : State) : Word := if s.params.appliesPolarity then s.cache.polarity.word else 0

/-- The set command on a pair: SETDIR, SETPOL or SETVAL (41_config_polarity.md R95). -/
def PairName.setInstr : PairName → Nat → Bool → Instr
  | .config => .setdir
  | .polarity => .setpol
  | .output => .setval

/-- The command in execution while its request is in flight: a write's byte is in the scratch register `nb` (10_state.md
R33, 41_config_polarity.md R95), and nothing else differs. -/
def Exec.sending (e : Exec) : BusRequest → Exec
  | .wr _ _ _ b => { e with scratch := { e.scratch with nb := b } }
  | .rd _ _ _ => e

/-! ## What a step leaves -/

/-- The ending of a command (20_memory.md R54), and its frame: from `s` to `t` the command of port `k` latched status `st`
and data `d`, released the lock, and recorded the bus events `evs` (oldest first) and then its release. The parameters, the
other ports, the agents' moves and the arbitration are unchanged. The cache, `initialized` and the bus answers are for the
statement that uses this to say. -/
structure Ended (s t : State) (k : Nat) (st : Status) (d : Word) (evs : List Event) : Prop where
  /-- The response is latched in port k. -/
  latched : k < s.ports.length → t.ports[k]? = some (.done st d)
  /-- The other ports are unchanged. -/
  others : t.ports.length = s.ports.length ∧ ∀ j, j ≠ k → t.ports[j]? = s.ports[j]?
  /-- The lock is released and the sequencer is idle. -/
  released : t.lock = .free ∧ t.phase = .idle
  /-- What no command touches. -/
  frame : t.params = s.params ∧ t.agenda = s.agenda ∧ t.arb = s.arb
  /-- The events of the step. -/
  events : t.log = .release k st d :: (evs.reverse ++ s.log)

/-- A command stays in execution from `s` to `t`, after one more transaction or at one that never returns: only the phase
changes, and the bus answers. -/
structure GoesOn (s t : State) (ev : Event) : Prop where
  /-- The ports and the lock are unchanged. -/
  ports : t.ports = s.ports ∧ t.lock = s.lock
  /-- No data register changes. -/
  registers : t.cache = s.cache ∧ t.initialized = s.initialized
  /-- What no command touches. -/
  frame : t.params = s.params ∧ t.agenda = s.agenda ∧ t.arb = s.arb
  /-- The event of the step. -/
  events : t.log = ev :: s.log

/-- No data register changed: the cache, `last_input_state` and `initialized` (10_state.md R20, R22). -/
def SameRegisters (s t : State) : Prop := t.cache = s.cache ∧ t.initialized = s.initialized

/-- The newest event of the state's run is the latching of a response with status `st` and data `d` on port `k`. -/
def JustReleased (t : State) (k : Nat) (st : Status) (d : Word) : Prop := t.log.head? = some (.release k st d)

/-- The events of the step from `s` to `t`, newest first. -/
def newEvents (s t : State) : List Event := t.log.take (t.log.length - s.log.length)

/-- The request of a bus event, answered or not. -/
def Event.request? : Event → Option BusRequest
  | .bus req _ => some req
  | .hang req => some req
  | .issue _ _ => none
  | .grant _ _ => none
  | .release _ _ _ => none
  | .reset => none

/-- No bus answer was used. -/
def SameBus (s t : State) : Prop := t.answers = s.answers ∧ t.draws = s.draws

/-- Exactly one bus answer was used: the next one listed (`never` too), or one free value. -/
def OneAnswer (s t : State) : Prop :=
  t.answers = s.answers.tail ∧ t.draws = (if s.answers = [] then s.draws + 1 else s.draws)

/-! ## Linearizability (20_memory.md R59) -/

/-- The bytes the command in execution has read so far, oldest first, as its scratch registers hold them. -/
def Exec.taken (e : Exec) : List Byte :=
  match decode e.word with
  | some .init => (initOrder.take e.done).map e.scratch.staged
  | some .getvals => if e.done = 0 then [] else [e.scratch.in0]
  | _ => []

/-- The run so far agrees with the serial machine: its events replay without a difference, and the replay ends with this
state's cache, ports and command in execution. -/
structure State.Linear (s : State) : Prop where
  /-- Every event is the one the serial machine allows. -/
  agrees : (replay s.params s.ports.length s.log).agrees = true
  /-- The cache is the serial machine's. -/
  cache : (replay s.params s.ports.length s.log).cache = s.view
  /-- The ports are the serial machine's. -/
  ports : (replay s.params s.ports.length s.log).ports = s.ports
  /-- The command in execution is the serial machine's, with the same answers. -/
  current : (replay s.params s.ports.length s.log).current =
    s.phase.exec?.map fun e => (e.port, e.word, e.taken.map .ok)
  /-- The request that waits for ever is the serial machine's. -/
  hung : (replay s.params s.ports.length s.log).hung =
    match s.phase with
    | .idle => none
    | .exec _ => none
    | .stuck _ req => some req

/-! ## Coherence with the device on the mock bus (10_state.md R29) -/

/-- Every cache byte equals its device register, and so does every staging byte of an INIT in execution. -/
structure Mock.Coherent (m : Mock) : Prop where
  /-- The cache bytes (R28). -/
  cells : ∀ c, m.rbc.view = some c →
    c.output = ⟨m.dev[2], m.dev[3]⟩ ∧ c.polarity = ⟨m.dev[4], m.dev[5]⟩ ∧ c.config = ⟨m.dev[6], m.dev[7]⟩
  /-- The staging bytes of the pairs that are cached. -/
  staged : ∀ e, m.rbc.phase = .exec e → decode e.word = some .init →
    ∀ index ∈ initOrder.take e.done, 2 ≤ index.toNat → e.scratch.staged index = m.dev[index.toNat]'index.isLt

end Sys2Proof.Machine
end

