-- ==== Sys2Proof/Certificates/Slice0/Obligations.lean ====
section
/-! DEFINITION. The statements for the provers. Each is about the machine, none about a program. `s.phase = .exec e` says
that the sequencer executes the command word `e.word` of port `e.port`, with `e.done` transactions completed. -/

open Sys2Proof Sys2Proof.Machine

/-! ## Encoding -/

/-- Decoding the word of any command whose pin fits the 8-bit field gives the command back: no operand bit is lost
(30_encoding.md R70 to R73). -/
def Obligations.DecodeEncodeRoundTrip : Prop :=
  ∀ i : Instr, i.wellFormed = true → decode (encode i) = some i

/-- A command has one word: whatever word decodes to a command is the command's own word, and the command is well-formed
(30_encoding.md R71, R77). -/
def Obligations.DecodedWordIsTheEncoding : Prop :=
  ∀ (w : Word) (i : Instr), decode w = some i → i.wellFormed = true ∧ encode i = w

/-- The decoder and the match and mask rows of 30_encoding.md R73 agree: a word is a command exactly when the command's row
matches it, and no two rows match the same word. -/
def Obligations.OpcodeMapMatchesDecoder : Prop :=
  (∀ (w : Word) (r : OpcodeRow), r ∈ opcodeMap → r.matchesWord w = true → ∃ i, decode w = some i ∧ i.mnemonic = r.mnemonic) ∧
  (∀ (w : Word) (i : Instr), decode w = some i → ∃ r ∈ opcodeMap, r.mnemonic = i.mnemonic ∧ r.matchesWord w = true) ∧
  (∀ (w : Word) (r r' : OpcodeRow), r ∈ opcodeMap → r' ∈ opcodeMap →
    r.matchesWord w = true → r'.matchesWord w = true → r = r')

/-- 30_encoding.md R74: a word is illegal exactly when its `OP` is reserved or a bit its format requires to be 0 is 1; and
a step on an illegal word ends it with `IllegalCommand` and data 0, with no bus transaction and no register changed. -/
def Obligations.IllegalWordEndsWithIllegalCommand : Prop :=
  (∀ w : Word, decode w = none ↔
    (fieldOp w = 0 ∨ 9 ≤ (fieldOp w).toNat) ∨
    ((fieldOp w = 1 ∨ fieldOp w = 8) ∧ w.extractLsb' 0 12 ≠ 0) ∨
    ((fieldOp w = 3 ∨ fieldOp w = 5 ∨ fieldOp w = 7) ∧ w.extractLsb' 8 4 ≠ 0) ∨
    ((fieldOp w = 2 ∨ fieldOp w = 4 ∨ fieldOp w = 6) ∧ w.extractLsb' 9 3 ≠ 0)) ∧
  (∀ (s : State) (e : Exec), s.nextMove = .sequencer → s.phase = .exec e → decode e.word = none →
    ∃ t, step s = .next t ∧ Ended s.takeMove t e.port .illegalCommand 0 [] ∧ SameRegisters s t ∧ SameBus s t)

/-- The eleven encoding examples of 30_encoding.md R82, assembled and decoded. -/
def Obligations.EncodingExamplesOfTheSpec : Prop :=
  (Source.init.assemble = some 0x1000 ∧ decode 0x1000 = some .init) ∧
  ((Source.setdir 0 1).assemble = some 0x2100 ∧ decode 0x2100 = some (.setdir 0 true)) ∧
  ((Source.setdir 15 0).assemble = some 0x200F ∧ decode 0x200F = some (.setdir 15 false)) ∧
  ((Source.getdir 9).assemble = some 0x3009 ∧ decode 0x3009 = some (.getdir 9)) ∧
  ((Source.setpol 3 1).assemble = some 0x4103 ∧ decode 0x4103 = some (.setpol 3 true)) ∧
  ((Source.getpol 12).assemble = some 0x500C ∧ decode 0x500C = some (.getpol 12)) ∧
  ((Source.setval 8 1).assemble = some 0x6108 ∧ decode 0x6108 = some (.setval 8 true)) ∧
  ((Source.getval 7).assemble = some 0x7007 ∧ decode 0x7007 = some (.getval 7)) ∧
  (Source.getvals.assemble = some 0x8000 ∧ decode 0x8000 = some .getvals) ∧
  ((Source.setdir 16 1).assemble = some 0x2110 ∧ decode 0x2110 = some (.setdir 16 true)) ∧
  ((Source.getval (-1)).assemble = some 0x70FF ∧ decode 0x70FF = some (.getval 255))

/-- 30_encoding.md R81: each pseudo-instruction assembles to the word of its one expansion, for every p it can spell. -/
def Obligations.PseudoInstructionsExpand : Prop :=
  ∀ p : Int, -128 ≤ p → p ≤ 255 →
    let pin : Word := (BitVec.ofInt 8 p).setWidth 16
    ((Source.input p).assemble = some (0x2100 ||| pin) ∧ (Source.input p).assemble = (Source.setdir p 1).assemble) ∧
    ((Source.output p).assemble = some (0x2000 ||| pin) ∧ (Source.output p).assemble = (Source.setdir p 0).assemble) ∧
    ((Source.invert p).assemble = some (0x4100 ||| pin) ∧ (Source.invert p).assemble = (Source.setpol p 1).assemble) ∧
    ((Source.normal p).assemble = some (0x4000 ||| pin) ∧ (Source.normal p).assemble = (Source.setpol p 0).assemble) ∧
    ((Source.high p).assemble = some (0x6100 ||| pin) ∧ (Source.high p).assemble = (Source.setval p 1).assemble) ∧
    ((Source.low p).assemble = some (0x6000 ||| pin) ∧ (Source.low p).assemble = (Source.setval p 0).assemble)

/-- 30_encoding.md R80: the assembler spells an illegal word only as `.word`, and refuses operands out of range, for every
command and pseudo-instruction: a pin outside -128 to 255, a value other than 0 and 1. That `.word` takes the numbers 0 to
0xFFFF, and only those, is log 21. -/
def Obligations.AssemblerSpellsLegalWords : Prop :=
  (∀ (src : Source) (w : Word), (∀ n, src ≠ .word n) → src.assemble = some w → (decode w).isSome = true) ∧
  (∀ (src : Int → Int → Source) (p v : Int), src ∈ [Source.setdir, Source.setpol, Source.setval] →
    ((src p v).assemble = none ↔ (p < -128 ∨ 255 < p) ∨ (v ≠ 0 ∧ v ≠ 1))) ∧
  (∀ (src : Int → Source) (p : Int),
    src ∈ [Source.getdir, Source.getpol, Source.getval, Source.input, Source.output, Source.invert, Source.normal,
      Source.high, Source.low] →
    ((src p).assemble = none ↔ p < -128 ∨ 255 < p)) ∧
  (Source.init.assemble ≠ none ∧ Source.getvals.assemble ≠ none) ∧
  (∀ n : Int, (Source.word n).assemble = none ↔ n < 0 ∨ 0xFFFF < n) ∧
  (∀ w : Word, (Source.word w.toNat).assemble = some w)

/-- 00_scope.md R9: for a valid pin, the register index is p / 8, which is bit 3 of its number, and the bit offset is p % 8,
which is bits 2:0; the pin is that bit of that byte of a pair, and equivalently bit p of the pair word. -/
def Obligations.PinIsBitOfPairWord : Prop :=
  ∀ p : Nat, p ≤ 15 →
    reg p = p / 8 ∧ p / 8 = ((BitVec.ofNat 8 p).extractLsb' 3 1).toNat ∧
    bit p = p % 8 ∧ p % 8 = ((BitVec.ofNat 8 p).extractLsb' 0 3).toNat ∧
    ∀ x : Pair, x.pin p = (if p / 8 = 0 then x.lo else x.hi).getLsbD (p % 8) ∧ x.pin p = (x.hi ++ x.lo).getLsbD p

/-- 30_encoding.md R78: the codes of the statuses, no status has a reserved code, and the packed response is
`STATUS << 16 | DATA`. -/
def Obligations.ResponseIsPackedWithItsStatusCode : Prop :=
  (Status.ok.code = 0 ∧ Status.invalidPin.code = 1 ∧ Status.busError.code = 2 ∧ Status.notInitialized.code = 3 ∧
    Status.illegalCommand.code = 7) ∧
  (∀ st : Status, st.code ≠ 4 ∧ st.code ≠ 5 ∧ st.code ≠ 6) ∧
  (∀ (st : Status) (d : Word), (packResponse st d).toNat = st.code.toNat * 65536 + d.toNat)

/-! ## A step and the agents -/

/-- A sequencer step in `Exec(k, w, n)` is one step of the command that w decodes to, at the state with the move taken off
the agenda and nothing else changed; and so is the step that follows the placing of a word. The placing stands for the issue
and the grant on port 0 (log 16). -/
def Obligations.StepRunsTheDecodedCommand : Prop :=
  (∀ (s : State) (e : Exec) (i : Instr), s.nextMove = .sequencer → s.phase = .exec e → decode e.word = some i →
    step s = exec i s.takeMove) ∧
  (∀ s : State, s.takeMove = { s with agenda := s.agenda.tail }) ∧
  (∀ (s : State) (w : Nat) (i : Instr), decodeTableWord 16 w = some i →
    ∃ e, (s.withFetchWord 16 w).phase = .exec e ∧ e.port = 0 ∧ e.done = 0 ∧ decode e.word = some i ∧
      step (s.withFetchWord 16 w) = exec i (s.withFetchWord 16 w).takeMove ∧
      SameRegisters s (s.withFetchWord 16 w).takeMove ∧ (s.withFetchWord 16 w).takeMove.agenda = s.agenda)

/-- 10_state.md R34, the issue: on a port in `Idle` or `Done` it makes the port `Pending` with the word and changes nothing
else of the RBC. The refusals are the model's (93_implementation_defined.md I6, log 12): a port in `Pending` or `Busy`, and a
port number from `N_PORTS` on. -/
def Obligations.IssueMakesThePortPending : Prop :=
  ∀ (s : State) (k : Nat) (w : Word), s.nextMove = .issue k w →
    (∀ p, s.ports[k]? = some p → p.mayIssue = true →
      ∃ t, step s = .next t ∧ t.ports[k]? = some (.pending w) ∧ (∀ j, j ≠ k → t.ports[j]? = s.ports[j]?) ∧
        t.lock = s.lock ∧ t.phase = s.phase ∧ SameRegisters s t ∧ SameBus s t ∧ t.params = s.params ∧ t.arb = s.arb ∧
        t.agenda = s.agenda.tail ∧ t.log = .issue k w :: s.log) ∧
    (∀ p, s.ports[k]? = some p → p.mayIssue = false → step s = .refused .portBusy) ∧
    (s.ports.length ≤ k → step s = .refused .noSuchPort)

/-- 20_memory.md R53, the grant: when the lock is free, the phase is `Idle` and a port is pending, a sequencer step takes
the lock for one pending port k and starts its command, and changes no data register and no other port. A step that records
a grant is such a step, and a command starts only by a grant. -/
def Obligations.GrantStartsOnePendingCommand : Prop :=
  (∀ s : State, s.nextMove = .sequencer → s.lock = .free → s.phase = .idle →
    (∃ (j : Nat) (v : Word), s.ports[j]? = some (.pending v)) →
    ∃ (t : State) (k : Nat) (w : Word) (sc : Scratch), step s = .next t ∧ s.ports[k]? = some (.pending w) ∧
      t.lock = .held k ∧ t.phase = .exec { port := k, word := w, done := 0, scratch := sc } ∧
      t.ports[k]? = some (.busy w) ∧ (∀ j, j ≠ k → t.ports[j]? = s.ports[j]?) ∧
      SameRegisters s t ∧ t.params = s.params ∧ t.answers = s.answers ∧ t.log = .grant k w :: s.log) ∧
  (∀ (s t : State) (k : Nat) (w : Word), step s = .next t → Event.grant k w ∈ newEvents s t →
    s.lock = .free ∧ s.phase = .idle ∧ s.ports[k]? = some (.pending w)) ∧
  (∀ (s t : State) (e : Exec), step s = .next t → s.phase = .idle → t.phase = .exec e →
    Event.grant e.port e.word ∈ newEvents s t)

/-- Every order of `ARB` is a run of the model (00_scope.md R7, 20_memory.md R60, log 8): any pending port is granted when
the next listed choice names it. -/
def Obligations.AnyPendingPortCanBeGranted : Prop :=
  ∀ (s : State) (k : Nat) (w : Word) (rest : List Nat),
    s.nextMove = .sequencer → s.lock = .free → s.phase = .idle → s.ports[k]? = some (.pending w) → s.arb = k :: rest →
    ∃ t, step s = .next t ∧ t.lock = .held k ∧ t.ports[k]? = some (.busy w) ∧ t.arb = rest

/-- 70_reset_and_hazards.md R140: reset is one step, after which `initialized = 0`, the lock is free, the phase is `Idle`,
every port is `Idle` and no cache register holds a value that a command can read; and no other step clears `initialized`.
That `LIS_OUT` shows 0 then is the model's choice (logs 1, 20), and that the parameters and the number of ports stay is
log 14. -/
def Obligations.ResetLeavesNothingInitialized : Prop :=
  (∀ s : State, s.nextMove = .reset →
    ∃ t, step s = .next t ∧ t.initialized = false ∧ t.lock = .free ∧ t.phase = .idle ∧
      t.ports.length = s.ports.length ∧ (∀ p ∈ t.ports, p = .idle) ∧ t.view = none ∧ t.lisOut = 0 ∧
      t.params = s.params) ∧
  (∀ s t : State, step s = .next t → s.initialized = true → t.initialized = false → s.nextMove = .reset)

/-- 70_reset_and_hazards.md R141: reset issues no bus transaction, so the chip sees nothing of it, and after it the RBC holds
no value of a chip register until an INIT succeeds. -/
def Obligations.ResetIssuesNoTransaction : Prop :=
  (∀ s t : State, s.nextMove = .reset → step s = .next t →
    SameBus s t ∧ newEvents s t = [.reset] ∧ t.view = none ∧ t.agenda = s.agenda.tail) ∧
  (∀ s t : State, step s = .next t → s.view = none → t.view ≠ none →
    ∃ e, s.phase = .exec e ∧ decode e.word = some .init ∧ JustReleased t e.port .ok 0)

/-! ## Checks (30_encoding.md R76) -/

/-- 30_encoding.md R76: when the sequencer starts a command, it first checks the word, then `initialized` (not for INIT),
then the pin; the first check that fails ends the command with its status and no transaction, and otherwise the step is one
step of the command. -/
def Obligations.ChecksComeInOrder : Prop :=
  ∀ (s : State) (e : Exec), s.nextMove = .sequencer → s.phase = .exec e → e.done = 0 →
    (decode e.word = none →
      ∃ t, step s = .next t ∧ Ended s.takeMove t e.port .illegalCommand 0 [] ∧ SameRegisters s t ∧ SameBus s t) ∧
    (∀ i, decode e.word = some i → i ≠ .init → s.initialized = false →
      ∃ t, step s = .next t ∧ Ended s.takeMove t e.port .notInitialized 0 [] ∧ SameRegisters s t ∧ SameBus s t) ∧
    (∀ i p, decode e.word = some i → i.pin? = some p → s.initialized = true → 15 < p →
      ∃ t, step s = .next t ∧ Ended s.takeMove t e.port .invalidPin 0 [] ∧ SameRegisters s t ∧ SameBus s t) ∧
    (∀ i, decode e.word = some i → step s = exec i s.takeMove) ∧
    (∀ i, decode e.word = some i → (i = .init ∨ s.initialized = true) → (∀ p, i.pin? = some p → p ≤ 15) →
      ∀ t k st d, exec i s.takeMove = .next t → JustReleased t k st d → st = .ok ∨ st = .busError)

/-- 60_exceptions.md R115: before the first successful INIT, every command except INIT ends with `NotInitialized`, the
commands that touch no hardware too, whatever their pin. -/
def Obligations.UninitializedCommandsEndNotInitialized : Prop :=
  ∀ (s : State) (e : Exec) (i : Instr), s.phase = .exec e → e.done = 0 → s.initialized = false → i ≠ .init →
    ∃ t, exec i s = .next t ∧ Ended s t e.port .notInitialized 0 [] ∧ SameRegisters s t ∧ SameBus s t

/-- 60_exceptions.md R116: a pin outside 0 to 15 ends each of the six pin commands with `InvalidPin`, pins 16 and -1
(`PIN = 0xFF`) among them, and INIT and GETVALS never end so. -/
def Obligations.InvalidPinIsReported : Prop :=
  (∀ (s : State) (e : Exec) (i : Instr) (p : Nat), s.phase = .exec e → e.done = 0 → s.initialized = true →
    i.pin? = some p → 15 < p →
    ∃ t, exec i s = .next t ∧ Ended s t e.port .invalidPin 0 [] ∧ SameRegisters s t ∧ SameBus s t) ∧
  (pinOperand (-1) = some 0xFF ∧ pinOperand 16 = some 0x10) ∧
  (∀ (s t : State) (k : Nat) (st : Status) (d : Word), exec .init s = .next t ∨ exec .getvals s = .next t →
    JustReleased t k st d → st ≠ .invalidPin)

/-! ## INIT (40_init.md) -/

/-- 40_init.md R90, reads one to seven: when the read at position n of the order 6, 7, 4, 5, 2, 3, 0, 1 returns `Ok`, its
byte is staged, nothing is committed, and the command goes on. -/
def Obligations.InitStagesEachRead : Prop :=
  ∀ (s : State) (e : Exec) (index : BitVec 3) (b : Byte), s.phase = .exec e → e.done < 7 → (e.done = 0 → s.InitAllowed) →
    [6, 7, 4, 5, 2, 3, 0][e.done]? = some index → s.nextReply = some (.ok b) →
    ∃ t sc, exec .init s = .next t ∧
      t.phase = .exec { port := e.port, word := e.word, done := e.done + 1, scratch := sc } ∧
      sc.staged index = b ∧ (∀ j, j ≠ index → sc.staged j = e.scratch.staged j) ∧
      GoesOn s t (.bus (.rd s.params.busId s.params.address index) (.ok b)) ∧ OneAnswer s t

/-- 40_init.md R91: when the eighth read (index 1) has returned `Ok`, one step writes the whole cache from the staging
bytes, sets `initialized`, latches `OK` with data 0 and releases the lock. The polarity is applied when
`RBC_APPLIES_POLARITY` is true, its default (log 11). -/
def Obligations.InitCommitsTheWholeCache : Prop :=
  ∀ (s : State) (e : Exec) (b : Byte), s.phase = .exec e → e.done = 7 → s.nextReply = some (.ok b) →
    ∃ t, exec .init s = .next t ∧
      Ended s t e.port .ok 0 [.bus (.rd s.params.busId s.params.address 1) (.ok b)] ∧
      t.initialized = true ∧
      t.cache.config = ⟨e.scratch.staged 6, e.scratch.staged 7⟩ ∧
      t.cache.polarity = ⟨e.scratch.staged 4, e.scratch.staged 5⟩ ∧
      t.cache.output = ⟨e.scratch.staged 2, e.scratch.staged 3⟩ ∧
      t.cache.lastInputState = compose (b ++ e.scratch.staged 0) (e.scratch.staged 7 ++ e.scratch.staged 6)
        (if s.params.appliesPolarity then e.scratch.staged 5 ++ e.scratch.staged 4 else 0)
        (e.scratch.staged 3 ++ e.scratch.staged 2) ∧
      OneAnswer s t

/-- 40_init.md R90 and R91 as one run: an INIT at its start, with no move of another agent in between and eight `Ok`
answers, is over after eight steps; it has read 6, 7, 4, 5, 2, 3, 0, 1 in that order, and the cache is seeded from the eight
bytes. It holds for a first INIT and for a second one (R93) alike. -/
def Obligations.InitRunSeedsTheCache : Prop :=
  ∀ (s : State) (e : Exec) (c0 c1 p0 p1 o0 o1 i0 i1 : Byte) (rest : List BusAnswer),
    s.phase = .exec e → e.done = 0 → decode e.word = some .init → s.agenda = [] → s.InitAllowed →
    s.answers = [.reply (.ok c0), .reply (.ok c1), .reply (.ok p0), .reply (.ok p1), .reply (.ok o0), .reply (.ok o1),
      .reply (.ok i0), .reply (.ok i1)] ++ rest →
    ∃ t, Sys2Proof.core.run 8 s = .next t ∧
      Ended s t e.port .ok 0
        (([(6, c0), (7, c1), (4, p0), (5, p1), (2, o0), (3, o1), (0, i0), (1, i1)] : List (BitVec 3 × Byte)).map
          fun x => .bus (.rd s.params.busId s.params.address x.1) (.ok x.2)) ∧
      t.initialized = true ∧ t.answers = rest ∧
      t.cache.config = ⟨c0, c1⟩ ∧ t.cache.polarity = ⟨p0, p1⟩ ∧ t.cache.output = ⟨o0, o1⟩ ∧
      t.cache.lastInputState =
        compose (i1 ++ i0) (c1 ++ c0) (if s.params.appliesPolarity then p1 ++ p0 else 0) (o1 ++ o0)

/-- 40_init.md R92: an INIT whose read returns `Err` ends with `BusError`, issues no later read, and leaves the cache and
`initialized` as they were; and no step of an INIT changes a data register unless the INIT ends with `OK`. -/
def Obligations.FailedInitCommitsNothing : Prop :=
  (∀ (s : State) (e : Exec) (index : BitVec 3), s.phase = .exec e → (e.done = 0 → s.InitAllowed) →
    [6, 7, 4, 5, 2, 3, 0, 1][e.done]? = some index → s.nextReply = some .err →
    ∃ t, exec .init s = .next t ∧
      Ended s t e.port .busError 0 [.bus (.rd s.params.busId s.params.address index) .err] ∧
      SameRegisters s t ∧ OneAnswer s t) ∧
  (∀ s t : State, exec .init s = .next t → (∀ k d, ¬ JustReleased t k .ok d) → SameRegisters s t)

/-- The parameter `REINIT = refuse` (93_implementation_defined.md I1, log 11): a second INIT is refused under it, and an
INIT before the first success is not. -/
def Obligations.SecondInitIsRefusedOnlyUnderRefuse : Prop :=
  (∀ (s : State) (e : Exec), s.phase = .exec e → e.done = 0 → s.initialized = true → s.params.reinit = .refuse →
    exec .init s = .refused .secondInit) ∧
  (∀ (s : State) (r : Refusal), exec .init s = .refused r →
    r = .secondInit ∧ s.initialized = true ∧ s.params.reinit = .refuse)

/-! ## Set commands (41_config_polarity.md R95 to R103, 42_value.md R105, R106) -/

/-- 41_config_polarity.md R95, for SETDIR, SETPOL and SETVAL on every valid pin: one write of the whole owning byte to
device index B + p / 8, the cached byte with only bit p % 8 set to v; on `Ok` the byte is committed and the command ends
with `OK`, on `Err` it ends with `BusError` and the cache keeps its value. The write is issued also when the byte does not
change (R103), and in a configuration where the pin is an input (R106). -/
def Obligations.SetCommandWritesTheOwningByte : Prop :=
  ∀ (s : State) (e : Exec) (C : PairName) (p : Nat) (v : Bool) (r : BusReply),
    s.phase = .exec e → e.done = 0 → s.initialized = true → p ≤ 15 → s.nextReply = some r →
    ∃ (t : State) (nb : Byte), exec (C.setInstr p v) s = .next t ∧
      (∀ i, i < 8 → nb.getLsbD i = if i = p % 8 then v else ((s.cache.pair C).byte (p / 8)).getLsbD i) ∧
      (match r with
        | .ok _ =>
          Ended s t e.port .ok 0
            [.bus (.wr s.params.busId s.params.address (BitVec.ofNat 3 (C.base + p / 8)) nb) r] ∧
          t.cache = s.cache.setPair ((s.cache.pair C).setByte (p / 8) nb) C ∧ t.initialized = s.initialized
        | .err =>
          Ended s t e.port .busError 0
            [.bus (.wr s.params.busId s.params.address (BitVec.ofNat 3 (C.base + p / 8)) nb) r] ∧
          SameRegisters s t) ∧
      OneAnswer s t

/-- 41_config_polarity.md R102, bit isolation: whatever a set command on pin p ends with, no other bit of its pair, no bit
of the other two pairs, no bit of `last_input_state` and not `initialized` changes; and with a status other than `OK`, bit p
does not change either. -/
def Obligations.SetCommandChangesOneBit : Prop :=
  ∀ (s t : State) (C : PairName) (p : Nat) (v : Bool), exec (C.setInstr p v) s = .next t →
    (∀ q, q ≤ 15 → q ≠ p → (t.cache.pair C).word.getLsbD q = (s.cache.pair C).word.getLsbD q) ∧
    (∀ C', C' ≠ C → t.cache.pair C' = s.cache.pair C') ∧
    t.cache.lastInputState = s.cache.lastInputState ∧ t.initialized = s.initialized ∧
    (∀ k st d, JustReleased t k st d → st ≠ .ok → t.cache = s.cache)

/-- 20_memory.md R56: a set command is idempotent on the cache. `u` is any state with the registers the first one left. -/
def Obligations.SetCommandIsIdempotentOnTheCache : Prop :=
  ∀ (s t u u' : State) (C : PairName) (p : Nat) (v : Bool) (k : Nat),
    exec (C.setInstr p v) s = .next t → JustReleased t k .ok 0 → SameRegisters t u →
    exec (C.setInstr p v) u = .next u' → SameRegisters t u'

/-- 42_value.md R106, output pass-through: after SETVAL p, v and then SETDIR p, 0 that end with `OK`, GETVAL p answers v
from the cache with no transaction, whatever the direction of p was before. `u` and `x` are any states with the registers
left by the command before. -/
def Obligations.SetValuePassesThroughToTheOutput : Prop :=
  ∀ (s t u u' x : State) (e : Exec) (p : Nat) (v : Bool) (k k' : Nat),
    exec (.setval p v) s = .next t → JustReleased t k .ok 0 → SameRegisters t u →
    exec (.setdir p false) u = .next u' → JustReleased u' k' .ok 0 → SameRegisters u' x →
    x.phase = .exec e → e.done = 0 →
    ∃ x', exec (.getval p) x = .next x' ∧ Ended x x' e.port .ok (zext16 v) [] ∧ SameRegisters x x' ∧ SameBus x x'

/-! ## Get commands (41_config_polarity.md R97 to R101, 42_value.md R107 to R112) -/

/-- 41_config_polarity.md R97 and R100: GETDIR and GETPOL answer with the cached bit of the pin, 1 for input and 1 for
inverted, with no bus transaction and no register changed. -/
def Obligations.GetDirectionAndPolarityAnswerFromTheCache : Prop :=
  ∀ (s : State) (e : Exec) (p : Nat), s.phase = .exec e → e.done = 0 → s.initialized = true → p ≤ 15 →
    (∃ t, exec (.getdir p) s = .next t ∧
      Ended s t e.port .ok (if s.cache.config.word.getLsbD p then 1 else 0) [] ∧ SameRegisters s t ∧ SameBus s t) ∧
    (∃ t, exec (.getpol p) s = .next t ∧
      Ended s t e.port .ok (if s.cache.polarity.word.getLsbD p then 1 else 0) [] ∧ SameRegisters s t ∧ SameBus s t)

/-- 41_config_polarity.md R98 and R101: a SETDIR p, v that ends with `OK` and then GETDIR p answers v, and so do SETPOL
and GETPOL. `u` is any state with the registers the set command left. -/
def Obligations.GetAnswersWhatWasSet : Prop :=
  ∀ (s t u : State) (e : Exec) (p : Nat) (v : Bool) (k : Nat), p ≤ 15 → JustReleased t k .ok 0 → SameRegisters t u →
    u.phase = .exec e → e.done = 0 →
    (exec (.setdir p v) s = .next t →
      ∃ u', exec (.getdir p) u = .next u' ∧ Ended u u' e.port .ok (if v then 1 else 0) []) ∧
    (exec (.setpol p v) s = .next t →
      ∃ u', exec (.getpol p) u = .next u' ∧ Ended u u' e.port .ok (if v then 1 else 0) [])

/-- 42_value.md R107 to R109, GETVAL on every valid pin. An input pin is read from device index p / 8: on `Ok` the level is
the raw bit xor the polarity bit (the RBC applies it by default, log 11), it is the answer, and it is written to bit p of
`last_input_state` alone; on `Err` the command ends with `BusError` and nothing is written. An output pin answers with the
cached latch, with no transaction and nothing written. -/
def Obligations.GetValueReportsTheEffectiveLevel : Prop :=
  ∀ (s : State) (e : Exec) (p : Nat), s.phase = .exec e → e.done = 0 → s.initialized = true → p ≤ 15 →
    (∀ b, s.cache.config.word.getLsbD p = true → s.nextReply = some (.ok b) →
      ∃ (t : State) (lvl : Bool), exec (.getval p) s = .next t ∧ lvl = (b.getLsbD (p % 8) ^^ s.polarityOf p) ∧
        Ended s t e.port .ok (if lvl then 1 else 0)
          [.bus (.rd s.params.busId s.params.address (BitVec.ofNat 3 (p / 8))) (.ok b)] ∧
        t.cache.config = s.cache.config ∧ t.cache.polarity = s.cache.polarity ∧ t.cache.output = s.cache.output ∧
        (∀ q, q ≤ 15 → t.cache.lastInputState.getLsbD q = if q = p then lvl else s.cache.lastInputState.getLsbD q) ∧
        t.initialized = s.initialized ∧ OneAnswer s t) ∧
    (s.cache.config.word.getLsbD p = true → s.nextReply = some .err →
      ∃ t, exec (.getval p) s = .next t ∧
        Ended s t e.port .busError 0
          [.bus (.rd s.params.busId s.params.address (BitVec.ofNat 3 (p / 8))) .err] ∧
        SameRegisters s t ∧ OneAnswer s t) ∧
    (s.cache.config.word.getLsbD p = false →
      ∃ t, exec (.getval p) s = .next t ∧
        Ended s t e.port .ok (if s.cache.output.word.getLsbD p then 1 else 0) [] ∧ SameRegisters s t ∧ SameBus s t)

/-- 42_value.md R110, GETVALS: input-low is read first, and its byte waits; then input-high is read, and the composed word
is the answer and is written to `last_input_state`. A read that fails ends the command with `BusError` and nothing
written. The polarity is applied when `RBC_APPLIES_POLARITY` is true, its default (log 11). -/
def Obligations.GetValuesComposesAllPins : Prop :=
  ∀ (s : State) (e : Exec), s.phase = .exec e → s.initialized = true →
    (∀ b, e.done = 0 → s.nextReply = some (.ok b) →
      ∃ t sc, exec .getvals s = .next t ∧
        t.phase = .exec { port := e.port, word := e.word, done := 1, scratch := sc } ∧ sc.in0 = b ∧
        GoesOn s t (.bus (.rd s.params.busId s.params.address 0) (.ok b)) ∧ OneAnswer s t) ∧
    (∀ b, e.done = 1 → s.nextReply = some (.ok b) →
      ∃ (t : State) (w : Word), exec .getvals s = .next t ∧
        w = compose (b ++ e.scratch.in0) s.cache.config.word s.polarityWord s.cache.output.word ∧
        Ended s t e.port .ok w [.bus (.rd s.params.busId s.params.address 1) (.ok b)] ∧
        t.cache = { s.cache with lastInputState := w } ∧ t.initialized = s.initialized ∧ OneAnswer s t) ∧
    (e.done ≤ 1 → s.nextReply = some .err →
      ∃ t, exec .getvals s = .next t ∧
        Ended s t e.port .busError 0
          [.bus (.rd s.params.busId s.params.address (BitVec.ofNat 3 e.done)) .err] ∧
        SameRegisters s t ∧ OneAnswer s t)

/-- 42_value.md R111, aggregate consistency: with one cache, one pair of raw input bytes and no failure, bit p of the GETVALS
answer is the GETVAL p answer, for every pin, each command run from that state. GETVALS runs its two steps, whose count is
the model's (log 2), with no other agent's move in between; and from whichever state its second step is taken, with `in0`
the first byte, the same holds. -/
def Obligations.GetValuesAgreesWithGetValue : Prop :=
  (∀ (s u : State) (e f : Exec) (raw0 raw1 : Byte) (rest : List BusAnswer) (p : Nat), p ≤ 15 →
    s.initialized = true → SameRegisters s u → u.params = s.params →
    s.phase = .exec e → e.done = 0 → decode e.word = some .getvals → s.agenda = [] →
    s.answers = .reply (.ok raw0) :: .reply (.ok raw1) :: rest →
    u.phase = .exec f → f.done = 0 → u.nextReply = some (.ok (if p < 8 then raw0 else raw1)) →
    ∃ (t u' : State) (w : Word), Sys2Proof.core.run 2 s = .next t ∧ JustReleased t e.port .ok w ∧
      exec (.getval p) u = .next u' ∧ JustReleased u' f.port .ok (if w.getLsbD p then 1 else 0)) ∧
  (∀ (s u : State) (e f : Exec) (raw0 raw1 : Byte) (p : Nat), p ≤ 15 →
    s.initialized = true → SameRegisters s u → u.params = s.params →
    s.phase = .exec e → e.done = 1 → e.scratch.in0 = raw0 → s.nextReply = some (.ok raw1) →
    u.phase = .exec f → f.done = 0 → u.nextReply = some (.ok (if p < 8 then raw0 else raw1)) →
    ∃ (t u' : State) (w : Word), exec .getvals s = .next t ∧ JustReleased t e.port .ok w ∧
      exec (.getval p) u = .next u' ∧ JustReleased u' f.port .ok (if w.getLsbD p then 1 else 0))

/-- 42_value.md R112 and 93_implementation_defined.md I3: the polarity bits and the raw input bits of output pins have no
effect on GETVALS. The two states may differ in them and agree in the rest that GETVALS reads. -/
def Obligations.OutputPinsIgnorePolarityAndRawInput : Prop :=
  ∀ (s u : State) (e f : Exec) (b c : Byte), s.initialized = true → u.initialized = true → s.params = u.params →
    s.phase = .exec e → e.done = 1 → s.nextReply = some (.ok b) →
    u.phase = .exec f → f.done = 1 → u.nextReply = some (.ok c) →
    s.cache.config = u.cache.config → s.cache.output = u.cache.output →
    (∀ q, q ≤ 15 → s.cache.config.word.getLsbD q = true →
      s.cache.polarity.word.getLsbD q = u.cache.polarity.word.getLsbD q ∧
      (b ++ e.scratch.in0).getLsbD q = (c ++ f.scratch.in0).getLsbD q) →
    ∃ (t x : State) (w : Word), exec .getvals s = .next t ∧ exec .getvals u = .next x ∧
      JustReleased t e.port .ok w ∧ JustReleased x f.port .ok w ∧ t.lisOut = w ∧ x.lisOut = w

/-! ## Whole-machine rules -/

/-- 20_memory.md R54: a step of a command either completes one more transaction, holding the lock, or ends the command,
latching a response and releasing the lock, on the error paths too; or, when the bus never answers, it waits, holding the
lock (93_implementation_defined.md I7, log 6). That the last transaction and the release are one step is the model's reading
(log 2). -/
def Obligations.CommandStepGoesOnOrEnds : Prop :=
  ∀ (i : Instr) (s t : State) (e : Exec), s.phase = .exec e → exec i s = .next t →
    (∃ req r sc, GoesOn s t (.bus req r) ∧ OneAnswer s t ∧
      t.phase = .exec { port := e.port, word := e.word, done := e.done + 1, scratch := sc }) ∨
    (∃ st d, Ended s t e.port st d [] ∧ SameBus s t) ∨
    (∃ st d req r, Ended s t e.port st d [.bus req r] ∧ OneAnswer s t) ∨
    (∃ req, s.nextReply = none ∧ GoesOn s t (.hang req) ∧ OneAnswer s t ∧ t.phase = .stuck (e.sending req) req)

/-- 00_scope.md R13: a command is all or nothing. A step that changes a data register is one that ends a command with
`OK`, or a reset; and a command that ends with any other status has data 0 and leaves every data register as it was. -/
def Obligations.CommandsAreAllOrNothing : Prop :=
  ∀ s t : State, step s = .next t →
    (s.nextMove ≠ .reset → ¬ SameRegisters s t → ∃ k d, JustReleased t k .ok d) ∧
    (∀ e k st d, s.nextMove = .sequencer → s.phase = .exec e → JustReleased t k st d → st ≠ .ok →
      d = 0 ∧ SameRegisters s t ∧ t.lock = .free ∧ t.phase = .idle)

/-- 10_state.md R22: only an INIT that ends with `OK` sets `initialized`, and no command clears it. -/
def Obligations.OnlyInitSetsInitialized : Prop :=
  (∀ s t : State, step s = .next t → s.initialized = false → t.initialized = true →
    ∃ e, s.nextMove = .sequencer ∧ s.phase = .exec e ∧ decode e.word = some .init ∧ JustReleased t e.port .ok 0) ∧
  (∀ (i : Instr) (s t : State), exec i s = .next t → s.initialized = true → t.initialized = true) ∧
  (∀ s t : State, step s = .next t → s.initialized = true → t.initialized = false → s.nextMove = .reset)

/-- 10_state.md R30: no step changes the construction parameters or the number of ports, and every bus request of a step
carries `BUS_ID` and `ADDRESS`. That a reset keeps the parameters and the number of ports is log 14. -/
def Obligations.ParametersAreFixedAndSent : Prop :=
  ∀ s t : State, step s = .next t →
    t.params = s.params ∧ t.ports.length = s.ports.length ∧
    (∀ req ∈ (newEvents s t).filterMap Event.request?,
      (∃ index, req = .rd s.params.busId s.params.address index) ∨
      (∃ index b, req = .wr s.params.busId s.params.address index b))

/-- 60_exceptions.md R120: `LIS_OUT` changes only in the release step of a command, or when the RBC is constructed anew. -/
def Obligations.LisOutChangesOnlyAtRelease : Prop :=
  ∀ s t : State, step s = .next t → t.lisOut ≠ s.lisOut → s.nextMove ≠ .reset → ∃ k d, JustReleased t k .ok d

/-- 30_encoding.md R79: the data of a response is 0 with every status but `OK`; with `OK` it is one bit for GETDIR, GETPOL
and GETVAL, the new `last_input_state` for GETVALS, and 0 for INIT and the set commands. -/
def Obligations.ResponseDataHasItsShape : Prop :=
  ∀ (i : Instr) (s t : State) (e : Exec) (k : Nat) (st : Status) (d : Word),
    s.phase = .exec e → exec i s = .next t → JustReleased t k st d →
    (st ≠ .ok → d = 0) ∧
    (st = .ok → match i with
      | .init => d = 0
      | .setdir _ _ => d = 0
      | .setpol _ _ => d = 0
      | .setval _ _ => d = 0
      | .getdir _ => d = 0 ∨ d = 1
      | .getpol _ => d = 0 ∨ d = 1
      | .getval _ => d = 0 ∨ d = 1
      | .getvals => d = t.cache.lastInputState)

/-- 20_memory.md R67: device indices 2 to 7 are read only in a step of an INIT. -/
def Obligations.OnlyInitReadsTheCachedRegisters : Prop :=
  ∀ (s t : State) (busId : BusId) (address : BitVec 7) (index : BitVec 3), step s = .next t →
    BusRequest.rd busId address index ∈ (newEvents s t).filterMap Event.request? → 2 ≤ index.toNat →
    ∃ e, s.phase = .exec e ∧ decode e.word = some .init

/-- 20_memory.md R68: a step issues exactly the request that the table of transactions gives for the command in execution
and the number of transactions completed, and none otherwise; it takes the next bus answer, and records the request with what
it returned, or as one that never returns (log 6). -/
def Obligations.StepIssuesTheListedRequest : Prop :=
  ∀ s t : State, step s = .next t →
    (newEvents s t).filterMap Event.request? = s.nextRequest.toList ∧
    (∀ req, s.nextRequest = some req →
      OneAnswer s t ∧ (∀ r, s.nextReply = some r → Event.bus req r ∈ newEvents s t) ∧
      (s.nextReply = none → Event.hang req ∈ newEvents s t)) ∧
    (s.nextRequest = none → t.answers = s.answers)

/-- 20_memory.md R55: while a command is in execution, also at a bus that never answers, the next step either leaves the same
command of the same port in execution, or ends it, or constructs the RBC anew; no step grants another command meanwhile. -/
def Obligations.CommandsDoNotInterleave : Prop :=
  ∀ (s t : State) (e : Exec), s.Inv → s.phase.exec? = some e → step s = .next t → s.nextMove ≠ .reset →
    (∀ k w, Event.grant k w ∉ newEvents s t) ∧
    ((t.phase = .idle ∧ t.lock = .free ∧ ∃ st d, JustReleased t e.port st d) ∨
      (∃ f, t.phase.exec? = some f ∧ f.port = e.port ∧ f.word = e.word ∧ t.lock = .held e.port ∧ SameRegisters s t))

/-- Where a command's meaning stops: outside `Exec` and past its last transaction (log 17); and where a cache register is read
before its first write (60_exceptions.md R127, log 7), which is at one place only: a GETVALS whose second read has returned
`Ok` while no INIT has succeeded. -/
def Obligations.MeaningsStopWhereTheSpecHasNoStep : Prop :=
  (∀ (i : Instr) (s : State), (∀ e, s.phase ≠ .exec e) → exec i s = .fault .offPhase) ∧
  (∀ (i : Instr) (s : State) (e : Exec), s.phase = .exec e →
    (match i with
      | .init => 8
      | .getvals => 2
      | _ => 1) ≤ e.done → exec i s = .fault .offPhase) ∧
  (∀ (i : Instr) (s : State), exec i s = .fault .cacheReadBeforeWrite ↔
    i = .getvals ∧ s.initialized = false ∧ (∃ e, s.phase = .exec e ∧ e.done = 1) ∧ ∃ b, s.nextReply = some (.ok b))

/-- 93_implementation_defined.md I7 and 60_exceptions.md R127, a bus that never answers: the step that issues the request
leaves the command in execution with the lock held, no register changed and a write's byte in the scratch register `nb`
(10_state.md R33); from then on the sequencer's moves change nothing, and no step but a reset ends the wait or serves a
pending port. The other agents go on: a port in `Idle` or `Done` takes an issue, and a reset constructs the RBC anew. The
form of the wait is log 6. -/
def Obligations.UnansweredTransactionLeavesTheSequencerStuck : Prop :=
  (∀ (s : State) (req : BusRequest), s.nextRequest = some req → s.nextReply = none →
    ∃ (t : State) (e : Exec), step s = .next t ∧ s.phase = .exec e ∧ t.phase = .stuck (e.sending req) req ∧
      GoesOn s.takeMove t (.hang req) ∧ OneAnswer s t) ∧
  (∀ (s : State) (e : Exec) (req : BusRequest), s.nextMove = .sequencer → s.phase = .stuck e req →
    step s = .next s.takeMove) ∧
  (∀ (s t : State) (e : Exec) (req : BusRequest), s.phase = .stuck e req → step s = .next t → s.nextMove ≠ .reset →
    t.phase = .stuck e req ∧ t.lock = s.lock ∧ SameRegisters s t ∧ SameBus s t ∧
      ∀ (k : Nat) (p : Port), s.ports[k]? = some p → p.mayIssue = false → t.ports[k]? = some p) ∧
  (∀ (s : State) (e : Exec) (req : BusRequest) (k : Nat) (w : Word) (p : Port), s.phase = .stuck e req →
    s.nextMove = .issue k w → s.ports[k]? = some p → p.mayIssue = true →
    ∃ t, step s = .next t ∧ t.ports[k]? = some (.pending w) ∧ t.phase = .stuck e req) ∧
  (∀ (s : State) (e : Exec) (req : BusRequest), s.phase = .stuck e req → s.nextMove = .reset →
    ∃ t, step s = .next t ∧ t.phase = .idle ∧ t.lock = .free)

/-! ## Invariants and headline results -/

/-- A newly constructed RBC is well-formed, for all parameters with a bus identifier of at least one bit and any number of
ports from 1 on; and so is the reset state. -/
def Obligations.ConstructedStateIsWellFormed : Prop :=
  (∀ (params : Params) (n : Nat), 0 < params.busId.width → 0 < n → (State.constructed params n).Inv) ∧ State.reset.Inv

/-- Every step keeps the bookkeeping of ports, lock and phase: the lock is held exactly by the port whose command is in
execution, that port and no other is `Busy`, and a command stays within its transactions (10_state.md R31 to R33). -/
def Obligations.StepKeepsWellFormedStates : Prop :=
  ∀ s t : State, s.Inv → step s = .next t → t.Inv

/-- From a well-formed state no step faults, whatever the bus does (93_implementation_defined.md I8): every cache read comes
after the first write. A refusal comes only from an issue outside the contract (I6), or from a second INIT under
`REINIT = refuse` (I1). -/
def Obligations.WellFormedStateDoesNotFault : Prop :=
  ∀ s : State, s.Inv →
    (∀ f, step s ≠ .fault f) ∧
    (∀ r, step s = .refused r →
      (∃ k w, s.nextMove = .issue k w ∧ ∀ p, s.ports[k]? = some p → p.mayIssue = false) ∨
      (r = .secondInit ∧ s.initialized = true ∧ s.params.reinit = .refuse))

/-- 20_memory.md R63: a granted command ends after at most eight sequencer steps, each of which takes at most one bus
answer, given finite bus response. -/
def Obligations.GrantedCommandEndsWithinEightSteps : Prop :=
  ∀ (s : State) (e : Exec), s.Inv → s.FiniteResponse → s.agenda = [] → s.params.reinit = .reseed → s.phase = .exec e →
    ∃ n t, n ≤ 8 ∧ Sys2Proof.core.run n s = .next t ∧ t.phase = .idle ∧ t.lock = .free ∧
      ∃ st d, t.ports[e.port]? = some (.done st d) ∧ JustReleased t e.port st d

/-- No port is starved (20_memory.md R63, 60_exceptions.md R118): with no further moves of the requesters, and whatever
order the arbitration takes, every command that is pending or in execution is done after at most nine steps for each port
and eight for the command in execution. -/
def Obligations.EveryPendingCommandCompletes : Prop :=
  ∀ s : State, s.Inv → s.FiniteResponse → s.agenda = [] → s.params.reinit = .reseed →
    ∃ t, Sys2Proof.core.run (9 * s.ports.length + 8) s = .next t ∧ t.phase = .idle ∧ t.lock = .free ∧
      ∀ (k : Nat) (p : Port), s.ports[k]? = some p →
        (p.mayIssue = true → t.ports[k]? = some p) ∧ (p.mayIssue = false → ∃ st d, t.ports[k]? = some (Port.done st d))

/-- A run that starts at construction agrees with the serial machine at its start. -/
def Obligations.ConstructedStateIsLinear : Prop :=
  ∀ (params : Params) (n : Nat) (agenda : List Move) (arb : List Nat) (answers : List BusAnswer),
    State.Linear { State.constructed params n with agenda := agenda, arb := arb, answers := answers }

/-- 20_memory.md R59, linearizability: if the run so far agrees with the serial machine, which runs whole commands one
after another in the order of their grants, each against the bus answers it got, then so does every next step: its request,
its response, and the cache it leaves. -/
def Obligations.StepKeepsRunLinear : Prop :=
  ∀ s t : State, s.Linear → step s = .next t → t.Linear

/-- A newly constructed RBC on the mock bus is coherent with it, whatever the cells hold. -/
def Obligations.ConstructedMockIsCoherent : Prop :=
  ∀ (params : Params) (n : Nat) (agenda : List Move) (arb : List Nat) (dev : Vector Byte 8) (fail : List Nat),
    Mock.Coherent { rbc := { State.constructed params n with agenda := agenda, arb := arb }, dev := dev, fail := fail, count := 0 }

/-- 10_state.md R29, cache coherence, on the mock bus of 20_memory.md R58: with no other writer of the device, every step
keeps each cache byte equal to its device register, whichever transactions fail. -/
def Obligations.MockStepKeepsCoherence : Prop :=
  ∀ m m' : Mock, m.Coherent → m.step = .next m' → m'.Coherent
end

