-- ==== Sys2Proof/Laws/Bits.lean ====
section
/-! SUPPORT. Bits, pairs and pins. -/

namespace Sys2Proof.Machine

/-- A bit of `setBitTo x i v`: v at position i, the bit of x elsewhere. -/
theorem getLsbD_setBitTo {n : Nat} (x : BitVec n) (i : Nat) (v : Bool) (j : Nat) (hj : j < n) :
    (setBitTo x i v).getLsbD j = if j = i then v else x.getLsbD j := by
  by_cases hji : j = i
  · subst hji
    cases v <;> simp [setBitTo, hj]
  · by_cases hlt : j < i
    · cases v <;> simp [setBitTo, hj, hlt, hji]
    · have : ¬ (j - i = 0) := by omega
      cases v <;> simp [setBitTo, hj, hlt, hji, this]

/-- The same bit, in the form that simp gives a bit within bounds. -/
@[simp] theorem getElem_setBitTo {n : Nat} (x : BitVec n) (i : Nat) (v : Bool) (j : Nat) (hj : j < n) :
    (setBitTo x i v)[j] = if j = i then v else x[j] := by
  simpa [BitVec.getLsbD_eq_getElem hj] using getLsbD_setBitTo x i v j hj

/-- The bit of the one-bit answer. -/
theorem zext16_eq (b : Bool) : zext16 b = if b then 1 else 0 := by cases b <;> rfl

/-- A bit of a pair word below 8 is a bit of byte 0, and from 8 on of byte 1. -/
theorem getLsbD_word (x : Pair) (q : Nat) :
    x.word.getLsbD q = if q < 8 then x.lo.getLsbD q else x.hi.getLsbD (q - 8) := by
  simp only [Pair.word, BitVec.getLsbD_append]

/-- The pin's bit of a pair is the pin's bit of the pair word. -/
theorem pin_eq_getLsbD_word (x : Pair) (p : Nat) (hp : p ≤ 15) : x.pin p = x.word.getLsbD p := by
  rw [getLsbD_word]
  by_cases h : p < 8
  · have h1 : p / 8 = 0 := by omega
    have h2 : p % 8 = p := by omega
    simp [Pair.pin, Pair.byte, reg, bit, h, h1, h2]
  · have h1 : ¬ (p / 8 = 0) := by omega
    have h2 : p % 8 = p - 8 := by omega
    simp [Pair.pin, Pair.byte, reg, bit, h, h1, h2]

/-- Two bytes are equal when their eight bits are. -/
theorem byte_ext {x y : Byte} (h : ∀ i, i < 8 → x.getLsbD i = y.getLsbD i) : x = y :=
  BitVec.eq_of_getLsbD_eq fun i hi => h i hi

/-- Two pairs are equal when the bits of their pair words are. -/
theorem Pair.ext_word {x y : Pair} (h : ∀ q, q ≤ 15 → x.word.getLsbD q = y.word.getLsbD q) : x = y := by
  have hl : x.lo = y.lo := byte_ext fun i hi => by
    have := h i (by omega); simpa [getLsbD_word, hi] using this
  have hh : x.hi = y.hi := byte_ext fun i hi => by
    have := h (i + 8) (by omega); simpa [getLsbD_word] using this
  cases x; cases y; simp_all

@[simp] theorem byte_setByte_same (x : Pair) (b : Nat) (v : Byte) : (x.setByte b v).byte b = v := by
  by_cases h : b = 0 <;> simp [Pair.byte, Pair.setByte, h]

/-- The pair of a set command after its commit, bit by bit: only pin p's bit is set (41_config_polarity.md R95). -/
theorem getLsbD_word_setByte (x : Pair) (p : Nat) (v : Bool) (hp : p ≤ 15) (q : Nat) (hq : q ≤ 15) :
    (x.setByte (reg p) (setBitTo (x.byte (reg p)) (bit p) v)).word.getLsbD q =
      if q = p then v else x.word.getLsbD q := by
  rw [getLsbD_word, getLsbD_word]
  by_cases hp8 : p < 8
  · have h1 : p / 8 = 0 := by omega
    have h2 : p % 8 = p := by omega
    by_cases hq8 : q < 8
    · simp [Pair.setByte, Pair.byte, reg, bit, h1, h2, hq8]
    · have : q ≠ p := by omega
      simp [Pair.setByte, reg, h1, hq8, this]
  · have h1 : ¬ (p / 8 = 0) := by omega
    have h2 : p % 8 = p - 8 := by omega
    by_cases hq8 : q < 8
    · have : q ≠ p := by omega
      simp [Pair.setByte, reg, h1, hq8, this]
    · have hlt : q - 8 < 8 := by omega
      have : (q - 8 = p - 8) ↔ q = p := by omega
      simp [Pair.setByte, Pair.byte, reg, bit, h1, h2, hq8, hlt, this]

@[simp] theorem pair_setPair_same (c : Cache) (C : PairName) (x : Pair) : (c.setPair x C).pair C = x := by
  cases C <;> rfl

theorem pair_setPair_other (c : Cache) {C C' : PairName} (x : Pair) (h : C' ≠ C) :
    (c.setPair x C).pair C' = c.pair C' := by
  cases C <;> cases C' <;> first | rfl | exact absurd rfl h

@[simp] theorem lastInputState_setPair (c : Cache) (C : PairName) (x : Pair) :
    (c.setPair x C).lastInputState = c.lastInputState := by
  cases C <;> rfl

/-- A staging byte after one is written. -/
theorem staged_stage (sc : Scratch) (i j : BitVec 3) (b : Byte) :
    (sc.stage i b).staged j = if j = i then b else sc.staged j := by
  by_cases h : j = i
  · subst h; simp [Scratch.stage, Scratch.staged]
  · have : i.toNat ≠ j.toNat := fun e => h (BitVec.eq_of_toNat_eq e.symm)
    simp [Scratch.stage, Scratch.staged, h, Vector.getElem_set_ne, this]

/-- A bit of the effective-level word: the corrected raw bit of an input pin, the latch of an output pin (00_scope.md R11). -/
theorem getLsbD_compose (raw cfg pol out : Word) (q : Nat) (hq : q ≤ 15) :
    (compose raw cfg pol out).getLsbD q =
      if cfg.getLsbD q then (raw.getLsbD q ^^ pol.getLsbD q) else out.getLsbD q := by
  have h16 : q < 16 := by omega
  simp only [compose, BitVec.getLsbD_or, BitVec.getLsbD_and, BitVec.getLsbD_xor, BitVec.getLsbD_not, h16]
  cases cfg.getLsbD q <;> simp

/-- The effective levels, in the words of the statements. -/
theorem levels_eq (s : State) (w : Word) :
    s.cache.levels s.params w = compose w s.cache.config.word s.polarityWord s.cache.output.word := by
  simp only [Cache.levels, State.polarityWord, Params.appliedPolarity]
  cases s.params.appliesPolarity
  · simp [Pair.word]
  · rfl

/-- The level of an input pin, in the words of the statements. -/
theorem inputLevel_eq (s : State) (p : Nat) (b : Byte) :
    s.cache.inputLevel s.params p b = (b.getLsbD (p % 8) ^^ s.polarityOf p) := by
  have : p % 8 < 8 := by omega
  simp only [Cache.inputLevel, State.polarityOf, Params.appliedPolarity, bit, Pair.pin]
  cases s.params.appliesPolarity <;> simp [Pair.byte, this]

/-- The cache an INIT commits: its level word (40_init.md R91). -/
theorem seeded_lastInputState (sc : Scratch) (p : Params) :
    (sc.seeded p).lastInputState =
      compose (sc.staged 1 ++ sc.staged 0) (sc.staged 7 ++ sc.staged 6)
        (if p.appliesPolarity then sc.staged 5 ++ sc.staged 4 else 0) (sc.staged 3 ++ sc.staged 2) := by
  simp only [Scratch.seeded, Cache.levels, Params.appliedPolarity, Pair.word]
  cases p.appliesPolarity
  · simp
  · rfl

/-! ## The serial machine's words and the machine's bytes -/

@[simp] theorem extractLsb'_word_lo (x : Pair) : x.word.extractLsb' 0 8 = x.lo := by
  apply BitVec.eq_of_getLsbD_eq
  intro i hi
  simp only [BitVec.getLsbD_extractLsb', Pair.word, BitVec.getLsbD_append, hi]
  simp [hi]

@[simp] theorem extractLsb'_word_hi (x : Pair) : x.word.extractLsb' 8 8 = x.hi := by
  apply BitVec.eq_of_getLsbD_eq
  intro i hi
  simp only [BitVec.getLsbD_extractLsb', Pair.word, BitVec.getLsbD_append, hi]
  simp

/-- The word of a pair with one pin set is the pair word with one bit set. -/
theorem word_setPin (x : Pair) (p : Nat) (v : Bool) : (Reference.setPin x p v).word = setBitTo x.word p v := by
  simp only [Reference.setPin, Pair.word]
  apply BitVec.eq_of_getLsbD_eq
  intro i hi
  rw [BitVec.getLsbD_append]
  by_cases h : i < 8
  · simp [h]
  · have h2 : i - 8 < 8 := by omega
    have h3 : 8 + (i - 8) = i := by omega
    simp [h, h2, h3]

/-- Setting a bit of the pair word is setting a bit of the owning byte. -/
theorem setPin_eq (x : Pair) (p : Nat) (v : Bool) (hp : p ≤ 15) :
    Reference.setPin x p v = x.setByte (reg p) (setBitTo (x.byte (reg p)) (bit p) v) := by
  apply Pair.ext_word
  intro q hq
  rw [word_setPin, getLsbD_word_setByte x p v hp q hq, getLsbD_setBitTo _ _ _ _ (by omega)]

theorem byteOf_word (x : Pair) (p : Nat) (hp : p ≤ 15) : Reference.byteOf x.word p = x.byte (reg p) := by
  simp only [Reference.byteOf, Pair.byte, reg, extractLsb'_word_lo, extractLsb'_word_hi]
  by_cases h : p < 8
  · have : p / 8 = 0 := by omega
    simp [h, this]
  · have : ¬ p / 8 = 0 := by omega
    simp [h, this]

/-- The serial machine's request of a set command is the machine's. -/
theorem setRequest_eq (params : Params) (C : PairName) (c : Cache) (p : Nat) (v : Bool) (hp : p ≤ 15) :
    Reference.setRequest params C.base (c.pair C) p v =
      params.write (deviceIndex C.base p) (c.newByte C p v) := by
  simp only [Reference.setRequest, Params.write, Cache.newByte]
  rw [← word_setPin, setPin_eq _ _ _ hp, byteOf_word _ _ hp, byte_setByte_same]
  have : BitVec.ofNat 3 (if p < 8 then C.base else C.base + 1) = deviceIndex C.base p := by
    simp only [deviceIndex, reg]
    by_cases h : p < 8
    · have : p / 8 = 0 := by omega
      simp [h, this]
    · have : p / 8 = 1 := by omega
      rw [if_neg h, this]
  rw [this]

end Sys2Proof.Machine
end

