-- ==== Sys2Proof/Laws/State.lean ====
section
/-! SUPPORT. What each update of the state leaves in each field. -/

namespace Sys2Proof.Machine.State

/-! ## `lisOut` -/

/-- `LIS_OUT` changes with the cache registers only. -/
theorem lisOut_congr {s t : State} (h : t.cache = s.cache) : t.lisOut = s.lisOut := by rw [lisOut, lisOut, h]

@[simp] theorem lisOut_constructed (params : Params) (n : Nat) : (State.constructed params n).lisOut = 0 := rfl

/-! ## `release` -/

@[simp] theorem release_params (s : State) (k : Nat) (st : Status) (d : Word) :
    (s.release k st d).params = s.params := rfl
@[simp] theorem release_initialized (s : State) (k : Nat) (st : Status) (d : Word) :
    (s.release k st d).initialized = s.initialized := rfl
@[simp] theorem release_cache (s : State) (k : Nat) (st : Status) (d : Word) : (s.release k st d).cache = s.cache := rfl
@[simp] theorem release_lock (s : State) (k : Nat) (st : Status) (d : Word) : (s.release k st d).lock = .free := rfl
@[simp] theorem release_phase (s : State) (k : Nat) (st : Status) (d : Word) : (s.release k st d).phase = .idle := rfl
@[simp] theorem release_ports (s : State) (k : Nat) (st : Status) (d : Word) :
    (s.release k st d).ports = s.ports.set k (.done st d) := rfl
@[simp] theorem release_agenda (s : State) (k : Nat) (st : Status) (d : Word) :
    (s.release k st d).agenda = s.agenda := rfl
@[simp] theorem release_arb (s : State) (k : Nat) (st : Status) (d : Word) : (s.release k st d).arb = s.arb := rfl
@[simp] theorem release_answers (s : State) (k : Nat) (st : Status) (d : Word) :
    (s.release k st d).answers = s.answers := rfl
@[simp] theorem release_draws (s : State) (k : Nat) (st : Status) (d : Word) : (s.release k st d).draws = s.draws := rfl
@[simp] theorem release_log (s : State) (k : Nat) (st : Status) (d : Word) :
    (s.release k st d).log = .release k st d :: s.log := rfl

/-! ## `respond` -/

@[simp] theorem respond_params (s : State) (e : Exec) (d : Word) : (s.respond e d).params = s.params := rfl
@[simp] theorem respond_initialized (s : State) (e : Exec) (d : Word) :
    (s.respond e d).initialized = s.initialized := rfl
@[simp] theorem respond_cache (s : State) (e : Exec) (d : Word) : (s.respond e d).cache = s.cache := rfl
@[simp] theorem respond_lock (s : State) (e : Exec) (d : Word) : (s.respond e d).lock = .free := rfl
@[simp] theorem respond_phase (s : State) (e : Exec) (d : Word) : (s.respond e d).phase = .idle := rfl
@[simp] theorem respond_ports (s : State) (e : Exec) (d : Word) :
    (s.respond e d).ports = s.ports.set e.port (.done .ok d) := rfl
@[simp] theorem respond_agenda (s : State) (e : Exec) (d : Word) : (s.respond e d).agenda = s.agenda := rfl
@[simp] theorem respond_arb (s : State) (e : Exec) (d : Word) : (s.respond e d).arb = s.arb := rfl
@[simp] theorem respond_answers (s : State) (e : Exec) (d : Word) : (s.respond e d).answers = s.answers := rfl
@[simp] theorem respond_draws (s : State) (e : Exec) (d : Word) : (s.respond e d).draws = s.draws := rfl
@[simp] theorem respond_log (s : State) (e : Exec) (d : Word) :
    (s.respond e d).log = .release e.port .ok d :: s.log := rfl

/-! ## `raise` -/

@[simp] theorem raise_params (s : State) (e : Exec) (st : Status) : (s.raise e st).params = s.params := rfl
@[simp] theorem raise_initialized (s : State) (e : Exec) (st : Status) :
    (s.raise e st).initialized = s.initialized := rfl
@[simp] theorem raise_cache (s : State) (e : Exec) (st : Status) : (s.raise e st).cache = s.cache := rfl
@[simp] theorem raise_lock (s : State) (e : Exec) (st : Status) : (s.raise e st).lock = .free := rfl
@[simp] theorem raise_phase (s : State) (e : Exec) (st : Status) : (s.raise e st).phase = .idle := rfl
@[simp] theorem raise_ports (s : State) (e : Exec) (st : Status) :
    (s.raise e st).ports = s.ports.set e.port (.done st 0) := rfl
@[simp] theorem raise_agenda (s : State) (e : Exec) (st : Status) : (s.raise e st).agenda = s.agenda := rfl
@[simp] theorem raise_arb (s : State) (e : Exec) (st : Status) : (s.raise e st).arb = s.arb := rfl
@[simp] theorem raise_answers (s : State) (e : Exec) (st : Status) : (s.raise e st).answers = s.answers := rfl
@[simp] theorem raise_draws (s : State) (e : Exec) (st : Status) : (s.raise e st).draws = s.draws := rfl
@[simp] theorem raise_log (s : State) (e : Exec) (st : Status) :
    (s.raise e st).log = .release e.port st 0 :: s.log := rfl

/-! ## `advance` -/

@[simp] theorem advance_params (s : State) (e : Exec) (sc : Scratch) : (s.advance e sc).params = s.params := rfl
@[simp] theorem advance_initialized (s : State) (e : Exec) (sc : Scratch) :
    (s.advance e sc).initialized = s.initialized := rfl
@[simp] theorem advance_cache (s : State) (e : Exec) (sc : Scratch) : (s.advance e sc).cache = s.cache := rfl
@[simp] theorem advance_lock (s : State) (e : Exec) (sc : Scratch) : (s.advance e sc).lock = s.lock := rfl
@[simp] theorem advance_phase (s : State) (e : Exec) (sc : Scratch) :
    (s.advance e sc).phase = .exec { e with done := e.done + 1, scratch := sc } := rfl
@[simp] theorem advance_ports (s : State) (e : Exec) (sc : Scratch) : (s.advance e sc).ports = s.ports := rfl
@[simp] theorem advance_agenda (s : State) (e : Exec) (sc : Scratch) : (s.advance e sc).agenda = s.agenda := rfl
@[simp] theorem advance_arb (s : State) (e : Exec) (sc : Scratch) : (s.advance e sc).arb = s.arb := rfl
@[simp] theorem advance_answers (s : State) (e : Exec) (sc : Scratch) : (s.advance e sc).answers = s.answers := rfl
@[simp] theorem advance_draws (s : State) (e : Exec) (sc : Scratch) : (s.advance e sc).draws = s.draws := rfl
@[simp] theorem advance_log (s : State) (e : Exec) (sc : Scratch) : (s.advance e sc).log = s.log := rfl

/-! ## `hang` -/

@[simp] theorem hang_params (s : State) (e : Exec) (req : BusRequest) : (s.hang e req).params = s.params := rfl
@[simp] theorem hang_initialized (s : State) (e : Exec) (req : BusRequest) : (s.hang e req).initialized = s.initialized := rfl
@[simp] theorem hang_cache (s : State) (e : Exec) (req : BusRequest) : (s.hang e req).cache = s.cache := rfl
@[simp] theorem hang_lock (s : State) (e : Exec) (req : BusRequest) : (s.hang e req).lock = s.lock := rfl
@[simp] theorem hang_phase (s : State) (e : Exec) (req : BusRequest) : (s.hang e req).phase = .stuck e req := rfl
@[simp] theorem hang_ports (s : State) (e : Exec) (req : BusRequest) : (s.hang e req).ports = s.ports := rfl
@[simp] theorem hang_agenda (s : State) (e : Exec) (req : BusRequest) : (s.hang e req).agenda = s.agenda := rfl
@[simp] theorem hang_arb (s : State) (e : Exec) (req : BusRequest) : (s.hang e req).arb = s.arb := rfl
@[simp] theorem hang_answers (s : State) (e : Exec) (req : BusRequest) : (s.hang e req).answers = s.answers.tail := rfl
@[simp] theorem hang_draws (s : State) (e : Exec) (req : BusRequest) : (s.hang e req).draws = s.draws := rfl
@[simp] theorem hang_log (s : State) (e : Exec) (req : BusRequest) : (s.hang e req).log = .hang req :: s.log := rfl

/-! ## `setCache` -/

@[simp] theorem setCache_params (s : State) (c : Cache) : (s.setCache c).params = s.params := rfl
@[simp] theorem setCache_initialized (s : State) (c : Cache) : (s.setCache c).initialized = s.initialized := rfl
@[simp] theorem setCache_cache (s : State) (c : Cache) : (s.setCache c).cache = c := rfl
@[simp] theorem setCache_lock (s : State) (c : Cache) : (s.setCache c).lock = s.lock := rfl
@[simp] theorem setCache_phase (s : State) (c : Cache) : (s.setCache c).phase = s.phase := rfl
@[simp] theorem setCache_ports (s : State) (c : Cache) : (s.setCache c).ports = s.ports := rfl
@[simp] theorem setCache_agenda (s : State) (c : Cache) : (s.setCache c).agenda = s.agenda := rfl
@[simp] theorem setCache_arb (s : State) (c : Cache) : (s.setCache c).arb = s.arb := rfl
@[simp] theorem setCache_answers (s : State) (c : Cache) : (s.setCache c).answers = s.answers := rfl
@[simp] theorem setCache_draws (s : State) (c : Cache) : (s.setCache c).draws = s.draws := rfl
@[simp] theorem setCache_log (s : State) (c : Cache) : (s.setCache c).log = s.log := rfl

/-! ## `commitInit` -/

@[simp] theorem commitInit_params (s : State) (sc : Scratch) : (s.commitInit sc).params = s.params := rfl
@[simp] theorem commitInit_initialized (s : State) (sc : Scratch) : (s.commitInit sc).initialized = true := rfl
@[simp] theorem commitInit_cache (s : State) (sc : Scratch) : (s.commitInit sc).cache = sc.seeded s.params := rfl
@[simp] theorem commitInit_lock (s : State) (sc : Scratch) : (s.commitInit sc).lock = s.lock := rfl
@[simp] theorem commitInit_phase (s : State) (sc : Scratch) : (s.commitInit sc).phase = s.phase := rfl
@[simp] theorem commitInit_ports (s : State) (sc : Scratch) : (s.commitInit sc).ports = s.ports := rfl
@[simp] theorem commitInit_agenda (s : State) (sc : Scratch) : (s.commitInit sc).agenda = s.agenda := rfl
@[simp] theorem commitInit_arb (s : State) (sc : Scratch) : (s.commitInit sc).arb = s.arb := rfl
@[simp] theorem commitInit_answers (s : State) (sc : Scratch) : (s.commitInit sc).answers = s.answers := rfl
@[simp] theorem commitInit_draws (s : State) (sc : Scratch) : (s.commitInit sc).draws = s.draws := rfl
@[simp] theorem commitInit_log (s : State) (sc : Scratch) : (s.commitInit sc).log = s.log := rfl

/-! ## `answered` -/

@[simp] theorem answered_params (s : State) (req : BusRequest) (r : BusReply) :
    (s.answered req r).params = s.params := rfl
@[simp] theorem answered_initialized (s : State) (req : BusRequest) (r : BusReply) :
    (s.answered req r).initialized = s.initialized := rfl
@[simp] theorem answered_cache (s : State) (req : BusRequest) (r : BusReply) : (s.answered req r).cache = s.cache := rfl
@[simp] theorem answered_lock (s : State) (req : BusRequest) (r : BusReply) : (s.answered req r).lock = s.lock := rfl
@[simp] theorem answered_phase (s : State) (req : BusRequest) (r : BusReply) : (s.answered req r).phase = s.phase := rfl
@[simp] theorem answered_ports (s : State) (req : BusRequest) (r : BusReply) : (s.answered req r).ports = s.ports := rfl
@[simp] theorem answered_agenda (s : State) (req : BusRequest) (r : BusReply) :
    (s.answered req r).agenda = s.agenda := rfl
@[simp] theorem answered_arb (s : State) (req : BusRequest) (r : BusReply) : (s.answered req r).arb = s.arb := rfl
@[simp] theorem answered_answers (s : State) (req : BusRequest) (r : BusReply) :
    (s.answered req r).answers = s.answers.tail := rfl
@[simp] theorem answered_draws (s : State) (req : BusRequest) (r : BusReply) :
    (s.answered req r).draws = if s.answers.isEmpty then s.draws + 1 else s.draws := rfl
@[simp] theorem answered_log (s : State) (req : BusRequest) (r : BusReply) :
    (s.answered req r).log = .bus req r :: s.log := rfl

/-! ## `grantTo` -/

@[simp] theorem grantTo_params (s : State) (k : Nat) (w : Word) : (s.grantTo k w).params = s.params := rfl
@[simp] theorem grantTo_initialized (s : State) (k : Nat) (w : Word) :
    (s.grantTo k w).initialized = s.initialized := rfl
@[simp] theorem grantTo_cache (s : State) (k : Nat) (w : Word) : (s.grantTo k w).cache = s.cache := rfl
@[simp] theorem grantTo_lock (s : State) (k : Nat) (w : Word) : (s.grantTo k w).lock = .held k := rfl
@[simp] theorem grantTo_phase (s : State) (k : Nat) (w : Word) :
    (s.grantTo k w).phase = .exec { port := k, word := w, done := 0, scratch := freeScratch s.draws } := rfl
@[simp] theorem grantTo_ports (s : State) (k : Nat) (w : Word) : (s.grantTo k w).ports = s.ports.set k (.busy w) := rfl
@[simp] theorem grantTo_agenda (s : State) (k : Nat) (w : Word) : (s.grantTo k w).agenda = s.agenda := rfl
@[simp] theorem grantTo_arb (s : State) (k : Nat) (w : Word) : (s.grantTo k w).arb = s.arb.tail := rfl
@[simp] theorem grantTo_answers (s : State) (k : Nat) (w : Word) : (s.grantTo k w).answers = s.answers := rfl
@[simp] theorem grantTo_draws (s : State) (k : Nat) (w : Word) : (s.grantTo k w).draws = s.draws + 1 := rfl
@[simp] theorem grantTo_log (s : State) (k : Nat) (w : Word) : (s.grantTo k w).log = .grant k w :: s.log := rfl

/-! ## `takeMove` -/

@[simp] theorem takeMove_params (s : State) : (s.takeMove).params = s.params := rfl
@[simp] theorem takeMove_initialized (s : State) : (s.takeMove).initialized = s.initialized := rfl
@[simp] theorem takeMove_cache (s : State) : (s.takeMove).cache = s.cache := rfl
@[simp] theorem takeMove_lock (s : State) : (s.takeMove).lock = s.lock := rfl
@[simp] theorem takeMove_phase (s : State) : (s.takeMove).phase = s.phase := rfl
@[simp] theorem takeMove_ports (s : State) : (s.takeMove).ports = s.ports := rfl
@[simp] theorem takeMove_agenda (s : State) : (s.takeMove).agenda = s.agenda.tail := rfl
@[simp] theorem takeMove_arb (s : State) : (s.takeMove).arb = s.arb := rfl
@[simp] theorem takeMove_answers (s : State) : (s.takeMove).answers = s.answers := rfl
@[simp] theorem takeMove_draws (s : State) : (s.takeMove).draws = s.draws := rfl
@[simp] theorem takeMove_log (s : State) : (s.takeMove).log = s.log := rfl

/-! ## `construct` -/

@[simp] theorem construct_params (s : State) : (s.construct).params = s.params := rfl
@[simp] theorem construct_initialized (s : State) : (s.construct).initialized = false := rfl
@[simp] theorem construct_cache (s : State) : (s.construct).cache = Cache.unwritten := rfl
@[simp] theorem construct_lock (s : State) : (s.construct).lock = .free := rfl
@[simp] theorem construct_phase (s : State) : (s.construct).phase = .idle := rfl
@[simp] theorem construct_ports (s : State) : (s.construct).ports = List.replicate s.ports.length .idle := rfl
@[simp] theorem construct_agenda (s : State) : (s.construct).agenda = s.agenda := rfl
@[simp] theorem construct_arb (s : State) : (s.construct).arb = s.arb := rfl
@[simp] theorem construct_answers (s : State) : (s.construct).answers = s.answers := rfl
@[simp] theorem construct_draws (s : State) : (s.construct).draws = s.draws := rfl
@[simp] theorem construct_log (s : State) : (s.construct).log = .reset :: s.log := rfl

/-! ## Views -/

theorem view_eq_none_iff (s : State) : s.view = none ↔ s.initialized = false := by
  cases h : s.initialized <;> simp [view, h]

theorem view_eq_some_iff (s : State) (c : Cache) : s.view = some c ↔ s.initialized = true ∧ s.cache = c := by
  cases h : s.initialized <;> simp [view, h]

@[simp] theorem view_of_initialized {s : State} (h : s.initialized = true) : s.view = some s.cache := by
  simp [view, h]

/-- What a transaction returns does not depend on the agenda. -/
@[simp] theorem takeMove_nextReply (s : State) : s.takeMove.nextReply = s.nextReply := rfl

@[simp] theorem takeMove_view (s : State) : s.takeMove.view = s.view := rfl

end Sys2Proof.Machine.State
end

