-- ==== Sys2Proof/Laws/Ops.lean ====
section
/-! SUPPORT. What each shared operation can do, said once. -/

namespace Sys2Proof.Machine

open State

/-- What a transaction can do: what its reply makes of it, or the wait for one. -/
theorem transactWith_eq_next_iff (s : State) (e : Exec) (req : BusRequest)
    (f : BusReply → State → Host.Outcome State Fault Refusal) (t : State) :
    s.transactWith e req f = .next t ↔
      (∃ r, s.nextReply = some r ∧ f r (s.answered req r) = .next t) ∨ (s.nextReply = none ∧ t = s.hang e req) := by
  cases h : s.nextReply <;> simp [State.transactWith, h, eq_comm]

theorem transactWith_of_reply {s : State} {r : BusReply} (h : s.nextReply = some r) (e : Exec) (req : BusRequest)
    (f : BusReply → State → Host.Outcome State Fault Refusal) : s.transactWith e req f = f r (s.answered req r) := by
  simp [State.transactWith, h]

theorem transactWith_of_hang {s : State} (h : s.nextReply = none) (e : Exec) (req : BusRequest)
    (f : BusReply → State → Host.Outcome State Fault Refusal) : s.transactWith e req f = .next (s.hang e req) := by
  simp [State.transactWith, h]

/-- A transaction after which the command ends or goes on always answers a next state. -/
theorem transact_eq_next_iff (s : State) (e : Exec) (req : BusRequest) (f : BusReply → State → State) (t : State) :
    s.transact e req f = .next t ↔
      (∃ r, s.nextReply = some r ∧ t = f r (s.answered req r)) ∨ (s.nextReply = none ∧ t = s.hang e req) := by
  rw [State.transact, transactWith_eq_next_iff]
  simp [eq_comm]

theorem transact_of_reply {s : State} {r : BusReply} (h : s.nextReply = some r) (e : Exec) (req : BusRequest)
    (f : BusReply → State → State) : s.transact e req f = .next (f r (s.answered req r)) :=
  transactWith_of_reply h ..

theorem transact_of_hang {s : State} (h : s.nextReply = none) (e : Exec) (req : BusRequest)
    (f : BusReply → State → State) : s.transact e req f = .next (s.hang e req) :=
  transactWith_of_hang h ..

/-- With finite response, every transaction is answered (93_implementation_defined.md I7). -/
theorem nextReply_of_finite {s : State} (h : s.FiniteResponse) : ∃ r, s.nextReply = some r := by
  unfold State.nextReply
  split
  · exact ⟨_, rfl⟩
  · exact ⟨_, rfl⟩
  · rename_i heq
    exact absurd (heq ▸ List.mem_cons_self) h.1

theorem withExec_of_exec {s : State} {e : Exec} (h : s.phase = .exec e) (run : Exec → Host.Outcome State Fault Refusal) :
    s.withExec run = run e := by
  simp [State.withExec, h]

theorem withExec_of_not_exec {s : State} (h : ∀ e, s.phase ≠ .exec e)
    (run : Exec → Host.Outcome State Fault Refusal) : s.withExec run = .fault .offPhase := by
  unfold State.withExec
  split
  · rename_i e he; exact absurd he (h e)
  · rfl
  · rfl

/-- A command answers a next state in `Exec` only. -/
theorem exec_of_withExec_next {s t : State} {run : Exec → Host.Outcome State Fault Refusal}
    (h : s.withExec run = .next t) : ∃ e, s.phase = .exec e ∧ run e = .next t := by
  unfold State.withExec at h
  split at h
  · rename_i e he; exact ⟨e, he, h⟩
  · cases h
  · cases h

theorem withCache_of_initialized {s : State} (h : s.initialized = true)
    (run : Cache → Host.Outcome State Fault Refusal) : s.withCache run = run s.cache := by
  simp [State.withCache, State.view, h]

/-- The checks of 30_encoding.md R76 on a command with a pin, at its start: one of three endings. -/
theorem checkedPin_of_start {s : State} {e : Exec} (h : s.phase = .exec e) (hd : e.done = 0) (p : Nat)
    (run : Exec → Cache → Host.Outcome State Fault Refusal) :
    s.checkedPin p run =
      if s.initialized then if p ≤ 15 then run e s.cache else .next (s.raise e .invalidPin)
      else .next (s.raise e .notInitialized) := by
  cases hi : s.initialized <;>
    simp [State.checkedPin, withExec_of_exec h, hd, State.checkedCache, hi, withCache_of_initialized, validPin]

/-- What a command with a pin can do when it answers a next state. -/
theorem checkedPin_next {s t : State} {p : Nat} {run : Exec → Cache → Host.Outcome State Fault Refusal}
    (h : s.checkedPin p run = .next t) :
    ∃ e, s.phase = .exec e ∧ e.done = 0 ∧
      ((s.initialized = false ∧ t = s.raise e .notInitialized) ∨
       (s.initialized = true ∧ 15 < p ∧ t = s.raise e .invalidPin) ∨
       (s.initialized = true ∧ p ≤ 15 ∧ run e s.cache = .next t)) := by
  obtain ⟨e, hp, -⟩ := exec_of_withExec_next h
  refine ⟨e, hp, ?_⟩
  by_cases hd : e.done = 0
  · rw [checkedPin_of_start hp hd] at h
    refine ⟨hd, ?_⟩
    cases hi : s.initialized with
    | false => simp only [hi] at h; simp at h; exact .inl ⟨rfl, h.symm⟩
    | true =>
      by_cases h15 : p ≤ 15
      · simp [hi, h15] at h; exact .inr (.inr ⟨rfl, h15, h⟩)
      · simp [hi, h15] at h; exact .inr (.inl ⟨rfl, by omega, h.symm⟩)
  · simp [State.checkedPin, withExec_of_exec hp, hd] at h

/-- What a set command can do when it answers a next state. -/
theorem rmw_next {s t : State} {C : PairName} {p : Nat} {v : Bool} (h : s.rmw C p v = .next t) :
    ∃ e, s.phase = .exec e ∧ e.done = 0 ∧
      ((s.initialized = false ∧ t = s.raise e .notInitialized) ∨
       (s.initialized = true ∧ 15 < p ∧ t = s.raise e .invalidPin) ∨
       (s.initialized = true ∧ p ≤ 15 ∧ ∃ r, s.nextReply = some r ∧
         t = match r with
          | .ok _ => ((s.answered (s.params.write (deviceIndex C.base p) (s.cache.newByte C p v)) r).setCache
              (s.cache.commitByte C p (s.cache.newByte C p v))).respond e 0
          | .err => (s.answered (s.params.write (deviceIndex C.base p) (s.cache.newByte C p v)) r).raise e .busError) ∨
       (s.initialized = true ∧ p ≤ 15 ∧ s.nextReply = none ∧
         t = s.hang { e with scratch := { e.scratch with nb := s.cache.newByte C p v } }
          (s.params.write (deviceIndex C.base p) (s.cache.newByte C p v)))) := by
  obtain ⟨e, hp, hd, h1 | h1 | ⟨hi, h15, h1⟩⟩ := checkedPin_next h
  · exact ⟨e, hp, hd, .inl h1⟩
  · exact ⟨e, hp, hd, .inr (.inl h1)⟩
  · obtain ⟨r, hr, ht⟩ | ⟨hr, ht⟩ := (transact_eq_next_iff ..).1 h1
    · exact ⟨e, hp, hd, .inr (.inr (.inl ⟨hi, h15, r, hr, ht⟩))⟩
    · exact ⟨e, hp, hd, .inr (.inr (.inr ⟨hi, h15, hr, ht⟩))⟩

/-- What a get command of a cached bit can do when it answers a next state. -/
theorem answerBit_next {s t : State} {C : PairName} {p : Nat} (h : s.answerBit C p = .next t) :
    ∃ e, s.phase = .exec e ∧ e.done = 0 ∧
      ((s.initialized = false ∧ t = s.raise e .notInitialized) ∨
       (s.initialized = true ∧ 15 < p ∧ t = s.raise e .invalidPin) ∨
       (s.initialized = true ∧ p ≤ 15 ∧ t = s.respond e (zext16 ((s.cache.pair C).pin p)))) := by
  obtain ⟨e, hp, hd, h1 | h1 | ⟨hi, h15, h1⟩⟩ := checkedPin_next h
  · exact ⟨e, hp, hd, .inl h1⟩
  · exact ⟨e, hp, hd, .inr (.inl h1)⟩
  · exact ⟨e, hp, hd, .inr (.inr ⟨hi, h15, by simpa using h1.symm⟩)⟩

/-- What one step of INIT can do when it answers a next state. -/
theorem execInit_next {s t : State} (h : execInit s = .next t) :
    ∃ e index, s.phase = .exec e ∧ initOrder[e.done]? = some index ∧
      ¬ (e.done = 0 ∧ s.initialized = true ∧ s.params.reinit = .refuse) ∧
      ((∃ r, s.nextReply = some r ∧ t = match r with
        | .err => (s.answered (s.params.read index) r).raise e .busError
        | .ok b =>
          if e.done + 1 = initOrder.length then
            ((s.answered (s.params.read index) r).commitInit (e.scratch.stage index b)).respond e 0
          else (s.answered (s.params.read index) r).advance e (e.scratch.stage index b)) ∨
       (s.nextReply = none ∧ t = s.hang e (s.params.read index))) := by
  obtain ⟨e, hp, h⟩ := exec_of_withExec_next h
  cases hx : initOrder[e.done]? with
  | none => simp [hx] at h
  | some index =>
    simp only [hx] at h
    split at h
    · cases h
    · rename_i hn
      exact ⟨e, index, hp, hx, hn, (transact_eq_next_iff ..).1 h⟩

/-- A step of INIT that is answered (40_init.md R90 to R92). -/
theorem execInit_of_reply {s : State} {e : Exec} {index : BitVec 3} {r : BusReply} (hp : s.phase = .exec e)
    (hx : initOrder[e.done]? = some index) (ha : e.done = 0 → s.InitAllowed) (hr : s.nextReply = some r) :
    execInit s = .next (match r with
      | .err => (s.answered (s.params.read index) r).raise e .busError
      | .ok b =>
        if e.done + 1 = initOrder.length then
          ((s.answered (s.params.read index) r).commitInit (e.scratch.stage index b)).respond e 0
        else (s.answered (s.params.read index) r).advance e (e.scratch.stage index b)) := by
  rw [execInit, withExec_of_exec hp]
  simp only [hx]
  rw [if_neg, transact_of_reply hr]
  · cases r <;> rfl
  · rintro ⟨h1, h2, h3⟩
    have := ha h1 h2
    simp [h3] at this

/-- What GETVAL can do when it answers a next state. -/
theorem execGetval_next {s t : State} {p : Nat} (h : execGetval p s = .next t) :
    ∃ e, s.phase = .exec e ∧ e.done = 0 ∧
      ((s.initialized = false ∧ t = s.raise e .notInitialized) ∨
       (s.initialized = true ∧ 15 < p ∧ t = s.raise e .invalidPin) ∨
       (s.initialized = true ∧ p ≤ 15 ∧ s.cache.config.pin p = false ∧
         t = s.respond e (zext16 (s.cache.output.pin p))) ∨
       (s.initialized = true ∧ p ≤ 15 ∧ s.cache.config.pin p = true ∧ ∃ r, s.nextReply = some r ∧
         t = match r with
          | .err => (s.answered (s.params.read (deviceIndex 0 p)) r).raise e .busError
          | .ok b => ((s.answered (s.params.read (deviceIndex 0 p)) r).setCache
              (s.cache.setLevel p (s.cache.inputLevel s.params p b))).respond e
                (zext16 (s.cache.inputLevel s.params p b))) ∨
       (s.initialized = true ∧ p ≤ 15 ∧ s.cache.config.pin p = true ∧ s.nextReply = none ∧
         t = s.hang e (s.params.read (deviceIndex 0 p)))) := by
  obtain ⟨e, hp, hd, h1 | h1 | ⟨hi, h15, h1⟩⟩ := checkedPin_next h
  · exact ⟨e, hp, hd, .inl h1⟩
  · exact ⟨e, hp, hd, .inr (.inl h1)⟩
  · refine ⟨e, hp, hd, .inr (.inr ?_)⟩
    by_cases hc : s.cache.config.pin p = true
    · rw [if_pos hc] at h1
      obtain ⟨r, hr, ht⟩ | ⟨hr, ht⟩ := (transact_eq_next_iff ..).1 h1
      · exact .inr (.inl ⟨hi, h15, hc, r, hr, ht⟩)
      · exact .inr (.inr ⟨hi, h15, hc, hr, ht⟩)
    · rw [if_neg hc] at h1
      exact .inl ⟨hi, h15, by simpa using hc, by simpa using h1.symm⟩

/-- What one step of GETVALS can do when it answers a next state. -/
theorem execGetvals_next {s t : State} (h : execGetvals s = .next t) :
    ∃ e, s.phase = .exec e ∧
      ((e.done = 0 ∧ s.initialized = false ∧ t = s.raise e .notInitialized) ∨
       (e.done = 0 ∧ s.initialized = true ∧ ∃ r, s.nextReply = some r ∧
         t = match r with
          | .err => (s.answered (s.params.read 0) r).raise e .busError
          | .ok b => (s.answered (s.params.read 0) r).advance e { e.scratch with in0 := b }) ∨
       (e.done = 1 ∧ s.nextReply = some .err ∧ t = (s.answered (s.params.read 1) .err).raise e .busError) ∨
       (e.done = 1 ∧ s.initialized = true ∧ ∃ b, s.nextReply = some (.ok b) ∧
         t = ((s.answered (s.params.read 1) (.ok b)).setCache
              { s.cache with lastInputState := s.cache.levels s.params (Pair.word ⟨e.scratch.in0, b⟩) }).respond e
                (s.cache.levels s.params (Pair.word ⟨e.scratch.in0, b⟩))) ∨
       (s.nextReply = none ∧
         ((e.done = 0 ∧ s.initialized = true ∧ t = s.hang e (s.params.read 0)) ∨
          (e.done = 1 ∧ t = s.hang e (s.params.read 1))))) := by
  obtain ⟨e, hp, h⟩ := exec_of_withExec_next h
  refine ⟨e, hp, ?_⟩
  split at h
  · rename_i hd
    cases hi : s.initialized with
    | false => simp [State.checkedCache, hi] at h; exact .inl ⟨hd, rfl, h.symm⟩
    | true =>
      simp only [State.checkedCache, hi, if_true, withCache_of_initialized hi] at h
      obtain ⟨r, hr, ht⟩ | ⟨hr, ht⟩ := (transact_eq_next_iff ..).1 h
      · exact .inr (.inl ⟨hd, rfl, r, hr, ht⟩)
      · exact .inr (.inr (.inr (.inr ⟨hr, .inl ⟨hd, rfl, ht⟩⟩)))
  · rename_i hd
    obtain ⟨r, hr, ht⟩ | ⟨hr, ht⟩ := (transactWith_eq_next_iff ..).1 h
    · cases r with
      | err => exact .inr (.inr (.inl ⟨hd, hr, by simpa using ht.symm⟩))
      | ok b =>
        cases hi : s.initialized with
        | false => simp [State.withCache, State.view, hi] at ht
        | true =>
          dsimp only at ht
          rw [withCache_of_initialized (by simpa using hi)] at ht
          exact .inr (.inr (.inr (.inl ⟨hd, rfl, b, hr, by simpa using ht.symm⟩)))
    · exact .inr (.inr (.inr (.inr ⟨hr, .inr ⟨hd, ht⟩⟩)))
  · cases h

/-- What an issue can do when it answers a next state (10_state.md R34). -/
theorem issue_next {s t : State} {k : Nat} {w : Word} (h : s.issue k w = .next t) :
    ∃ p, s.ports[k]? = some p ∧ p.mayIssue = true ∧
      t = { s with ports := s.ports.set k (.pending w), log := .issue k w :: s.log } := by
  unfold State.issue at h
  split at h
  · cases h
  · rename_i p hp
    split at h
    · rename_i hm; exact ⟨p, hp, hm, by simpa using h.symm⟩
    · cases h

/-- A choice of the arbitration is a pending port, and every pending port is one (00_scope.md R7). -/
theorem mem_of_pickPort {c k : Nat} {l : List Nat} (h : pickPort c l = some k) : k ∈ l := by
  match l with
  | [] => cases h
  | [j] => simp [pickPort] at h; simp [h]
  | j :: j' :: js =>
    simp only [pickPort, Option.some.injEq] at h
    cases hf : (j :: j' :: js).find? (c ≤ ·) with
    | none => simp [hf] at h; simp [h]
    | some m =>
      rw [hf] at h
      have : m = k := by simpa using h
      exact this ▸ List.mem_of_find?_eq_some hf

theorem pickPort_isSome {c : Nat} {l : List Nat} (h : l ≠ []) : ∃ k, pickPort c l = some k := by
  match l with
  | [j] => exact ⟨j, rfl⟩
  | j :: j' :: js => exact ⟨_, rfl⟩

/-- The ports in `Pending`, by number. -/
theorem mem_pendingFrom {ps : List Port} {n k : Nat} :
    k ∈ pendingFrom n ps ↔ ∃ w, n ≤ k ∧ ps[k - n]? = some (.pending w) := by
  induction ps generalizing n with
  | nil => simp [pendingFrom]
  | cons p ps ih =>
    have tail : k ∈ pendingFrom (n + 1) ps ↔ ∃ w, n + 1 ≤ k ∧ (p :: ps)[k - n]? = some (.pending w) := by
      rw [ih]
      refine exists_congr fun w => and_congr_right fun hk => ?_
      rw [show k - n = (k - (n + 1)) + 1 by omega, List.getElem?_cons_succ]
    have head : k = n → ((p :: ps)[k - n]? = some p) := fun h => by simp [h]
    have split : (∃ w, n ≤ k ∧ (p :: ps)[k - n]? = some (.pending w)) ↔
        (k = n ∧ ∃ w, p = .pending w) ∨ ∃ w, n + 1 ≤ k ∧ (p :: ps)[k - n]? = some (.pending w) := by
      constructor
      · rintro ⟨w, hk, hw⟩
        by_cases hkn : k = n
        · rw [head hkn] at hw; exact .inl ⟨hkn, w, by simpa using hw⟩
        · exact .inr ⟨w, by omega, hw⟩
      · rintro (⟨hkn, w, hw⟩ | ⟨w, hk, hw⟩)
        · exact ⟨w, by omega, by rw [head hkn, hw]⟩
        · exact ⟨w, by omega, hw⟩
    rw [split, ← tail]
    cases p <;> simp [pendingFrom, Port.pending?]

theorem mem_pendingPorts {s : State} {k : Nat} : k ∈ s.pendingPorts ↔ ∃ w, s.ports[k]? = some (.pending w) := by
  simp [State.pendingPorts, mem_pendingFrom]

/-- What a grant does: nothing, or the grant of one pending port when the lock is free and the phase idle
(20_memory.md R53). -/
theorem grant_cases (s : State) :
    (s.grant = s ∧ (s.lock = .free → s.phase = .idle →
      ∀ (k : Nat) (w : Word), s.ports[k]? ≠ some (Port.pending w))) ∨
    (∃ (k : Nat) (w : Word), s.lock = .free ∧ s.phase = .idle ∧ s.ports[k]? = some (.pending w) ∧ s.grant = s.grantTo k w) := by
  unfold State.grant
  cases hl : s.lock with
  | held j => left; simp [State.grantee, hl]
  | free =>
    cases hp : s.phase with
    | exec e => left; simp [State.grantee, hl, hp]
    | stuck e req => left; simp [State.grantee, hl, hp]
    | idle =>
      by_cases hn : s.pendingPorts = []
      · left
        constructor
        · simp [State.grantee, hl, hp, hn, pickPort]
        · intro _ _ k w hk
          have : k ∈ s.pendingPorts := mem_pendingPorts.2 ⟨w, hk⟩
          simp [hn] at this
      · right
        obtain ⟨k, hk⟩ := pickPort_isSome (c := s.nextChoice) hn
        obtain ⟨w, hw⟩ := mem_pendingPorts.1 (mem_of_pickPort hk)
        exact ⟨k, w, rfl, rfl, hw, by simp [State.grantee, hl, hp, hk, hw, Port.pending?]⟩

/-- The step function, by whose move it is. -/
theorem step_eq (s : State) : step s = match s.nextMove with
    | .issue k w => s.takeMove.issue k w
    | .sequencer => s.takeMove.sequence
    | .reset => .next s.takeMove.construct := rfl

end Sys2Proof.Machine
end

