-- ==== Sys2Proof/Laws/Exec.lean ====
section
/-! SUPPORT. What a step of a command can do, what a step of the machine can do, and what each ending leaves. -/

namespace Sys2Proof.Machine

open State

/-! ## Endings -/

/-- A release after events that change none of the ports, the parameters, the agenda and the arbitration. -/
theorem ended_release {s u : State} (k : Nat) (st : Status) (d : Word) (evs : List Event) (hports : u.ports = s.ports)
    (hparams : u.params = s.params) (hagenda : u.agenda = s.agenda) (harb : u.arb = s.arb)
    (hlog : u.log = evs.reverse ++ s.log) : Ended s (u.release k st d) k st d evs where
  latched h := by simp [hports, h]
  others := ⟨by simp [hports], fun j hj => by simp [hports, List.getElem?_set_ne (Ne.symm hj)]⟩
  released := ⟨rfl, rfl⟩
  frame := ⟨hparams, hagenda, harb⟩
  events := by simp [hlog]

theorem ended_raise (s : State) (e : Exec) (st : Status) : Ended s (s.raise e st) e.port st 0 [] :=
  ended_release _ _ _ _ rfl rfl rfl rfl rfl

theorem ended_respond (s : State) (e : Exec) (d : Word) : Ended s (s.respond e d) e.port .ok d [] :=
  ended_release _ _ _ _ rfl rfl rfl rfl rfl

theorem ended_raise_answered (s : State) (e : Exec) (st : Status) (req : BusRequest) (r : BusReply) :
    Ended s ((s.answered req r).raise e st) e.port st 0 [.bus req r] :=
  ended_release _ _ _ _ rfl rfl rfl rfl rfl

theorem goesOn_advance (s : State) (e : Exec) (sc : Scratch) (req : BusRequest) (r : BusReply) :
    GoesOn s ((s.answered req r).advance e sc) (.bus req r) :=
  ⟨⟨rfl, rfl⟩, ⟨rfl, rfl⟩, ⟨rfl, rfl, rfl⟩, rfl⟩

theorem oneAnswer_answered (s : State) (req : BusRequest) (r : BusReply) : OneAnswer s (s.answered req r) :=
  ⟨rfl, by simp⟩

theorem justReleased_respond (s : State) (e : Exec) (d : Word) (k : Nat) (st : Status) (d' : Word) :
    JustReleased (s.respond e d) k st d' ↔ e.port = k ∧ .ok = st ∧ d = d' := by simp [JustReleased]

theorem justReleased_raise (s : State) (e : Exec) (x : Status) (k : Nat) (st : Status) (d' : Word) :
    JustReleased (s.raise e x) k st d' ↔ e.port = k ∧ x = st ∧ 0 = d' := by simp [JustReleased]

theorem goesOn_hang (s : State) (e : Exec) (req : BusRequest) : GoesOn s (s.hang e req) (.hang req) :=
  ⟨⟨rfl, rfl⟩, ⟨rfl, rfl⟩, ⟨rfl, rfl, rfl⟩, rfl⟩

/-- A wait uses up the answer that never comes. -/
theorem oneAnswer_hang {s : State} (h : s.nextReply = none) (e : Exec) (req : BusRequest) :
    OneAnswer s (s.hang e req) := by
  refine ⟨rfl, ?_⟩
  have : s.answers ≠ [] := fun hn => by simp [State.nextReply, hn] at h
  simp [this]

theorem not_justReleased_hang (s : State) (e : Exec) (req : BusRequest) (k : Nat) (st : Status) (d : Word) :
    ¬ JustReleased (s.hang e req) k st d := by simp [JustReleased]

theorem not_justReleased_advance (s : State) (req : BusRequest) (r : BusReply) (e : Exec) (sc : Scratch) (k : Nat)
    (st : Status) (d : Word) : ¬ JustReleased ((s.answered req r).advance e sc) k st d := by simp [JustReleased]

/-! ## A request in flight -/

@[simp] theorem sending_port (e : Exec) (req : BusRequest) : (e.sending req).port = e.port := by cases req <;> rfl
@[simp] theorem sending_word (e : Exec) (req : BusRequest) : (e.sending req).word = e.word := by cases req <;> rfl
@[simp] theorem sending_done (e : Exec) (req : BusRequest) : (e.sending req).done = e.done := by cases req <;> rfl
@[simp] theorem sending_s (e : Exec) (req : BusRequest) : (e.sending req).scratch.s = e.scratch.s := by cases req <;> rfl
@[simp] theorem sending_in0 (e : Exec) (req : BusRequest) : (e.sending req).scratch.in0 = e.scratch.in0 := by
  cases req <;> rfl

/-- The bytes a command has read are not touched by the byte in flight. -/
@[simp] theorem taken_sending (e : Exec) (req : BusRequest) : (e.sending req).taken = e.taken := by cases req <;> rfl

/-! ## A step of a command -/

/-- What one step of any command can do when it answers a next state: end at a check; answer from the cache; fail on the
bus; go on; commit after an `Ok`; or wait for ever. -/
theorem exec_next {i : Instr} {s t : State} (h : exec i s = .next t) :
    ∃ e, s.phase = .exec e ∧
      ((e.done = 0 ∧ i ≠ .init ∧ s.initialized = false ∧ t = s.raise e .notInitialized) ∨
       (∃ p, e.done = 0 ∧ i.pin? = some p ∧ s.initialized = true ∧ 15 < p ∧ t = s.raise e .invalidPin) ∨
       (∃ d, e.done = 0 ∧ s.initialized = true ∧ t = s.respond e d ∧
         ∃ C p, i.pin? = some p ∧ p ≤ 15 ∧ d = zext16 ((s.cache.pair C).pin p) ∧
           ((i = .getdir p ∧ C = .config) ∨ (i = .getpol p ∧ C = .polarity) ∨
            (i = .getval p ∧ C = .output ∧ s.cache.config.pin p = false))) ∨
       (∃ req, s.nextReply = some .err ∧ t = (s.answered req .err).raise e .busError) ∨
       (∃ req b sc, s.nextReply = some (.ok b) ∧ t = (s.answered req (.ok b)).advance e sc) ∨
       (∃ req b c ini d, s.nextReply = some (.ok b) ∧ ini = true ∧ (i ≠ .init → s.initialized = true) ∧
         t = ({ (s.answered req (.ok b)) with cache := c, initialized := ini } : State).respond e d) ∨
       (∃ req, s.nextReply = none ∧ t = s.hang (e.sending req) req)) := by
  cases i with
  | init =>
    obtain ⟨e, ix, hp, hx, hn, ⟨r, hr, rfl⟩ | ⟨hr, rfl⟩⟩ := execInit_next h <;> refine ⟨e, hp, ?_⟩
    · cases r with
      | err => exact .inr (.inr (.inr (.inl ⟨_, hr, rfl⟩)))
      | ok b =>
        simp only
        split
        · exact .inr (.inr (.inr (.inr (.inr (.inl ⟨_, b, _, true, _, hr, rfl, by simp, rfl⟩)))))
        · exact .inr (.inr (.inr (.inr (.inl ⟨_, b, _, hr, rfl⟩))))
    · exact .inr (.inr (.inr (.inr (.inr (.inr ⟨s.params.read _, hr, rfl⟩)))))
  | getvals =>
    obtain ⟨e, hp, ⟨hd, hi, rfl⟩ | ⟨hd, hi, r, hr, rfl⟩ | ⟨hd, hr, rfl⟩ | ⟨hd, hi, b, hr, rfl⟩ |
        ⟨hr, ⟨hd, hi, rfl⟩ | ⟨hd, rfl⟩⟩⟩ := execGetvals_next h <;> refine ⟨e, hp, ?_⟩
    · exact .inl ⟨hd, by simp, hi, rfl⟩
    · cases r with
      | err => exact .inr (.inr (.inr (.inl ⟨_, hr, rfl⟩)))
      | ok b => exact .inr (.inr (.inr (.inr (.inl ⟨_, b, _, hr, rfl⟩))))
    · exact .inr (.inr (.inr (.inl ⟨_, hr, rfl⟩)))
    · exact .inr (.inr (.inr (.inr (.inr (.inl ⟨_, b, _, s.initialized, _, hr, hi, fun _ => hi, rfl⟩)))))
    · exact .inr (.inr (.inr (.inr (.inr (.inr ⟨s.params.read _, hr, rfl⟩)))))
    · exact .inr (.inr (.inr (.inr (.inr (.inr ⟨s.params.read _, hr, rfl⟩)))))
  | getval p =>
    obtain ⟨e, hp, hd, ⟨hi, rfl⟩ | ⟨hi, h15, rfl⟩ | ⟨hi, h15, hc, rfl⟩ | ⟨hi, h15, hc, r, hr, rfl⟩ |
        ⟨hi, h15, hc, hr, rfl⟩⟩ := execGetval_next h <;> refine ⟨e, hp, ?_⟩
    · exact .inl ⟨hd, by simp, hi, rfl⟩
    · exact .inr (.inl ⟨p, hd, rfl, hi, h15, rfl⟩)
    · exact .inr (.inr (.inl ⟨_, hd, hi, rfl, .output, p, rfl, h15, rfl, .inr (.inr ⟨rfl, rfl, hc⟩)⟩))
    · cases r with
      | err => exact .inr (.inr (.inr (.inl ⟨_, hr, rfl⟩)))
      | ok b => exact .inr (.inr (.inr (.inr (.inr (.inl ⟨_, b, _, s.initialized, _, hr, hi, fun _ => hi, rfl⟩)))))
    · exact .inr (.inr (.inr (.inr (.inr (.inr ⟨s.params.read _, hr, rfl⟩)))))
  | getdir p =>
    obtain ⟨e, hp, hd, ⟨hi, rfl⟩ | ⟨hi, h15, rfl⟩ | ⟨hi, h15, rfl⟩⟩ := answerBit_next h <;> refine ⟨e, hp, ?_⟩
    · exact .inl ⟨hd, by simp, hi, rfl⟩
    · exact .inr (.inl ⟨p, hd, rfl, hi, h15, rfl⟩)
    · exact .inr (.inr (.inl ⟨_, hd, hi, rfl, .config, p, rfl, h15, rfl, .inl ⟨rfl, rfl⟩⟩))
  | getpol p =>
    obtain ⟨e, hp, hd, ⟨hi, rfl⟩ | ⟨hi, h15, rfl⟩ | ⟨hi, h15, rfl⟩⟩ := answerBit_next h <;> refine ⟨e, hp, ?_⟩
    · exact .inl ⟨hd, by simp, hi, rfl⟩
    · exact .inr (.inl ⟨p, hd, rfl, hi, h15, rfl⟩)
    · exact .inr (.inr (.inl ⟨_, hd, hi, rfl, .polarity, p, rfl, h15, rfl, .inr (.inl ⟨rfl, rfl⟩)⟩))
  | setdir p v | setpol p v | setval p v =>
    obtain ⟨e, hp, hd, ⟨hi, rfl⟩ | ⟨hi, h15, rfl⟩ | ⟨hi, h15, r, hr, rfl⟩ | ⟨hi, h15, hr, rfl⟩⟩ := rmw_next h <;>
      refine ⟨e, hp, ?_⟩
    · exact .inl ⟨hd, by simp, hi, rfl⟩
    · exact .inr (.inl ⟨p, hd, rfl, hi, h15, rfl⟩)
    · cases r with
      | err => exact .inr (.inr (.inr (.inl ⟨_, hr, rfl⟩)))
      | ok b => exact .inr (.inr (.inr (.inr (.inr (.inl ⟨_, b, _, s.initialized, _, hr, hi, fun _ => hi, rfl⟩)))))
    · exact .inr (.inr (.inr (.inr (.inr (.inr ⟨s.params.write _ _, hr, rfl⟩)))))

/-! ## A step of the machine -/

/-- What a step can do when it answers a next state: an issue, a reset, nothing, a grant, the ending of an illegal word, a
step of a command, or nothing at a bus that never answers. -/
theorem step_next {s t : State} (h : step s = .next t) :
    (∃ k w p, s.nextMove = .issue k w ∧ s.ports[k]? = some p ∧ p.mayIssue = true ∧
      t = { s.takeMove with ports := s.ports.set k (.pending w), log := .issue k w :: s.log }) ∨
    (s.nextMove = .reset ∧ t = s.takeMove.construct) ∨
    (s.nextMove = .sequencer ∧ s.phase = .idle ∧ t = s.takeMove) ∨
    (∃ k w, s.nextMove = .sequencer ∧ s.phase = .idle ∧ s.lock = .free ∧ s.ports[k]? = some (.pending w) ∧
      t = s.takeMove.grantTo k w) ∨
    (∃ e, s.nextMove = .sequencer ∧ s.phase = .exec e ∧ decode e.word = none ∧
      t = s.takeMove.raise e .illegalCommand) ∨
    (∃ e i, s.nextMove = .sequencer ∧ s.phase = .exec e ∧ decode e.word = some i ∧ exec i s.takeMove = .next t) ∨
    (∃ e req, s.nextMove = .sequencer ∧ s.phase = .stuck e req ∧ t = s.takeMove) := by
  rw [step_eq] at h
  cases hm : s.nextMove with
  | issue k w =>
    rw [hm] at h
    obtain ⟨p, hp, hmay, rfl⟩ := issue_next h
    exact .inl ⟨k, w, p, rfl, hp, hmay, rfl⟩
  | reset => rw [hm] at h; simp at h; exact .inr (.inl ⟨rfl, h.symm⟩)
  | sequencer =>
    rw [hm] at h
    simp only [State.sequence] at h
    cases hp : s.phase with
    | idle =>
      simp [hp] at h
      obtain ⟨hg, _⟩ | ⟨k, w, hl, _, hk, hg⟩ := grant_cases s.takeMove
      · exact .inr (.inr (.inl ⟨rfl, rfl, by rw [← h, hg]⟩))
      · exact .inr (.inr (.inr (.inl ⟨k, w, rfl, rfl, hl, hk, by rw [← h, hg]⟩)))
    | exec e =>
      simp [hp] at h
      cases hd : decode e.word with
      | none => simp [hd] at h; exact .inr (.inr (.inr (.inr (.inl ⟨e, rfl, rfl, hd, h.symm⟩))))
      | some i => simp [hd] at h; exact .inr (.inr (.inr (.inr (.inr (.inl ⟨e, i, rfl, rfl, hd, h⟩)))))
    | stuck e req => simp [hp] at h; exact .inr (.inr (.inr (.inr (.inr (.inr ⟨e, req, rfl, rfl, h.symm⟩)))))

end Sys2Proof.Machine
end

