-- ==== Sys2Proof/Laws/PerInstr.lean ====
section
/-! SUPPORT. Statements about every command, one lemma per command.

FitsRow: the word of a command is matched by the row of the opcode map with the command's mnemonic (30_encoding.md R73),
whatever its operands. -/

namespace Sys2Proof.Laws.FitsRow

/-- A row of the opcode map with the command's mnemonic matches the command's word. -/
def Statement (i : Instr) : Prop := ∃ r ∈ opcodeMap, r.mnemonic = i.mnemonic ∧ r.matchesWord (encode i) = true

/-- The word of a command keeps its `OP` under the mask of format P, whatever its pin. -/
theorem packWord_and_maskP (op : BitVec 4) (pin : BitVec 8) : packWord op false pin &&& 0xFF00 = packWord op false 0 := by
  apply BitVec.eq_of_toNat_eq
  revert op pin
  decide +kernel

/-- The word of a command keeps its `OP` under the mask of format PV, whatever its pin and value. -/
theorem packWord_and_maskPV (op : BitVec 4) (v : Bool) (pin : BitVec 8) :
    packWord op v pin &&& 0xFE00 = packWord op false 0 := by
  apply BitVec.eq_of_toNat_eq
  revert op v pin
  decide +kernel

theorem init : Statement .init := ⟨⟨"INIT", 0x1000, 0xFFFF⟩, by simp [opcodeMap], rfl, rfl⟩

theorem setdir (p : Nat) (v : Bool) : Statement (.setdir p v) :=
  ⟨⟨"SETDIR", 0x2000, 0xFE00⟩, by simp [opcodeMap], rfl, by
    simp only [OpcodeRow.matchesWord, encode, packWord_and_maskPV]; rfl⟩

theorem getdir (p : Nat) : Statement (.getdir p) :=
  ⟨⟨"GETDIR", 0x3000, 0xFF00⟩, by simp [opcodeMap], rfl, by
    simp only [OpcodeRow.matchesWord, encode, packWord_and_maskP]; rfl⟩

theorem setpol (p : Nat) (v : Bool) : Statement (.setpol p v) :=
  ⟨⟨"SETPOL", 0x4000, 0xFE00⟩, by simp [opcodeMap], rfl, by
    simp only [OpcodeRow.matchesWord, encode, packWord_and_maskPV]; rfl⟩

theorem getpol (p : Nat) : Statement (.getpol p) :=
  ⟨⟨"GETPOL", 0x5000, 0xFF00⟩, by simp [opcodeMap], rfl, by
    simp only [OpcodeRow.matchesWord, encode, packWord_and_maskP]; rfl⟩

theorem setval (p : Nat) (v : Bool) : Statement (.setval p v) :=
  ⟨⟨"SETVAL", 0x6000, 0xFE00⟩, by simp [opcodeMap], rfl, by
    simp only [OpcodeRow.matchesWord, encode, packWord_and_maskPV]; rfl⟩

theorem getval (p : Nat) : Statement (.getval p) :=
  ⟨⟨"GETVAL", 0x7000, 0xFF00⟩, by simp [opcodeMap], rfl, by
    simp only [OpcodeRow.matchesWord, encode, packWord_and_maskP]; rfl⟩

theorem getvals : Statement .getvals := ⟨⟨"GETVALS", 0x8000, 0xFFFF⟩, by simp [opcodeMap], rfl, rfl⟩

end Sys2Proof.Laws.FitsRow
end

