-- ==== Sys2Proof/Tests/Slice0.lean ====
section
/-! SUPPORT. Tests. The expected words, responses and registers are those of spec/95_test_vectors.md (the row is named at each
test) and of the examples of spec/30_encoding.md R82. After them, for every obligation with hypotheses, a concrete state and
operands that meet them. -/

namespace Sys2Proof.Tests

open Sys2Proof.Machine

/-! ## Ill-formed commands are refused -/

theorem test_wf_setdir : (Instr.setdir 256 true).wellFormed = false := by decide
theorem test_wf_getdir : (Instr.getdir 256).wellFormed = false := by decide
theorem test_wf_setpol : (Instr.setpol 256 false).wellFormed = false := by decide
theorem test_wf_getpol : (Instr.getpol 256).wellFormed = false := by decide
theorem test_wf_setval : (Instr.setval 256 true).wellFormed = false := by decide
theorem test_wf_getval : (Instr.getval 256).wellFormed = false := by decide

/-! ## Words written out bit by bit: OP, RSV, V, PIN (30_encoding.md R70, R73) -/

theorem test_decode_init : decode 0b0001_000_0_00000000 = some .init := by decide
theorem test_decode_setdir : decode 0b0010_000_1_00010000 = some (.setdir 16 true) := by decide
theorem test_decode_getdir : decode 0b0011_000_0_00001001 = some (.getdir 9) := by decide
theorem test_decode_setpol : decode 0b0100_000_1_00000011 = some (.setpol 3 true) := by decide
theorem test_decode_getpol : decode 0b0101_000_0_00001100 = some (.getpol 12) := by decide
theorem test_decode_setval : decode 0b0110_000_0_10000001 = some (.setval 129 false) := by decide
theorem test_decode_getval : decode 0b0111_000_0_11111111 = some (.getval 255) := by decide
theorem test_decode_getvals : decode 0b1000_000_0_00000000 = some .getvals := by decide

/-- The illegal words of 95_test_vectors.md DC-1 to DC-7, I-5, SD-6, SD-12, SP-6, SV-6, GV-4 and GS-6. -/
theorem test_illegal_words :
    ([0x0000, 0x9000, 0xF123, 0x1800, 0x1005, 0x7800, 0x8100, 0x1001, 0x2203, 0x3100, 0x5200, 0x6400, 0x7100, 0x8001] :
      List Word).map decode = List.replicate 14 none := by decide

theorem test_decodeTableWord : decodeTableWord 16 0x6109 = some (.setval 9 true) := by decide

/-- 30_encoding.md R80 on source text. -/
theorem test_assembleLine : assembleLine "1: SETDIR  15, 0 ; out".toList = some (some (1, 0x200F)) := by decide

/-- 30_encoding.md R80, a word spelled in hexadecimal (program P3, line 7). -/
theorem test_assembleLine_word : assembleLine ".word 0x9000".toList = some (some (0, 0x9000)) := by decide

/-! ## One step of a command, on a small state -/

/-- Parameters for the tests. -/
def params : Params := { busId := ⟨4, 5⟩, address := 0x20, reinit := .reseed, appliesPolarity := true }

/-- Scratch registers: the staging bytes of vector I-6, and `in0` of vector L1-3. -/
def scratch : Scratch := { nb := 0, s := #v[0x5A, 0xEE, 0x12, 0x34, 0x01, 0x80, 0xF0, 0x0F], in0 := 0x0F }

/-- The cache of the start state S0. -/
def cacheS0 : Cache := { config := ⟨0xFF, 0xFF⟩, polarity := ⟨0, 0⟩, output := ⟨0xFF, 0xFF⟩, lastInputState := 0 }

/-- The cache after INIT in vector L1-3. -/
def cacheL3 : Cache := { config := ⟨0xFF, 0⟩, polarity := ⟨0x03, 0⟩, output := ⟨0, 0xA5⟩, lastInputState := 0xA50C }

/-- Port 0's command `w` in execution, with `n` transactions completed. -/
def running (w : Word) (n : Nat) (initialized : Bool) (c : Cache) (answers : List BusAnswer) : State :=
  { State.constructed params 2 with
    initialized := initialized
    cache := c
    lock := .held 0
    phase := .exec { port := 0, word := w, done := n, scratch := scratch }
    ports := [.busy w, .idle]
    answers := answers }

/-- Port `k`'s response, its data registers and the newest bus event, after a step. -/
structure Seen where
  /-- The response. -/
  response : Option (Status × Word)
  /-- The cache, none before the first INIT. -/
  view : Option Cache
  /-- The requests of the events, newest first. -/
  requests : List BusRequest
deriving DecidableEq, Repr

/-- What a step leaves, for the tests. -/
def seen (o : Host.Outcome State Fault Refusal) : Option Seen :=
  match o with
  | .next t =>
    some { response := (t.ports[0]?).bind Port.response?, view := t.view, requests := t.log.filterMap Event.request? }
  | .fault _ => none
  | .refused _ => none

/-- The eighth read of vector I-6. -/
theorem test_init_commits :
    seen (step (running 0x1000 7 false cacheS0 [.reply (.ok 0x3C)])) =
      some { response := some (.ok, 0)
             view := some { config := ⟨0xF0, 0x0F⟩, polarity := ⟨0x01, 0x80⟩, output := ⟨0x12, 0x34⟩
                            lastInputState := 0x3C52 }
             requests := [.rd ⟨4, 5⟩ 0x20 1] } := by decide

/-- The eighth read of vector I-3. -/
theorem test_init_fails :
    seen (step (running 0x1000 7 false cacheS0 [.reply .err])) =
      some { response := some (.busError, 0), view := none, requests := [.rd ⟨4, 5⟩ 0x20 1] } := by decide

/-- Vector SD-2. -/
theorem test_setdir :
    seen (step (running 0x200F 0 true { cacheS0 with config := ⟨0xFE, 0xFF⟩ } [.reply (.ok 0)])) =
      some { response := some (.ok, 0), view := some { cacheS0 with config := ⟨0xFE, 0x7F⟩ }
             requests := [.wr ⟨4, 5⟩ 0x20 7 0x7F] } := by decide

/-- Vector L1-6. -/
theorem test_setdir_fails :
    seen (step (running 0x2003 0 true cacheS0 [.reply .err])) =
      some { response := some (.busError, 0), view := some cacheS0, requests := [.wr ⟨4, 5⟩ 0x20 6 0xF7] } := by decide

/-- Vector SD-7, GETDIR 14. -/
theorem test_getdir :
    seen (step (running 0x300E 0 true { cacheS0 with config := ⟨0xFE, 0x7F⟩ } [])) =
      some { response := some (.ok, 1), view := some { cacheS0 with config := ⟨0xFE, 0x7F⟩ }, requests := [] } := by decide

/-- Vector SP-2. -/
theorem test_setpol :
    seen (step (running 0x410B 0 true { cacheS0 with polarity := ⟨0x08, 0⟩ } [.reply (.ok 0)])) =
      some { response := some (.ok, 0), view := some { cacheS0 with polarity := ⟨0x08, 0x08⟩ }
             requests := [.wr ⟨4, 5⟩ 0x20 5 0x08] } := by decide

/-- Vector SP-3, GETPOL 11. -/
theorem test_getpol :
    seen (step (running 0x500B 0 true { cacheS0 with polarity := ⟨0x08, 0x08⟩ } [])) =
      some { response := some (.ok, 1), view := some { cacheS0 with polarity := ⟨0x08, 0x08⟩ }, requests := [] } := by decide

/-- Vector SV-2. -/
theorem test_setval :
    seen (step (running 0x6009 0 true { cacheS0 with output := ⟨0xFB, 0xFF⟩ } [.reply (.ok 0)])) =
      some { response := some (.ok, 0), view := some { cacheS0 with output := ⟨0xFB, 0xFD⟩ }
             requests := [.wr ⟨4, 5⟩ 0x20 3 0xFD] } := by decide

/-- Vector GV-2. -/
theorem test_getval :
    seen (step (running 0x700C 0 true { cacheS0 with lastInputState := 0x0008 } [.reply (.ok 0x10)])) =
      some { response := some (.ok, 1), view := some { cacheS0 with lastInputState := 0x1008 }
             requests := [.rd ⟨4, 5⟩ 0x20 1] } := by decide

/-- Vector GV-5. -/
theorem test_getval_inverted :
    seen (step (running 0x7003 0 true { cacheS0 with polarity := ⟨0x08, 0⟩ } [.reply (.ok 0x08)])) =
      some { response := some (.ok, 0), view := some { cacheS0 with polarity := ⟨0x08, 0⟩ }
             requests := [.rd ⟨4, 5⟩ 0x20 0] } := by decide

/-- The second read of vector GS-3. -/
theorem test_getvals :
    seen (step (running 0x8000 1 true { cacheL3 with lastInputState := 0 } [.reply (.ok 0x77)])) =
      some { response := some (.ok, 0xA50C), view := some cacheL3, requests := [.rd ⟨4, 5⟩ 0x20 1] } := by decide

/-- The second read of vector GS-4. -/
theorem test_getvals_fails :
    seen (step (running 0x8000 1 true cacheS0 [.reply .err])) =
      some { response := some (.busError, 0), view := some cacheS0, requests := [.rd ⟨4, 5⟩ 0x20 1] } := by decide

/-- 93_implementation_defined.md I7: the command waits, with the lock held. -/
theorem test_hang :
    (step (running 0x1000 0 false cacheS0 [.never])
      matches .next { lock := .held 0, phase := .stuck _ (.rd _ _ 6), ports := [.busy 0x1000, .idle], .. }) = true := by
  decide

/-- 10_state.md R33, 41_config_polarity.md R95: while a set command's write is in flight, its byte is in `nb`. -/
theorem test_hang_write :
    (step (running 0x2105 0 true { cacheS0 with config := ⟨0x80, 0xFF⟩ } [.never])
      matches .next { phase := .stuck { scratch := { nb := 0xA0, .. }, .. } (.wr _ _ 6 0xA0), .. }) = true := by decide

/-- Vectors SD-10, SD-11 and DC-8: the order of the checks. -/
theorem test_precedence :
    [0x2010, 0x2203, 0x9000].map (fun w => (seen (step (State.reset.withFetchWord 16 w))).bind (·.response)) =
      [some (.notInitialized, 0), some (.illegalCommand, 0), some (.illegalCommand, 0)] := by decide

/-- A word placed after reset is executed by the very next step (vector GS-7). -/
theorem test_first_step :
    (seen (step (State.reset.withFetchWord 16 0x8000))).bind (·.response) = some (.notInitialized, 0) := by decide

/-! ## Witnesses: for each obligation, states and operands that meet its hypotheses -/

/-- An idle RBC with the given ports and moves to come. -/
def waiting (ports : List Port) (agenda : List Move) : State :=
  { State.constructed params 2 with ports := ports, agenda := agenda }

/-- A command in execution within its transactions is a well-formed state. -/
theorem running_inv {w : Word} {n : Nat} {i : Bool} {c : Cache} {as : List BusAnswer} (hn : n < stepsOf w)
    (hi : 0 < n → decode w = some .init ∨ i = true) : (running w n i c as).Inv where
  params := ⟨by simp [running], by simp [running, State.constructed, params]⟩
  idle h := by cases h
  owner e he := by
    cases he
    refine ⟨rfl, rfl, fun k v hk => ?_⟩
    match k with
    | 0 => rfl
    | 1 => cases hk
    | k + 2 => cases hk
  progress e he := by cases he; exact ⟨hn, hi⟩

theorem witness_DecodeEncodeRoundTrip : (Instr.setdir 255 true).wellFormed = true ∧ (Instr.getval 0).wellFormed = true := by
  decide

theorem witness_DecodedWordIsTheEncoding : decode 0x21FF = some (.setdir 255 true) ∧ decode 0x8000 = some .getvals := by
  decide

theorem witness_OpcodeMapMatchesDecoder :
    ⟨"SETDIR", 0x2000, 0xFE00⟩ ∈ opcodeMap ∧ OpcodeRow.matchesWord ⟨"SETDIR", 0x2000, 0xFE00⟩ 0x21FF = true ∧
      decode 0x21FF = some (.setdir 255 true) := by decide

/-- The reserved `OP` next to the last legal one. -/
theorem witness_IllegalWordEndsWithIllegalCommand :
    (running 0x9000 0 true cacheS0 []).nextMove = .sequencer ∧ decode 0x9000 = none ∧
      ∃ e, (running 0x9000 0 true cacheS0 []).phase = .exec e ∧ e.word = 0x9000 := by
  exact ⟨by decide, by decide, _, rfl, rfl⟩

/-- Both ends of the range. -/
theorem witness_PseudoInstructionsExpand :
    ((-128 : Int) ≤ -128 ∧ (-128 : Int) ≤ 255) ∧ ((-128 : Int) ≤ 255 ∧ (255 : Int) ≤ 255) := by decide

theorem witness_AssemblerSpellsLegalWords :
    ((∀ n, Source.setdir 255 1 ≠ .word n) ∧ (Source.setdir 255 1).assemble = some 0x21FF) ∧
      Source.setval ∈ [Source.setdir, Source.setpol, Source.setval] ∧
      Source.low ∈ [Source.getdir, Source.getpol, Source.getval, Source.input, Source.output, Source.invert,
        Source.normal, Source.high, Source.low] := by
  exact ⟨⟨fun _ h => (by cases h), by decide⟩, by simp, by simp⟩

theorem witness_PinIsBitOfPairWord : 15 ≤ 15 ∧ 0 ≤ 15 := by decide

theorem witness_StepRunsTheDecodedCommand :
    ((running 0x300F 0 true cacheS0 []).nextMove = .sequencer ∧ decode 0x300F = some (.getdir 15) ∧
      ∃ e, (running 0x300F 0 true cacheS0 []).phase = .exec e ∧ e.word = 0x300F) ∧
    decodeTableWord 16 0x300F = some (.getdir 15) := by
  exact ⟨⟨by decide, by decide, _, rfl, rfl⟩, by decide⟩

/-- An issue on a port that may, on one that is busy, and on the first number without a port. -/
theorem witness_IssueMakesThePortPending :
    let s := waiting [.idle, .done .ok 1] [.issue 1 0x1000]
    let u := waiting [.idle, .pending 0x8000] [.issue 1 0x1000]
    let v := waiting [.idle, .idle] [.issue 2 0x1000]
    (s.nextMove = .issue 1 0x1000 ∧ s.ports[1]? = some (.done .ok 1) ∧ (Port.done .ok 1).mayIssue = true) ∧
    (u.nextMove = .issue 1 0x1000 ∧ u.ports[1]? = some (.pending 0x8000) ∧ (Port.pending 0x8000).mayIssue = false) ∧
    (v.nextMove = .issue 2 0x1000 ∧ v.ports.length ≤ 2) := by decide

/-- For the first clause, and one step for the two others. -/
theorem witness_GrantStartsOnePendingCommand :
    ((waiting [.idle, .pending 0x1000] []).nextMove = .sequencer ∧ (waiting [.idle, .pending 0x1000] []).lock = .free ∧
      (waiting [.idle, .pending 0x1000] []).phase = .idle ∧
      (waiting [.idle, .pending 0x1000] []).ports[1]? = some (.pending 0x1000)) ∧
    (∃ t e, step (waiting [.idle, .pending 0x1000] []) = .next t ∧
      Event.grant 1 0x1000 ∈ newEvents (waiting [.idle, .pending 0x1000] []) t ∧
      (waiting [.idle, .pending 0x1000] []).phase = .idle ∧ t.phase = .exec e) := by
  exact ⟨by decide, _, _, rfl, List.mem_singleton.2 rfl, rfl, rfl⟩

theorem witness_AnyPendingPortCanBeGranted :
    let s : State := { waiting [.pending 0x6001, .pending 0x6006] [] with arb := [1] }
    s.nextMove = .sequencer ∧ s.lock = .free ∧ s.phase = .idle ∧ s.ports[1]? = some (.pending 0x6006) ∧ s.arb = 1 :: [] := by
  decide

theorem witness_ResetLeavesNothingInitialized :
    let s : State := { waiting [.idle, .idle] [.reset] with initialized := true, cache := cacheS0 }
    s.nextMove = .reset ∧ ∃ t, step s = .next t ∧ s.initialized = true ∧ t.initialized = false := by
  exact ⟨rfl, _, rfl, rfl, rfl⟩

/-- A reset, and an INIT that succeeds. -/
theorem witness_ResetIssuesNoTransaction :
    ((waiting [.idle, .idle] [.reset]).nextMove = .reset ∧ ∃ t, step (waiting [.idle, .idle] [.reset]) = .next t) ∧
    (∃ t, step (running 0x1000 7 false cacheS0 [.reply (.ok 0)]) = .next t ∧
      (running 0x1000 7 false cacheS0 [.reply (.ok 0)]).view = none ∧ t.view ≠ none) := by
  exact ⟨⟨rfl, _, rfl⟩, _, rfl, rfl, by decide⟩

/-- One state for each clause: an illegal word, an uninitialized RBC, the first pin that is too large, and the last that is
not. -/
theorem witness_ChecksComeInOrder :
    (decode 0x9000 = none) ∧ (decode 0x3010 = some (.getdir 16) ∧ Instr.getdir 16 ≠ .init) ∧
      ((Instr.getdir 16).pin? = some 16 ∧ 15 < 16) ∧
      (∀ w i, ∃ e, (running w 0 i cacheS0 []).phase = .exec e ∧ e.word = w ∧ e.done = 0 ∧
        (running w 0 i cacheS0 []).nextMove = .sequencer ∧ (running w 0 i cacheS0 []).initialized = i) ∧
      (decode 0x300F = some (.getdir 15) ∧
        ∃ t, exec (.getdir 15) (running 0x300F 0 true cacheS0 []).takeMove = .next t ∧ JustReleased t 0 .ok 1) := by
  exact ⟨by decide, by decide, by decide, fun _ _ => ⟨_, rfl, rfl, rfl, rfl, rfl⟩, by decide, _, rfl, rfl⟩

theorem witness_UninitializedCommandsEndNotInitialized :
    ∃ e, (running 0x3010 0 false cacheS0 []).phase = .exec e ∧ e.done = 0 ∧
      (running 0x3010 0 false cacheS0 []).initialized = false ∧ Instr.getdir 16 ≠ .init := by
  exact ⟨_, rfl, rfl, rfl, by decide⟩

theorem witness_InvalidPinIsReported :
    (∃ e, (running 0x3010 0 true cacheS0 []).phase = .exec e ∧ e.done = 0 ∧
      (running 0x3010 0 true cacheS0 []).initialized = true ∧ (Instr.getdir 16).pin? = some 16 ∧ 15 < 16) ∧
    (∃ t, exec .getvals (running 0x8000 0 true cacheS0 [.reply .err]) = .next t ∧ JustReleased t 0 .busError 0) := by
  exact ⟨⟨_, rfl, rfl, rfl, rfl, by decide⟩, _, rfl, rfl⟩

/-- The first read and the seventh. -/
theorem witness_InitStagesEachRead :
    (∃ e, (running 0x1000 0 false cacheS0 [.reply (.ok 7)]).phase = .exec e ∧ e.done < 7 ∧
      (running 0x1000 0 false cacheS0 [.reply (.ok 7)]).InitAllowed ∧
      ([6, 7, 4, 5, 2, 3, 0] : List (BitVec 3))[e.done]? = some 6 ∧
      (running 0x1000 0 false cacheS0 [.reply (.ok 7)]).nextReply = some (.ok 7)) ∧
    (∃ e, (running 0x1000 6 false cacheS0 [.reply (.ok 7)]).phase = .exec e ∧ e.done < 7 ∧
      ([6, 7, 4, 5, 2, 3, 0] : List (BitVec 3))[e.done]? = some 0 ∧
      (running 0x1000 6 false cacheS0 [.reply (.ok 7)]).nextReply = some (.ok 7)) := by
  exact ⟨⟨_, rfl, by decide, fun _ => rfl, rfl, rfl⟩, _, rfl, by decide, rfl, rfl⟩

theorem witness_InitCommitsTheWholeCache :
    ∃ e, (running 0x1000 7 false cacheS0 [.reply (.ok 7)]).phase = .exec e ∧ e.done = 7 ∧
      (running 0x1000 7 false cacheS0 [.reply (.ok 7)]).nextReply = some (.ok 7) := by
  exact ⟨_, rfl, rfl, rfl⟩

/-- A second INIT. -/
theorem witness_InitRunSeedsTheCache :
    let answers : List BusAnswer :=
      [.reply (.ok 0xF0), .reply (.ok 0x0F), .reply (.ok 1), .reply (.ok 0x80), .reply (.ok 0x12), .reply (.ok 0x34),
        .reply (.ok 0x5A), .reply (.ok 0x3C)]
    ∃ e, (running 0x1000 0 true cacheS0 answers).phase = .exec e ∧ e.done = 0 ∧ decode e.word = some .init ∧
      (running 0x1000 0 true cacheS0 answers).agenda = [] ∧ (running 0x1000 0 true cacheS0 answers).InitAllowed ∧
      (running 0x1000 0 true cacheS0 answers).answers = answers ++ [] := by
  exact ⟨_, rfl, rfl, by decide, rfl, fun _ => rfl, rfl⟩

/-- The first read of a second INIT and the eighth; and a step that goes on. -/
theorem witness_FailedInitCommitsNothing :
    (∃ e, (running 0x1000 0 true cacheS0 [.reply .err]).phase = .exec e ∧
      (running 0x1000 0 true cacheS0 [.reply .err]).InitAllowed ∧
      ([6, 7, 4, 5, 2, 3, 0, 1] : List (BitVec 3))[e.done]? = some 6 ∧
      (running 0x1000 0 true cacheS0 [.reply .err]).nextReply = some .err) ∧
    (∃ e, (running 0x1000 7 false cacheS0 [.reply .err]).phase = .exec e ∧ e.done ≠ 0 ∧
      ([6, 7, 4, 5, 2, 3, 0, 1] : List (BitVec 3))[e.done]? = some 1 ∧
      (running 0x1000 7 false cacheS0 [.reply .err]).nextReply = some .err) ∧
    (∃ t, exec .init (running 0x1000 0 false cacheS0 [.reply (.ok 7)]) = .next t ∧ ∀ k d, ¬ JustReleased t k .ok d) := by
  refine ⟨⟨_, rfl, fun _ => rfl, rfl, rfl⟩, ⟨_, rfl, by decide, rfl, rfl⟩, _, rfl, ?_⟩
  intro k d h
  cases h

theorem witness_SecondInitIsRefusedOnlyUnderRefuse :
    let s : State := { running 0x1000 0 true cacheS0 [] with params := { params with reinit := .refuse } }
    (∃ e, s.phase = .exec e ∧ e.done = 0) ∧ s.initialized = true ∧ s.params.reinit = .refuse ∧
      exec .init s = .refused .secondInit := by
  exact ⟨⟨_, rfl, rfl⟩, rfl, rfl, rfl⟩

/-- The last pin, with each answer. -/
theorem witness_SetCommandWritesTheOwningByte :
    ∀ r : BusReply, ∃ e, (running 0x200F 0 true cacheS0 [.reply r]).phase = .exec e ∧ e.done = 0 ∧
      (running 0x200F 0 true cacheS0 [.reply r]).initialized = true ∧ 15 ≤ 15 ∧
      (running 0x200F 0 true cacheS0 [.reply r]).nextReply = some r := by
  exact fun _ => ⟨_, rfl, rfl, rfl, by decide, rfl⟩

/-- A set command that ends with `OK`, and one that does not. -/
theorem witness_SetCommandChangesOneBit :
    (∃ t, exec (PairName.output.setInstr 15 false) (running 0x600F 0 true cacheS0 [.reply (.ok 0)]) = .next t) ∧
    (∃ t, exec (PairName.output.setInstr 15 false) (running 0x600F 0 true cacheS0 [.reply .err]) = .next t ∧
      JustReleased t 0 .busError 0) := by
  exact ⟨⟨_, rfl⟩, _, rfl, rfl⟩

theorem witness_SetCommandIsIdempotentOnTheCache :
    ∃ t u', exec (PairName.output.setInstr 15 false) (running 0x600F 0 true cacheS0 [.reply (.ok 0)]) = .next t ∧
      JustReleased t 0 .ok 0 ∧
      SameRegisters t (running 0x600F 0 true { cacheS0 with output := ⟨0xFF, 0x7F⟩ } [.reply (.ok 0)]) ∧
      exec (PairName.output.setInstr 15 false)
        (running 0x600F 0 true { cacheS0 with output := ⟨0xFF, 0x7F⟩ } [.reply (.ok 0)]) = .next u' := by
  exact ⟨_, _, rfl, rfl, ⟨by decide, rfl⟩, rfl⟩

/-- Vector L1-5. -/
theorem witness_SetValuePassesThroughToTheOutput :
    let u := running 0x2002 0 true { cacheS0 with output := ⟨0xFB, 0xFF⟩ } [.reply (.ok 0)]
    let x := running 0x7002 0 true { cacheS0 with output := ⟨0xFB, 0xFF⟩, config := ⟨0xFB, 0xFF⟩ } []
    ∃ t u' e, exec (.setval 2 false) (running 0x6002 0 true cacheS0 [.reply (.ok 0)]) = .next t ∧ JustReleased t 0 .ok 0 ∧
      SameRegisters t u ∧ exec (.setdir 2 false) u = .next u' ∧ JustReleased u' 0 .ok 0 ∧ SameRegisters u' x ∧
      x.phase = .exec e ∧ e.done = 0 := by
  exact ⟨_, _, _, rfl, rfl, ⟨by decide, rfl⟩, rfl, rfl, ⟨by decide, rfl⟩, rfl, rfl⟩

/-- The last pin. -/
theorem witness_GetDirectionAndPolarityAnswerFromTheCache :
    ∃ e, (running 0x300F 0 true cacheS0 []).phase = .exec e ∧ e.done = 0 ∧
      (running 0x300F 0 true cacheS0 []).initialized = true ∧ 15 ≤ 15 := by
  exact ⟨_, rfl, rfl, rfl, by decide⟩

/-- One state for each clause. -/
theorem witness_GetAnswersWhatWasSet :
    (∃ t e, 15 ≤ 15 ∧ exec (.setdir 15 false) (running 0x200F 0 true cacheS0 [.reply (.ok 0)]) = .next t ∧
      JustReleased t 0 .ok 0 ∧ SameRegisters t (running 0x300F 0 true { cacheS0 with config := ⟨0xFF, 0x7F⟩ } []) ∧
      (running 0x300F 0 true { cacheS0 with config := ⟨0xFF, 0x7F⟩ } []).phase = .exec e ∧ e.done = 0) ∧
    (∃ t e, 15 ≤ 15 ∧ exec (.setpol 15 true) (running 0x410F 0 true cacheS0 [.reply (.ok 0)]) = .next t ∧
      JustReleased t 0 .ok 0 ∧ SameRegisters t (running 0x500F 0 true { cacheS0 with polarity := ⟨0, 0x80⟩ } []) ∧
      (running 0x500F 0 true { cacheS0 with polarity := ⟨0, 0x80⟩ } []).phase = .exec e ∧ e.done = 0) := by
  exact ⟨⟨_, _, by decide, rfl, rfl, ⟨by decide, rfl⟩, rfl, rfl⟩, _, _, by decide, rfl, rfl, ⟨by decide, rfl⟩, rfl, rfl⟩

/-- An input pin with each answer, and an output pin. -/
theorem witness_GetValueReportsTheEffectiveLevel :
    (∀ r : BusReply, ∃ e, (running 0x7000 0 true cacheL3 [.reply r]).phase = .exec e ∧ e.done = 0 ∧
      (running 0x7000 0 true cacheL3 [.reply r]).initialized = true ∧ 0 ≤ 15 ∧
      (running 0x7000 0 true cacheL3 [.reply r]).cache.config.word.getLsbD 0 = true ∧
      (running 0x7000 0 true cacheL3 [.reply r]).nextReply = some r) ∧
    (∃ e, (running 0x700F 0 true cacheL3 []).phase = .exec e ∧ e.done = 0 ∧
      (running 0x700F 0 true cacheL3 []).initialized = true ∧ 15 ≤ 15 ∧
      (running 0x700F 0 true cacheL3 []).cache.config.word.getLsbD 15 = false) := by
  have input : cacheL3.config.word.getLsbD 0 = true := by decide
  exact ⟨fun _ => ⟨_, rfl, rfl, rfl, by decide, input, rfl⟩, _, rfl, rfl, rfl, by decide, by decide⟩

/-- Both reads, with each answer. -/
theorem witness_GetValuesComposesAllPins :
    ∀ (r : BusReply) (n : Nat), n ≤ 1 → ∃ e, (running 0x8000 n true cacheL3 [.reply r]).phase = .exec e ∧
      (running 0x8000 n true cacheL3 [.reply r]).initialized = true ∧ e.done = n ∧
      (running 0x8000 n true cacheL3 [.reply r]).nextReply = some r := by
  exact fun _ _ _ => ⟨_, rfl, rfl, rfl, rfl⟩

/-- The last pin of each byte, with GETVALS at its start and at its second step. -/
theorem witness_GetValuesAgreesWithGetValue :
    let s := running 0x8000 0 true cacheL3 [.reply (.ok 0x0F), .reply (.ok 0x77)]
    let s1 := running 0x8000 1 true cacheL3 [.reply (.ok 0x77)]
    ∃ e e1, (s.phase = .exec e ∧ e.done = 0 ∧ decode e.word = some .getvals ∧ s.agenda = [] ∧
        s.answers = .reply (.ok 0x0F) :: .reply (.ok 0x77) :: []) ∧
      (s1.phase = .exec e1 ∧ e1.done = 1 ∧ e1.scratch.in0 = 0x0F ∧ s1.nextReply = some (.ok 0x77)) ∧
      ∀ p : Nat, p = 7 ∨ p = 15 →
        let u := running (0x7000 + BitVec.ofNat 16 p) 0 true cacheL3 [.reply (.ok (if p < 8 then 0x0F else 0x77))]
        p ≤ 15 ∧ s.initialized = true ∧ SameRegisters s u ∧ SameRegisters s1 u ∧ u.params = s.params ∧
          u.params = s1.params ∧ (∃ f, u.phase = .exec f ∧ f.done = 0) ∧
          u.nextReply = some (.ok (if p < 8 then 0x0F else 0x77)) := by
  exact ⟨_, _, ⟨rfl, rfl, by decide, rfl, rfl⟩, ⟨rfl, rfl, rfl, rfl⟩, fun p hp =>
    ⟨by omega, rfl, ⟨rfl, rfl⟩, ⟨rfl, rfl⟩, rfl, rfl, ⟨_, rfl, rfl⟩, rfl⟩⟩

/-- Two states that differ in the polarity and in the raw level of output pins 8 to 15. -/
theorem witness_OutputPinsIgnorePolarityAndRawInput :
    let s := running 0x8000 1 true cacheL3 [.reply (.ok 0x77)]
    let u := running 0x8000 1 true { cacheL3 with polarity := ⟨0x03, 0xFF⟩ } [.reply (.ok 0x88)]
    ∃ e f, s.initialized = true ∧ u.initialized = true ∧ s.params = u.params ∧ s.phase = .exec e ∧ e.done = 1 ∧
      s.nextReply = some (.ok 0x77) ∧ u.phase = .exec f ∧ f.done = 1 ∧ u.nextReply = some (.ok 0x88) ∧
      s.cache.config = u.cache.config ∧ s.cache.output = u.cache.output ∧
      (∀ q, q ≤ 15 → s.cache.config.word.getLsbD q = true →
        s.cache.polarity.word.getLsbD q = u.cache.polarity.word.getLsbD q ∧
        ((0x77 : Byte) ++ e.scratch.in0).getLsbD q = ((0x88 : Byte) ++ f.scratch.in0).getLsbD q) := by
  exact ⟨_, _, rfl, rfl, rfl, rfl, rfl, rfl, rfl, rfl, rfl, rfl, rfl, by decide⟩

/-- A step that goes on, one that ends without a transaction, one that ends with one, and one that waits. -/
theorem witness_CommandStepGoesOnOrEnds :
    (∃ e t, (running 0x8000 0 true cacheS0 [.reply (.ok 7)]).phase = .exec e ∧
      exec .getvals (running 0x8000 0 true cacheS0 [.reply (.ok 7)]) = .next t) ∧
    (∃ e t, (running 0x3000 0 true cacheS0 []).phase = .exec e ∧ exec (.getdir 0) (running 0x3000 0 true cacheS0 []) = .next t) ∧
    (∃ e t, (running 0x2000 0 true cacheS0 [.reply .err]).phase = .exec e ∧
      exec (.setdir 0 false) (running 0x2000 0 true cacheS0 [.reply .err]) = .next t) ∧
    (∃ e t, (running 0x2000 0 true cacheS0 [.never]).phase = .exec e ∧
      exec (.setdir 0 false) (running 0x2000 0 true cacheS0 [.never]) = .next t) := by
  exact ⟨⟨_, _, rfl, rfl⟩, ⟨_, _, rfl, rfl⟩, ⟨_, _, rfl, rfl⟩, _, _, rfl, rfl⟩

/-- A step that changes a register, and one that ends a command with an error. -/
theorem witness_CommandsAreAllOrNothing :
    (∃ t, step (running 0x2000 0 true cacheS0 [.reply (.ok 0)]) = .next t ∧
      (running 0x2000 0 true cacheS0 [.reply (.ok 0)]).nextMove ≠ .reset ∧
      ¬ SameRegisters (running 0x2000 0 true cacheS0 [.reply (.ok 0)]) t) ∧
    (∃ e t, step (running 0x2000 0 true cacheS0 [.reply .err]) = .next t ∧
      (running 0x2000 0 true cacheS0 [.reply .err]).nextMove = .sequencer ∧
      (running 0x2000 0 true cacheS0 [.reply .err]).phase = .exec e ∧ JustReleased t 0 .busError 0 ∧ Status.busError ≠ .ok) := by
  refine ⟨⟨_, rfl, by decide, ?_⟩, _, _, rfl, rfl, rfl, rfl, by decide⟩
  intro h
  exact absurd h.1 (by decide)

/-- An INIT that sets `initialized`, a command that runs while it is set, and a reset that clears it. -/
theorem witness_OnlyInitSetsInitialized :
    (∃ t, step (running 0x1000 7 false cacheS0 [.reply (.ok 0)]) = .next t ∧
      (running 0x1000 7 false cacheS0 [.reply (.ok 0)]).initialized = false ∧ t.initialized = true) ∧
    (∃ t, exec (.getdir 0) (running 0x3000 0 true cacheS0 []) = .next t ∧
      (running 0x3000 0 true cacheS0 []).initialized = true) ∧
    (let s : State := { running 0x3000 0 true cacheS0 [] with agenda := [.reset] }
      ∃ t, step s = .next t ∧ s.initialized = true ∧ t.initialized = false) := by
  exact ⟨⟨_, rfl, rfl, rfl⟩, ⟨_, rfl, rfl⟩, _, rfl, rfl, rfl⟩

/-- A step with a transaction. -/
theorem witness_ParametersAreFixedAndSent :
    ∃ t, step (running 0x2000 0 true cacheS0 [.reply (.ok 0)]) = .next t ∧
      BusRequest.wr ⟨4, 5⟩ 0x20 6 0xFE ∈
        (newEvents (running 0x2000 0 true cacheS0 [.reply (.ok 0)]) t).filterMap Event.request? := by
  exact ⟨_, rfl, by decide⟩

theorem witness_LisOutChangesOnlyAtRelease :
    ∃ t, step (running 0x7003 0 true cacheS0 [.reply (.ok 8)]) = .next t ∧
      t.lisOut ≠ (running 0x7003 0 true cacheS0 [.reply (.ok 8)]).lisOut ∧
      (running 0x7003 0 true cacheS0 [.reply (.ok 8)]).nextMove ≠ .reset := by
  exact ⟨_, rfl, by decide, by decide⟩

/-- A command that ends with `OK`, and one that does not. -/
theorem witness_ResponseDataHasItsShape :
    (∃ e t, (running 0x300F 0 true cacheS0 []).phase = .exec e ∧
      exec (.getdir 15) (running 0x300F 0 true cacheS0 []) = .next t ∧ JustReleased t 0 .ok 1) ∧
    (∃ e t, (running 0x3010 0 true cacheS0 []).phase = .exec e ∧
      exec (.getdir 16) (running 0x3010 0 true cacheS0 []) = .next t ∧ JustReleased t 0 .invalidPin 0) := by
  exact ⟨⟨_, _, rfl, rfl, rfl⟩, _, _, rfl, rfl, rfl⟩

/-- The least index and the greatest. -/
theorem witness_OnlyInitReadsTheCachedRegisters :
    (∃ t, step (running 0x1000 4 false cacheS0 [.reply (.ok 0)]) = .next t ∧
      BusRequest.rd ⟨4, 5⟩ 0x20 2 ∈
        (newEvents (running 0x1000 4 false cacheS0 [.reply (.ok 0)]) t).filterMap Event.request? ∧
      2 ≤ (2 : BitVec 3).toNat) ∧
    (∃ t, step (running 0x1000 1 false cacheS0 [.reply (.ok 0)]) = .next t ∧
      BusRequest.rd ⟨4, 5⟩ 0x20 7 ∈
        (newEvents (running 0x1000 1 false cacheS0 [.reply (.ok 0)]) t).filterMap Event.request? ∧
      2 ≤ (7 : BitVec 3).toNat) := by
  exact ⟨⟨_, rfl, by decide, by decide⟩, _, rfl, by decide, by decide⟩

/-- A step with a request that is answered, one with a request that never is, and one without. -/
theorem witness_StepIssuesTheListedRequest :
    (∃ t, step (running 0x200F 0 true cacheS0 [.reply (.ok 0)]) = .next t ∧
      (running 0x200F 0 true cacheS0 [.reply (.ok 0)]).nextRequest = some (.wr ⟨4, 5⟩ 0x20 7 0x7F) ∧
      (running 0x200F 0 true cacheS0 [.reply (.ok 0)]).nextReply = some (.ok 0)) ∧
    (∃ t, step (running 0x200F 0 true cacheS0 [.never]) = .next t ∧
      (running 0x200F 0 true cacheS0 [.never]).nextRequest = some (.wr ⟨4, 5⟩ 0x20 7 0x7F) ∧
      (running 0x200F 0 true cacheS0 [.never]).nextReply = none) ∧
    (∃ t, step (running 0x300F 0 true cacheS0 []) = .next t ∧ (running 0x300F 0 true cacheS0 []).nextRequest = none) := by
  exact ⟨⟨_, rfl, by decide, rfl⟩, ⟨_, rfl, by decide, rfl⟩, _, rfl, by decide⟩

theorem witness_CommandsDoNotInterleave :
    (running 0x8000 0 true cacheS0 [.reply (.ok 0)]).Inv ∧
      (∃ e, (running 0x8000 0 true cacheS0 [.reply (.ok 0)]).phase.exec? = some e) ∧
      (∃ t, step (running 0x8000 0 true cacheS0 [.reply (.ok 0)]) = .next t) ∧
      (running 0x8000 0 true cacheS0 [.reply (.ok 0)]).nextMove ≠ .reset := by
  exact ⟨running_inv (by decide) (by decide), ⟨_, rfl⟩, ⟨_, rfl⟩, by decide⟩

/-- Each clause, the second one at the first n past the last transaction. -/
theorem witness_MeaningsStopWhereTheSpecHasNoStep :
    (∀ e, State.reset.phase ≠ .exec e) ∧
      (∃ e, (running 0x1000 8 true cacheS0 []).phase = .exec e ∧ 8 ≤ e.done) ∧
      (∃ e, (running 0x8000 2 true cacheS0 []).phase = .exec e ∧ 2 ≤ e.done) ∧
      (∃ e, (running 0x3000 1 true cacheS0 []).phase = .exec e ∧ 1 ≤ e.done) ∧
      exec .getvals (running 0x8000 1 false cacheS0 [.reply (.ok 0)]) = .fault .cacheReadBeforeWrite ∧
      exec .getvals (running 0x8000 1 false cacheS0 [.reply .err]) ≠ .fault .cacheReadBeforeWrite := by
  exact ⟨fun _ h => (by cases h), ⟨_, rfl, by decide⟩, ⟨_, rfl, by decide⟩, ⟨_, rfl, by decide⟩, rfl, fun h => (by cases h)⟩

/-- A GETVALS that waits for its first read, with another port idle. -/
def stuck (agenda : List Move) : State :=
  { running 0x8000 0 true cacheS0 [] with
    phase := .stuck { port := 0, word := 0x8000, done := 0, scratch := scratch } (.rd ⟨4, 5⟩ 0x20 0)
    agenda := agenda }

/-- The step that begins the wait; then a move of the sequencer, an issue and a reset. -/
theorem witness_UnansweredTransactionLeavesTheSequencerStuck :
    ((running 0x8000 0 true cacheS0 [.never]).nextRequest = some (.rd ⟨4, 5⟩ 0x20 0) ∧
      (running 0x8000 0 true cacheS0 [.never]).nextReply = none) ∧
    (∀ agenda, ∃ e req, (stuck agenda).phase = .stuck e req) ∧
    ((stuck []).nextMove = .sequencer ∧ (∃ t, step (stuck []) = .next t) ∧ (stuck []).nextMove ≠ .reset ∧
      (stuck []).ports[0]? = some (.busy 0x8000) ∧ (Port.busy 0x8000).mayIssue = false) ∧
    ((stuck [.issue 1 0x1000]).nextMove = .issue 1 0x1000 ∧ (stuck [.issue 1 0x1000]).ports[1]? = some .idle ∧
      Port.idle.mayIssue = true) ∧
    (stuck [.reset]).nextMove = .reset := by
  exact ⟨by decide, fun _ => ⟨_, _, rfl⟩, ⟨by decide, ⟨_, rfl⟩, by decide, by decide, by decide⟩, by decide, by decide⟩

theorem witness_ConstructedStateIsWellFormed : 0 < params.busId.width ∧ 0 < 1 := by decide

theorem witness_StepKeepsWellFormedStates :
    (running 0x1000 6 false cacheS0 [.reply (.ok 0)]).Inv ∧
      ∃ t, step (running 0x1000 6 false cacheS0 [.reply (.ok 0)]) = .next t := by
  exact ⟨running_inv (by decide) (by decide), _, rfl⟩

/-- A state that steps, and one for each refusal. -/
theorem witness_WellFormedStateDoesNotFault :
    let s := running 0x8000 1 true cacheS0 [.never]
    let u : State := { s with agenda := [.issue 0 0x1000] }
    let v : State := { running 0x1000 0 true cacheS0 [] with params := { params with reinit := .refuse } }
    s.Inv ∧ (u.Inv ∧ step u = .refused .portBusy) ∧ (v.Inv ∧ step v = .refused .secondInit) := by
  have hs : (running 0x8000 1 true cacheS0 [.never]).Inv := running_inv (by decide) (by decide)
  have hv : (running 0x1000 0 true cacheS0 []).Inv := running_inv (by decide) (by decide)
  exact ⟨hs, ⟨⟨hs.params, hs.idle, hs.owner, hs.progress⟩, rfl⟩, ⟨hv.params, hv.idle, hv.owner, hv.progress⟩, rfl⟩

theorem witness_GrantedCommandEndsWithinEightSteps :
    (running 0x1000 0 false cacheS0 [.reply (.ok 1)]).Inv ∧
      (running 0x1000 0 false cacheS0 [.reply (.ok 1)]).FiniteResponse ∧
      (running 0x1000 0 false cacheS0 [.reply (.ok 1)]).agenda = [] ∧
      (running 0x1000 0 false cacheS0 [.reply (.ok 1)]).params.reinit = .reseed ∧
      ∃ e, (running 0x1000 0 false cacheS0 [.reply (.ok 1)]).phase = .exec e := by
  refine ⟨running_inv (by decide) (by decide), ?_, rfl, rfl, _, rfl⟩
  simp [State.FiniteResponse, running]

/-- Two ports pending, none in execution. -/
theorem witness_EveryPendingCommandCompletes :
    (waiting [.pending 0x1000, .pending 0x8000] []).Inv ∧
      (waiting [.pending 0x1000, .pending 0x8000] []).FiniteResponse ∧
      (waiting [.pending 0x1000, .pending 0x8000] []).agenda = [] ∧
      (waiting [.pending 0x1000, .pending 0x8000] []).params.reinit = .reseed := by
  refine ⟨⟨by decide, fun _ => ⟨rfl, fun k w h => ?_⟩, fun e he => (by cases he), fun e he => (by cases he)⟩, ?_, rfl, rfl⟩
  · match k with
    | 0 => cases h
    | 1 => cases h
    | k + 2 => cases h
  · simp [State.FiniteResponse, waiting, State.constructed]

/-- An INIT that has read one byte, before a second read that is answered and before one that never is. -/
theorem witness_StepKeepsRunLinear :
    ∀ a : BusAnswer,
      let s : State :=
        { running 0x1000 1 false Cache.unwritten [a] with
          log := [.bus (.rd ⟨4, 5⟩ 0x20 6) (.ok 0xF0), .grant 0 0x1000, .issue 0 0x1000] }
      s.Linear ∧ ∃ t, step s = .next t := by
  have replayed : replay params 2 [.bus (.rd ⟨4, 5⟩ 0x20 6) (.ok 0xF0), .grant 0 0x1000, .issue 0 0x1000] =
      { cache := none, ports := [.busy 0x1000, .idle], current := some (0, 0x1000, [.ok 0xF0]), hung := none
        agrees := true } := by decide
  have taken : Exec.taken { port := 0, word := 0x1000, done := 1, scratch := scratch } = [0xF0] := by decide
  intro a
  refine ⟨⟨congrArg (·.agrees) replayed, congrArg (·.cache) replayed, congrArg (·.ports) replayed,
    (congrArg (·.current) replayed).trans ?_, congrArg (·.hung) replayed⟩, ?_⟩
  · exact (congrArg (fun l : List Byte => some (0, (0x1000 : Word), l.map BusReply.ok)) taken).symm
  · match a with
    | .reply (.ok _) => exact ⟨_, rfl⟩
    | .reply .err => exact ⟨_, rfl⟩
    | .never => exact ⟨_, rfl⟩

/-- S0 with a set command in execution. -/
theorem witness_MockStepKeepsCoherence :
    let m : Mock :=
      { rbc := running 0x2003 0 true cacheS0 [], dev := #v[0, 0, 0xFF, 0xFF, 0, 0, 0xFF, 0xFF], fail := [9], count := 8 }
    m.Coherent ∧ ∃ m', m.step = .next m' := by
  refine ⟨⟨fun c hc => (by cases hc; decide), fun e he hd => ?_⟩, _, rfl⟩
  cases he
  exact absurd hd (by decide)

end Sys2Proof.Tests
end

section
/-! The proofs of the statements of 00_scope.md: pins as bits of a pair word (R9), and commands that are all or nothing
(R13). -/

namespace Sys2Proof.Machine

open State

/-! ## Pins -/

/-- Bit 3 of a valid pin's number is its register index. -/
theorem toNat_extractLsb'_pin_reg {p : Nat} (hp : p ≤ 15) : ((BitVec.ofNat 8 p).extractLsb' 3 1).toNat = p / 8 := by
  simp only [BitVec.extractLsb'_toNat, BitVec.toNat_ofNat, Nat.shiftRight_eq_div_pow]
  omega

/-- Bits 2:0 of a pin's number are its bit offset. -/
theorem toNat_extractLsb'_pin_bit (p : Nat) : ((BitVec.ofNat 8 p).extractLsb' 0 3).toNat = p % 8 := by
  simp only [BitVec.extractLsb'_toNat, BitVec.toNat_ofNat, Nat.shiftRight_zero]
  omega

/-- Settles O8: the two fields of the pin number are arithmetic, and the pair word is the model's `Pair.word`. -/
theorem pinIsBitOfPairWord : Obligations.PinIsBitOfPairWord := by
  intro p hp
  exact ⟨rfl, (toNat_extractLsb'_pin_reg hp).symm, rfl, (toNat_extractLsb'_pin_bit p).symm,
    fun x => ⟨rfl, pin_eq_getLsbD_word x p hp⟩⟩

/-! ## Commands are all or nothing -/

/-- The three ways a step of a command leaves the registers: a response with `OK`, the only one that may write them; an
error, with the registers kept; and no ending, with the registers kept too. -/
theorem exec_ok_or_keeps_registers {i : Instr} {s t : State} (h : exec i s = .next t) :
    (∃ (u : State) (e : Exec) (d : Word), t = u.respond e d) ∨
    (∃ (u : State) (e : Exec) (st : Status), SameRegisters s u ∧ t = u.raise e st) ∨
    (SameRegisters s t ∧ ∀ k st d, ¬ JustReleased t k st d) := by
  obtain ⟨e, -, hcases⟩ := exec_next h
  rcases hcases with ⟨-, -, -, rfl⟩ | ⟨-, -, -, -, -, rfl⟩ | ⟨d, -, -, rfl, -⟩ | ⟨req, -, rfl⟩ | ⟨req, b, sc, -, rfl⟩ |
    ⟨req, b, c, ini, d, -, -, -, rfl⟩ | ⟨req, -, rfl⟩
  · exact .inr (.inl ⟨s, e, _, ⟨rfl, rfl⟩, rfl⟩)
  · exact .inr (.inl ⟨s, e, _, ⟨rfl, rfl⟩, rfl⟩)
  · exact .inl ⟨s, e, d, rfl⟩
  · exact .inr (.inl ⟨s.answered req .err, e, _, ⟨rfl, rfl⟩, rfl⟩)
  · exact .inr (.inr ⟨⟨rfl, rfl⟩, not_justReleased_advance s req _ e sc⟩)
  · exact .inl ⟨_, e, d, rfl⟩
  · exact .inr (.inr ⟨⟨rfl, rfl⟩, not_justReleased_hang s _ req⟩)

/-- The same three ways for every step but a reset. Outside `Exec` a move that changes nothing leaves the log as it was, so
that there its newest event may be an earlier release. -/
theorem step_ok_or_keeps_registers {s t : State} (h : step s = .next t) (hreset : s.nextMove ≠ .reset) :
    (∃ (u : State) (e : Exec) (d : Word), t = u.respond e d) ∨
    (∃ (u : State) (e : Exec) (st : Status), SameRegisters s u ∧ t = u.raise e st) ∨
    (SameRegisters s t ∧ ∀ e, s.phase = .exec e → ∀ k st d, ¬ JustReleased t k st d) := by
  rcases step_next h with ⟨k, w, p, -, -, -, rfl⟩ | ⟨hm, -⟩ | ⟨-, hp, rfl⟩ | ⟨k, w, -, -, -, -, rfl⟩ |
    ⟨e, -, -, -, rfl⟩ | ⟨e, i, -, -, -, hexec⟩ | ⟨e, req, -, hp, rfl⟩
  · exact .inr (.inr ⟨⟨rfl, rfl⟩, by simp [JustReleased]⟩)
  · exact absurd hm hreset
  · exact .inr (.inr ⟨⟨rfl, rfl⟩, by simp [hp]⟩)
  · exact .inr (.inr ⟨⟨rfl, rfl⟩, by simp [JustReleased]⟩)
  · exact .inr (.inl ⟨s.takeMove, e, _, ⟨rfl, rfl⟩, rfl⟩)
  · obtain hok | hraise | ⟨hsame, hnone⟩ := exec_ok_or_keeps_registers hexec
    · exact .inl hok
    · exact .inr (.inl hraise)
    · exact .inr (.inr ⟨hsame, fun _ _ => hnone⟩)
  · exact .inr (.inr ⟨⟨rfl, rfl⟩, by simp [hp]⟩)

/-- A step other than a reset that changes a data register latches `OK`. -/
theorem step_changes_registers_only_with_ok {s t : State} (h : step s = .next t) (hreset : s.nextMove ≠ .reset)
    (hchanged : ¬ SameRegisters s t) : ∃ k d, JustReleased t k .ok d := by
  obtain ⟨u, e, d, rfl⟩ | ⟨u, e, st, hsame, rfl⟩ | ⟨hsame, -⟩ := step_ok_or_keeps_registers h hreset
  · exact ⟨e.port, d, rfl⟩
  · exact absurd hsame hchanged
  · exact absurd hsame hchanged

/-- A command that ends with another status than `OK` answers data 0, keeps the registers and releases the lock. -/
theorem step_release_not_ok {s t : State} {e : Exec} {k : Nat} {st : Status} {d : Word} (h : step s = .next t)
    (hm : s.nextMove = .sequencer) (hp : s.phase = .exec e) (hrel : JustReleased t k st d) (hst : st ≠ .ok) :
    d = 0 ∧ SameRegisters s t ∧ t.lock = .free ∧ t.phase = .idle := by
  obtain ⟨u, e', d', rfl⟩ | ⟨u, e', st', hsame, rfl⟩ | ⟨-, hnone⟩ := step_ok_or_keeps_registers h (by simp [hm])
  · obtain ⟨-, hok, -⟩ := (justReleased_respond ..).1 hrel
    exact absurd hok.symm hst
  · obtain ⟨-, -, hd⟩ := (justReleased_raise ..).1 hrel
    exact ⟨hd.symm, hsame, rfl, rfl⟩
  · exact absurd hrel (hnone e hp k st d)

/-- Settles O35, from the three ways a step leaves the registers. -/
theorem commandsAreAllOrNothing : Obligations.CommandsAreAllOrNothing :=
  fun _ _ h => ⟨step_changes_registers_only_with_ok h, fun _ _ _ _ => step_release_not_ok h⟩

end Sys2Proof.Machine
end

section
/-! The proofs of the statements of 20_memory.md: a grant takes the lock for one pending port and starts its command
(R53). -/

namespace Sys2Proof.Machine

/-! ## The events of a step -/

/-- What a step puts before the old log is what it recorded. -/
theorem newEvents_of_log_eq_append {s t : State} {evs : List Event} (h : t.log = evs ++ s.log) : newEvents s t = evs := by
  simp [newEvents, h]

/-- A step of a command adds events to the log, and no grant is among them. -/
theorem exec_records_no_grant {i : Instr} {s t : State} (h : exec i s = .next t) :
    ∃ evs, t.log = evs ++ s.log ∧ ∀ k w, Event.grant k w ∉ evs := by
  obtain ⟨e, -, hcases⟩ := exec_next h
  rcases hcases with ⟨-, -, -, rfl⟩ | ⟨p, -, -, -, -, rfl⟩ | ⟨d, -, -, rfl, -⟩ | ⟨req, -, rfl⟩ | ⟨req, b, sc, -, rfl⟩ |
    ⟨req, b, c, ini, d, -, -, -, rfl⟩ | ⟨req, -, rfl⟩
  · exact ⟨[.release e.port .notInitialized 0], rfl, by simp⟩
  · exact ⟨[.release e.port .invalidPin 0], rfl, by simp⟩
  · exact ⟨[.release e.port .ok d], rfl, by simp⟩
  · exact ⟨[.release e.port .busError 0, .bus req .err], rfl, by simp⟩
  · exact ⟨[.bus req (.ok b)], rfl, by simp⟩
  · exact ⟨[.release e.port .ok d, .bus req (.ok b)], rfl, by simp⟩
  · exact ⟨[.hang req], rfl, by simp⟩

/-! ## The grant -/

/-- A step is a grant of a pending port with the lock free and the phase idle; or it records no grant and starts no command
(20_memory.md R53). -/
theorem step_grants_or_starts_nothing {s t : State} (h : step s = .next t) :
    (∃ k w, s.lock = .free ∧ s.phase = .idle ∧ s.ports[k]? = some (.pending w) ∧ t = s.takeMove.grantTo k w) ∨
    ((∃ evs, t.log = evs ++ s.log ∧ ∀ k w, Event.grant k w ∉ evs) ∧ (s.phase = .idle → t.phase = .idle)) := by
  rcases step_next h with ⟨k, w, p, -, -, -, rfl⟩ | ⟨-, rfl⟩ | ⟨-, -, rfl⟩ | ⟨k, w, -, hp, hl, hk, rfl⟩ |
    ⟨e, -, hp, -, rfl⟩ | ⟨e, i, -, hp, -, hexec⟩ | ⟨e, req, -, -, rfl⟩
  · exact .inr ⟨⟨[.issue k w], rfl, by simp⟩, id⟩
  · exact .inr ⟨⟨[.reset], rfl, by simp⟩, fun _ => rfl⟩
  · exact .inr ⟨⟨[], rfl, by simp⟩, id⟩
  · exact .inl ⟨k, w, hl, hp, hk, rfl⟩
  · exact .inr ⟨⟨[.release e.port .illegalCommand 0], rfl, by simp⟩, fun _ => rfl⟩
  · exact .inr ⟨exec_records_no_grant (s := s.takeMove) hexec, by simp [hp]⟩
  · exact .inr ⟨⟨[], rfl, by simp⟩, id⟩

/-- The one event of a grant. -/
theorem newEvents_takeMove_grantTo (s : State) (k : Nat) (w : Word) :
    newEvents s (s.takeMove.grantTo k w) = [.grant k w] :=
  newEvents_of_log_eq_append rfl

/-- A grant is enabled when the lock is free, the phase idle and a port pending: the sequencer's step is then the grant of
some pending port (20_memory.md R53). -/
theorem step_eq_grantTo_of_pending {s : State} (hm : s.nextMove = .sequencer) (hl : s.lock = .free) (hp : s.phase = .idle)
    (hpending : ∃ (j : Nat) (v : Word), s.ports[j]? = some (.pending v)) :
    ∃ (k : Nat) (w : Word), s.ports[k]? = some (.pending w) ∧ step s = .next (s.takeMove.grantTo k w) := by
  have hstep : step s = .next s.takeMove.grant := by simp [step_eq, hm, State.sequence, hp]
  obtain ⟨-, hnone⟩ | ⟨k, w, -, -, hk, hgrant⟩ := grant_cases s.takeMove
  · obtain ⟨j, v, hj⟩ := hpending
    exact absurd hj (hnone hl hp j v)
  · exact ⟨k, w, hk, by rw [hstep, hgrant]⟩

/-- A granted port is `Busy` with its word, and no other port changes. -/
theorem ports_grantTo_of_pending {s : State} {k : Nat} {w : Word} (h : s.ports[k]? = some (.pending w)) :
    (s.grantTo k w).ports[k]? = some (.busy w) ∧ ∀ j, j ≠ k → (s.grantTo k w).ports[j]? = s.ports[j]? := by
  obtain ⟨hlt, -⟩ := List.getElem?_eq_some_iff.1 h
  exact ⟨List.getElem?_set_self hlt, fun j hj => List.getElem?_set_ne hj.symm⟩

/-- Settles O12: the first clause is the enabled grant, the other two say that a step that is not a grant records none and
starts no command. -/
theorem grantStartsOnePendingCommand : Obligations.GrantStartsOnePendingCommand := by
  refine ⟨fun s hm hl hp hpending => ?_, fun s t k w h hgrant => ?_, fun s t e h hp he => ?_⟩
  · obtain ⟨k, w, hk, hstep⟩ := step_eq_grantTo_of_pending hm hl hp hpending
    obtain ⟨hbusy, hothers⟩ := ports_grantTo_of_pending (s := s.takeMove) hk
    exact ⟨_, k, w, freeScratch s.draws, hstep, hk, rfl, rfl, hbusy, hothers, ⟨rfl, rfl⟩, rfl, rfl, rfl⟩
  · obtain ⟨j, v, hl, hp, hj, rfl⟩ | ⟨⟨evs, hlog, hnone⟩, -⟩ := step_grants_or_starts_nothing h
    · rw [newEvents_takeMove_grantTo, List.mem_singleton] at hgrant
      obtain ⟨rfl, rfl⟩ := Event.grant.inj hgrant
      exact ⟨hl, hp, hj⟩
    · rw [newEvents_of_log_eq_append hlog] at hgrant
      exact absurd hgrant (hnone k w)
  · obtain ⟨k, w, -, -, -, rfl⟩ | ⟨-, hidle⟩ := step_grants_or_starts_nothing h
    · obtain rfl := Phase.exec.inj he
      rw [newEvents_takeMove_grantTo]
      exact List.mem_singleton_self _
    · rw [hidle hp] at he
      cases he

end Sys2Proof.Machine
end

section
/-! The proofs of the statements of 30_encoding.md: illegal words (R74), the checks before a command (R76), and the
assembler's pseudo-instructions and examples (R81, R82). -/

namespace Sys2Proof.Machine

open State

/-! ## The bits a format requires to be 0 -/

theorem bitVec_append_eq_zero_iff {m n : Nat} (x : BitVec m) (y : BitVec n) : x ++ y = 0 ↔ x = 0 ∧ y = 0 := by
  simp [← BitVec.toNat_inj, Nat.or_eq_zero_iff, Nat.shiftLeft_eq_zero_iff]

/-- A field is 0 when its upper and its lower part are. -/
theorem extractLsb'_add_eq_zero_iff (w : Word) (i m n : Nat) :
    w.extractLsb' i (n + m) = 0 ↔ w.extractLsb' (i + m) n = 0 ∧ w.extractLsb' i m = 0 := by
  rw [← BitVec.extractLsb'_append_extractLsb'_eq_extractLsb' rfl, bitVec_append_eq_zero_iff]

/-- `RSV` and `V` are bits 11:8. -/
theorem extractLsb'_rsv_v_eq_zero_iff (w : Word) : w.extractLsb' 8 4 = 0 ↔ fieldRsv w = 0 ∧ fieldV w = false := by
  have hv : w.extractLsb' 8 1 = 0 ↔ fieldV w = false := by
    rw [fieldV, BitVec.getLsbD_eq_extractLsb']
    generalize w.extractLsb' 8 1 = b
    revert b
    decide
  rw [extractLsb'_add_eq_zero_iff w 8 1 3, hv, fieldRsv]

/-- `RSV`, `V` and `PIN` are bits 11:0. -/
theorem extractLsb'_operands_eq_zero_iff (w : Word) :
    w.extractLsb' 0 12 = 0 ↔ fieldRsv w = 0 ∧ fieldV w = false ∧ fieldPin w = 0 := by
  rw [extractLsb'_add_eq_zero_iff w 0 8 4, extractLsb'_rsv_v_eq_zero_iff, fieldPin, and_assoc]

theorem formatN_eq_none_iff (i : Instr) (w : Word) : formatN i w = none ↔ w.extractLsb' 0 12 ≠ 0 := by
  rw [ne_eq, extractLsb'_operands_eq_zero_iff]
  simp [formatN]

theorem formatP_eq_none_iff (i : Nat → Instr) (w : Word) : formatP i w = none ↔ w.extractLsb' 8 4 ≠ 0 := by
  rw [ne_eq, extractLsb'_rsv_v_eq_zero_iff]
  simp [formatP]

theorem formatPV_eq_none_iff (i : Nat → Bool → Instr) (w : Word) : formatPV i w = none ↔ w.extractLsb' 9 3 ≠ 0 := by
  rw [ne_eq, ← fieldRsv]
  simp [formatPV]

/-! ## Illegal words, by format (30_encoding.md R71, R74) -/

theorem decode_eq_none_of_reserved {w : Word} (h : fieldOp w = 0 ∨ 9 ≤ (fieldOp w).toNat) : decode w = none := by
  obtain h | h := h
  · simp [decode, h]
  · unfold decode
    split
    case h_9 => rfl
    all_goals omega

theorem decode_eq_none_iff_of_formatN {w : Word} (h : fieldOp w = 1 ∨ fieldOp w = 8) :
    decode w = none ↔ w.extractLsb' 0 12 ≠ 0 := by
  obtain h | h := h <;> simp [decode, h, formatN_eq_none_iff]

theorem decode_eq_none_iff_of_formatP {w : Word} (h : fieldOp w = 3 ∨ fieldOp w = 5 ∨ fieldOp w = 7) :
    decode w = none ↔ w.extractLsb' 8 4 ≠ 0 := by
  obtain h | h | h := h <;> simp [decode, h, formatP_eq_none_iff]

theorem decode_eq_none_iff_of_formatPV {w : Word} (h : fieldOp w = 2 ∨ fieldOp w = 4 ∨ fieldOp w = 6) :
    decode w = none ↔ w.extractLsb' 9 3 ≠ 0 := by
  obtain h | h | h := h <;> simp [decode, h, formatPV_eq_none_iff]

/-- Every `OP` is reserved or of one of the three formats. -/
theorem op_reserved_or_format (op : BitVec 4) :
    (op = 0 ∨ 9 ≤ op.toNat) ∨ (op = 1 ∨ op = 8) ∨ (op = 3 ∨ op = 5 ∨ op = 7) ∨ (op = 2 ∨ op = 4 ∨ op = 6) := by
  revert op
  decide

/-- A word is illegal in exactly the cases of 30_encoding.md R74: one for the reserved `OP`s and one for each format. -/
theorem decode_eq_none_iff (w : Word) : decode w = none ↔
    (fieldOp w = 0 ∨ 9 ≤ (fieldOp w).toNat) ∨
    ((fieldOp w = 1 ∨ fieldOp w = 8) ∧ w.extractLsb' 0 12 ≠ 0) ∨
    ((fieldOp w = 3 ∨ fieldOp w = 5 ∨ fieldOp w = 7) ∧ w.extractLsb' 8 4 ≠ 0) ∨
    ((fieldOp w = 2 ∨ fieldOp w = 4 ∨ fieldOp w = 6) ∧ w.extractLsb' 9 3 ≠ 0) := by
  constructor
  · intro hnone
    obtain h | h | h | h := op_reserved_or_format (fieldOp w)
    · exact .inl h
    · exact .inr (.inl ⟨h, (decode_eq_none_iff_of_formatN h).1 hnone⟩)
    · exact .inr (.inr (.inl ⟨h, (decode_eq_none_iff_of_formatP h).1 hnone⟩))
    · exact .inr (.inr (.inr ⟨h, (decode_eq_none_iff_of_formatPV h).1 hnone⟩))
  · rintro (h | ⟨h, hbits⟩ | ⟨h, hbits⟩ | ⟨h, hbits⟩)
    · exact decode_eq_none_of_reserved h
    · exact (decode_eq_none_iff_of_formatN h).2 hbits
    · exact (decode_eq_none_iff_of_formatP h).2 hbits
    · exact (decode_eq_none_iff_of_formatPV h).2 hbits

/-! ## A sequencer step in `Exec`, by its word -/

theorem step_of_illegal_word {s : State} {e : Exec} (hm : s.nextMove = .sequencer) (hp : s.phase = .exec e)
    (hdec : decode e.word = none) : step s = .next (s.takeMove.raise e .illegalCommand) := by
  simp [step_eq, hm, State.sequence, hp, hdec]

theorem step_eq_exec_of_legal_word {s : State} {e : Exec} {i : Instr} (hm : s.nextMove = .sequencer)
    (hp : s.phase = .exec e) (hdec : decode e.word = some i) : step s = exec i s.takeMove := by
  simp [step_eq, hm, State.sequence, hp, hdec]

/-- A step that raises an error at a check ends the command, with no register changed and no bus answer used. -/
theorem step_ends_of_raise {s : State} {e : Exec} {st : Status} (h : step s = .next (s.takeMove.raise e st)) :
    ∃ t, step s = .next t ∧ Ended s.takeMove t e.port st 0 [] ∧ SameRegisters s t ∧ SameBus s t :=
  ⟨_, h, ended_raise s.takeMove e st, ⟨rfl, rfl⟩, rfl, rfl⟩

/-- Settles O4: one case for each format of R71, and the step that raises at the check of the word. -/
theorem illegalWordEndsWithIllegalCommand : Obligations.IllegalWordEndsWithIllegalCommand :=
  ⟨decode_eq_none_iff, fun _ _ hm hp hdec => step_ends_of_raise (step_of_illegal_word hm hp hdec)⟩

/-! ## The checks of a legal command (30_encoding.md R76) -/

/-- Each of the six commands with a pin makes the checks of R76 before anything else. -/
theorem exec_eq_checkedPin {i : Instr} {p : Nat} (h : i.pin? = some p) (s : State) :
    ∃ run, exec i s = s.checkedPin p run := by
  cases i with
  | init | getvals => cases h
  | setdir q v | setpol q v | setval q v | getdir q | getpol q | getval q =>
    obtain rfl := Option.some.inj h
    exact ⟨_, rfl⟩

theorem exec_getvals_of_not_initialized {s : State} {e : Exec} (hp : s.phase = .exec e) (hd : e.done = 0)
    (hi : s.initialized = false) : exec .getvals s = .next (s.raise e .notInitialized) := by
  simp [exec, execGetvals, withExec_of_exec hp, hd, State.checkedCache, hi]

/-- The check of step 2: before the first successful INIT, every command but INIT ends with `NotInitialized`. -/
theorem exec_of_not_initialized {i : Instr} {s : State} {e : Exec} (hp : s.phase = .exec e) (hd : e.done = 0)
    (hne : i ≠ .init) (hi : s.initialized = false) : exec i s = .next (s.raise e .notInitialized) := by
  cases hpin : i.pin? with
  | some p =>
    obtain ⟨run, hrun⟩ := exec_eq_checkedPin hpin s
    simp [hrun, checkedPin_of_start hp hd, hi]
  | none =>
    cases i with
    | init => exact absurd rfl hne
    | getvals => exact exec_getvals_of_not_initialized hp hd hi
    | setdir q v | setpol q v | setval q v | getdir q | getpol q | getval q => cases hpin

/-- The check of step 3: a pin above 15 ends the command with `InvalidPin`. -/
theorem exec_of_invalid_pin {i : Instr} {p : Nat} {s : State} {e : Exec} (hp : s.phase = .exec e) (hd : e.done = 0)
    (hpin : i.pin? = some p) (hi : s.initialized = true) (h15 : 15 < p) :
    exec i s = .next (s.raise e .invalidPin) := by
  obtain ⟨run, hrun⟩ := exec_eq_checkedPin hpin s
  simp [hrun, checkedPin_of_start hp hd, hi, h15]

/-- Past the checks, a command that ends does so with `OK` or `BusError`. -/
theorem exec_releases_ok_or_busError {i : Instr} {s t : State} {k : Nat} {st : Status} {d : Word}
    (hinit : i = .init ∨ s.initialized = true) (hpin : ∀ p, i.pin? = some p → p ≤ 15) (h : exec i s = .next t)
    (hrel : JustReleased t k st d) : st = .ok ∨ st = .busError := by
  obtain ⟨e, -, hcases⟩ := exec_next h
  rcases hcases with ⟨-, hne, hi, rfl⟩ | ⟨p, -, hp, -, h15, rfl⟩ | ⟨d', -, -, rfl, -⟩ | ⟨req, -, rfl⟩ |
    ⟨req, b, sc, -, rfl⟩ | ⟨req, b, c, ini, d', -, -, -, rfl⟩ | ⟨req, -, rfl⟩
  · simp [hne, hi] at hinit
  · exact absurd (hpin p hp) (by omega)
  · obtain ⟨-, hst, -⟩ := (justReleased_respond ..).1 hrel
    exact .inl hst.symm
  · obtain ⟨-, hst, -⟩ := (justReleased_raise ..).1 hrel
    exact .inr hst.symm
  · exact absurd hrel (not_justReleased_advance s req _ e sc k st d)
  · obtain ⟨-, hst, -⟩ := (justReleased_respond ..).1 hrel
    exact .inl hst.symm
  · exact absurd hrel (not_justReleased_hang s _ req k st d)

/-- Settles O16: each failed check is a step that raises its error, and past the checks `exec_next` leaves two statuses. -/
theorem checksComeInOrder : Obligations.ChecksComeInOrder := by
  intro s e hm hp hd
  refine ⟨fun hdec => ?_, fun i hdec hne hi => ?_, fun i p hdec hpin hi h15 => ?_, fun i hdec => ?_,
    fun i _ hinit hpin t k st d => ?_⟩
  · exact step_ends_of_raise (step_of_illegal_word hm hp hdec)
  · apply step_ends_of_raise
    rw [step_eq_exec_of_legal_word hm hp hdec, exec_of_not_initialized (s := s.takeMove) hp hd hne hi]
  · apply step_ends_of_raise
    rw [step_eq_exec_of_legal_word hm hp hdec, exec_of_invalid_pin (s := s.takeMove) hp hd hpin hi h15]
  · exact step_eq_exec_of_legal_word hm hp hdec
  · exact exec_releases_ok_or_busError (s := s.takeMove) hinit hpin

/-! ## The assembler (30_encoding.md R80, R81, R82) -/

/-- The `PIN` field is or-ed to the word of pin 0. -/
theorem packWord_eq_or (op : BitVec 4) (v : Bool) (pin : BitVec 8) :
    packWord op v pin = packWord op v 0 ||| pin.setWidth 16 := by
  have hwide : pin.setWidth 16 = 0#8 ++ pin := by simp [BitVec.setWidth_eq_append]
  have hor : (op ++ 0#3 ++ BitVec.ofBool v ++ 0#8) ||| (0#8 ++ pin) = op ++ 0#3 ++ BitVec.ofBool v ++ pin := by
    simp only [BitVec.or_append, BitVec.or_zero, BitVec.zero_or]
  rw [hwide]
  exact hor.symm

theorem pinOperand_of_range {p : Int} (hlo : -128 ≤ p) (hhi : p ≤ 255) :
    pinOperand p = some (BitVec.ofInt 8 p).toNat :=
  if_pos ⟨hlo, hhi⟩

theorem valueOperand_toInt (v : Bool) : valueOperand v.toInt = some v := by cases v <;> rfl

/-- The word of a set command whose operands are in range (R80). -/
theorem encode_setSource {i : Nat → Bool → Instr} {op : BitVec 4}
    (hi : ∀ q v, encode (i q v) = packWord op v (BitVec.ofNat 8 q)) {p : Int} (hlo : -128 ≤ p) (hhi : p ≤ 255)
    (v : Bool) : (setSource i p v.toInt).map encode = some (packWord op v 0 ||| (BitVec.ofInt 8 p).setWidth 16) := by
  rw [← packWord_eq_or]
  simp [setSource, pinOperand_of_range hlo hhi, valueOperand_toInt, hi, -BitVec.toNat_ofInt]

/-- Settles O6: a pseudo-instruction is its set command with the value written in, and the word is the set command's. -/
theorem pseudoInstructionsExpand : Obligations.PseudoInstructionsExpand := by
  intro p hlo hhi pin
  have setdir := encode_setSource (i := .setdir) (op := 2) (fun _ _ => rfl) hlo hhi
  have setpol := encode_setSource (i := .setpol) (op := 4) (fun _ _ => rfl) hlo hhi
  have setval := encode_setSource (i := .setval) (op := 6) (fun _ _ => rfl) hlo hhi
  exact ⟨⟨setdir true, rfl⟩, ⟨setdir false, rfl⟩, ⟨setpol true, rfl⟩, ⟨setpol false, rfl⟩,
    ⟨setval true, rfl⟩, ⟨setval false, rfl⟩⟩

/-- Settles O5: eleven closed lines, each assembled and decoded by evaluation. -/
theorem encodingExamplesOfTheSpec : Obligations.EncodingExamplesOfTheSpec := by
  unfold Obligations.EncodingExamplesOfTheSpec
  decide

end Sys2Proof.Machine
end

section
/-! The proofs of the statements of 40_init.md: a failed INIT commits nothing (R92). -/

namespace Sys2Proof.Machine

/-! ## A failed INIT -/

/-- A read of INIT that returns `Err` ends it at once, whichever of the eight it is. -/
theorem execInit_of_err {s : State} {e : Exec} {index : BitVec 3} (hp : s.phase = .exec e)
    (hx : initOrder[e.done]? = some index) (ha : e.done = 0 → s.InitAllowed) (hr : s.nextReply = some .err) :
    execInit s = .next ((s.answered (s.params.read index) .err).raise e .busError) :=
  execInit_of_reply hp hx ha hr

/-- A step of a command that does not end it with `OK` keeps the registers. -/
theorem exec_keeps_registers_of_not_ok {i : Instr} {s t : State} (h : exec i s = .next t)
    (hok : ∀ k d, ¬ JustReleased t k .ok d) : SameRegisters s t := by
  obtain ⟨u, e, d, rfl⟩ | ⟨u, e, st, hsame, rfl⟩ | ⟨hsame, -⟩ := exec_ok_or_keeps_registers h
  · exact absurd rfl (hok e.port d)
  · exact hsame
  · exact hsame

/-- Settles O22: the failed read is the raise of `execInit_of_err`, and any other step falls under the three ways of
`exec_ok_or_keeps_registers`. -/
theorem failedInitCommitsNothing : Obligations.FailedInitCommitsNothing :=
  ⟨fun s e index hp ha hx hr => ⟨_, execInit_of_err hp hx ha hr,
    ended_raise_answered s e .busError (s.params.read index) .err, ⟨rfl, rfl⟩,
    oneAnswer_answered s (s.params.read index) .err⟩,
   fun _ _ => exec_keeps_registers_of_not_ok⟩

end Sys2Proof.Machine
end

section
/-! The proofs of the statements of 41_config_polarity.md: a set command writes the owning byte (R95, R103) and changes one
bit (R102), and a get command answers with the bit that was set (R98, R101). -/

namespace Sys2Proof.Machine

/-! ## The bits of a read-modify-write -/

/-- The byte a set command writes: the cached byte with only the pin's bit set. -/
theorem getLsbD_newByte (c : Cache) (C : PairName) (p : Nat) (v : Bool) {i : Nat} (hi : i < 8) :
    (c.newByte C p v).getLsbD i = if i = bit p then v else ((c.pair C).byte (reg p)).getLsbD i :=
  getLsbD_setBitTo _ _ v i hi

@[simp] theorem pair_commitByte_same (c : Cache) (C : PairName) (p : Nat) (nb : Byte) :
    (c.commitByte C p nb).pair C = (c.pair C).setByte (reg p) nb :=
  pair_setPair_same ..

theorem pair_commitByte_other (c : Cache) {C C' : PairName} (p : Nat) (nb : Byte) (h : C' ≠ C) :
    (c.commitByte C p nb).pair C' = c.pair C' :=
  pair_setPair_other c _ h

@[simp] theorem lastInputState_commitByte (c : Cache) (C : PairName) (p : Nat) (nb : Byte) :
    (c.commitByte C p nb).lastInputState = c.lastInputState :=
  lastInputState_setPair ..

/-- A set command's commit, on the bits of its pair word. -/
theorem getLsbD_word_commit_newByte (c : Cache) (C : PairName) {p q : Nat} (v : Bool) (hp : p ≤ 15) (hq : q ≤ 15) :
    ((c.commitByte C p (c.newByte C p v)).pair C).word.getLsbD q = if q = p then v else (c.pair C).word.getLsbD q := by
  rw [pair_commitByte_same]
  exact getLsbD_word_setByte _ p v hp q hq

/-- After a set command's commit, the pin's cached bit is the value set. -/
theorem pin_commit_newByte (c : Cache) (C : PairName) {p : Nat} (v : Bool) (hp : p ≤ 15) :
    ((c.commitByte C p (c.newByte C p v)).pair C).pin p = v := by
  rw [pin_eq_getLsbD_word _ p hp, getLsbD_word_commit_newByte c C v hp hp, if_pos rfl]

/-! ## A step of a set command -/

/-- Each set command is the read-modify-write of its pair (R96, R99, 42_value.md R105). -/
theorem exec_setInstr (C : PairName) (p : Nat) (v : Bool) (s : State) : exec (C.setInstr p v) s = s.rmw C p v := by
  cases C <;> rfl

/-- Past its checks, a set command whose write returns `Ok` commits the byte and ends with `OK`. -/
theorem rmw_of_ok {s : State} {e : Exec} {p : Nat} {b : Byte} (hp : s.phase = .exec e) (hd : e.done = 0)
    (hi : s.initialized = true) (h15 : p ≤ 15) (hr : s.nextReply = some (.ok b)) (C : PairName) (v : Bool) :
    s.rmw C p v = .next (((s.answered (s.params.write (deviceIndex C.base p) (s.cache.newByte C p v)) (.ok b)).setCache
      (s.cache.commitByte C p (s.cache.newByte C p v))).respond e 0) := by
  rw [State.rmw, checkedPin_of_start hp hd, if_pos hi, if_pos h15, transact_of_reply hr]
  rfl

/-- Past its checks, a set command whose write returns `Err` ends with `BusError`. -/
theorem rmw_of_err {s : State} {e : Exec} {p : Nat} (hp : s.phase = .exec e) (hd : e.done = 0)
    (hi : s.initialized = true) (h15 : p ≤ 15) (hr : s.nextReply = some .err) (C : PairName) (v : Bool) :
    s.rmw C p v =
      .next ((s.answered (s.params.write (deviceIndex C.base p) (s.cache.newByte C p v)) .err).raise e .busError) := by
  rw [State.rmw, checkedPin_of_start hp hd, if_pos hi, if_pos h15, transact_of_reply hr]
  rfl

/-- The ending of a command that commits a cache after a transaction. -/
theorem ended_respond_setCache_answered (s : State) (e : Exec) (c : Cache) (d : Word) (req : BusRequest) (r : BusReply) :
    Ended s (((s.answered req r).setCache c).respond e d) e.port .ok d [.bus req r] :=
  ended_release _ _ _ _ rfl rfl rfl rfl rfl

/-- Settles O24: the step for each of the two answers, with the byte of `Cache.newByte`. -/
theorem setCommandWritesTheOwningByte : Obligations.SetCommandWritesTheOwningByte := by
  intro s e C p v r hp hd hi h15 hr
  rw [exec_setInstr]
  have hbits : ∀ i, i < 8 → (s.cache.newByte C p v).getLsbD i =
      if i = p % 8 then v else ((s.cache.pair C).byte (p / 8)).getLsbD i := fun _ => getLsbD_newByte s.cache C p v
  have hone := oneAnswer_answered s (s.params.write (deviceIndex C.base p) (s.cache.newByte C p v)) r
  cases r with
  | ok b =>
    exact ⟨_, _, rmw_of_ok hp hd hi h15 hr C v, hbits,
      ⟨ended_respond_setCache_answered s e _ 0 _ (.ok b), rfl, rfl⟩, hone⟩
  | err =>
    exact ⟨_, _, rmw_of_err hp hd hi h15 hr C v, hbits,
      ⟨ended_raise_answered s e .busError _ .err, rfl, rfl⟩, hone⟩

/-! ## What a set command leaves in the registers -/

/-- The two ways a set command's step leaves the registers: kept, when it does not end with `OK`; or, past the checks, with
the new byte committed, and then the only response is `OK`. -/
theorem rmw_keeps_or_commits {s t : State} {C : PairName} {p : Nat} {v : Bool} (h : s.rmw C p v = .next t) :
    (SameRegisters s t ∧ ∀ k d, ¬ JustReleased t k .ok d) ∨
    (s.initialized = true ∧ p ≤ 15 ∧ t.initialized = s.initialized ∧
      t.cache = s.cache.commitByte C p (s.cache.newByte C p v) ∧ ∀ k st d, JustReleased t k st d → st = .ok) := by
  obtain ⟨e, -, -, ⟨-, rfl⟩ | ⟨-, -, rfl⟩ | ⟨hi, h15, r, -, rfl⟩ | ⟨-, -, -, rfl⟩⟩ := rmw_next h
  · exact .inl ⟨⟨rfl, rfl⟩, by simp [justReleased_raise]⟩
  · exact .inl ⟨⟨rfl, rfl⟩, by simp [justReleased_raise]⟩
  · cases r with
    | ok b =>
      refine .inr ⟨hi, h15, rfl, rfl, fun k st d hrel => ?_⟩
      obtain ⟨-, hst, -⟩ := (justReleased_respond ..).1 hrel
      exact hst.symm
    | err => exact .inl ⟨⟨rfl, rfl⟩, by simp [justReleased_raise]⟩
  · exact .inl ⟨⟨rfl, rfl⟩, fun k d => not_justReleased_hang _ _ _ k .ok d⟩

/-- A set command that ends with `OK` has passed the checks and committed its byte. -/
theorem rmw_commits_of_ok {s t : State} {C : PairName} {p k : Nat} {v : Bool} {d : Word} (h : s.rmw C p v = .next t)
    (hok : JustReleased t k .ok d) :
    p ≤ 15 ∧ t.initialized = true ∧ t.cache = s.cache.commitByte C p (s.cache.newByte C p v) := by
  obtain ⟨-, hnone⟩ | ⟨hi, h15, hinit, hcache, -⟩ := rmw_keeps_or_commits h
  · exact absurd hok (hnone k d)
  · exact ⟨h15, hinit.trans hi, hcache⟩

/-- Settles O25: a step that keeps the registers changes no bit, and the commit of one byte changes only the bit of pin p. -/
theorem setCommandChangesOneBit : Obligations.SetCommandChangesOneBit := by
  intro s t C p v h
  rw [exec_setInstr] at h
  obtain ⟨⟨hcache, hinit⟩, -⟩ | ⟨-, h15, hinit, hcache, honly⟩ := rmw_keeps_or_commits h
  · rw [hcache]
    exact ⟨fun _ _ _ => rfl, fun _ _ => rfl, rfl, hinit, fun _ _ _ _ _ => rfl⟩
  · rw [hcache]
    refine ⟨fun q hq hne => ?_, fun C' hC' => pair_commitByte_other _ _ _ hC', lastInputState_commitByte .., hinit,
      fun k st d hrel hst => absurd (honly k st d hrel) hst⟩
    rw [getLsbD_word_commit_newByte _ _ _ h15 hq, if_neg hne]

/-! ## A get command after a set command -/

/-- Past its checks, GETDIR or GETPOL answers with the cached bit (R97, R100). -/
theorem answerBit_of_start {s : State} {e : Exec} {p : Nat} (hp : s.phase = .exec e) (hd : e.done = 0)
    (hi : s.initialized = true) (h15 : p ≤ 15) (C : PairName) :
    s.answerBit C p = .next (s.respond e (zext16 ((s.cache.pair C).pin p))) := by
  rw [State.answerBit, checkedPin_of_start hp hd, if_pos hi, if_pos h15]

/-- The answer after a set command on the same pair and pin that ended with `OK`, at any state with the registers it
left. -/
theorem answerBit_after_rmw {s t u : State} {e : Exec} {C : PairName} {p k : Nat} {v : Bool} {d : Word}
    (hset : s.rmw C p v = .next t) (hok : JustReleased t k .ok d) (hsame : SameRegisters t u) (hp : u.phase = .exec e)
    (hd : e.done = 0) : ∃ u', u.answerBit C p = .next u' ∧ Ended u u' e.port .ok (if v then 1 else 0) [] := by
  obtain ⟨h15, hinit, hcache⟩ := rmw_commits_of_ok hset hok
  obtain ⟨hucache, huinit⟩ := hsame
  have hpin : (u.cache.pair C).pin p = v := by rw [hucache, hcache, pin_commit_newByte _ _ _ h15]
  refine ⟨_, answerBit_of_start hp hd (huinit.trans hinit) h15 C, ?_⟩
  rw [hpin, zext16_eq]
  exact ended_respond u e _

/-- Settles O29: both clauses are the answer after a read-modify-write, of the direction and of the polarity pair. -/
theorem getAnswersWhatWasSet : Obligations.GetAnswersWhatWasSet :=
  fun _ _ _ _ _ _ _ _ hok hsame hp hd =>
    ⟨fun hset => answerBit_after_rmw (C := .config) hset hok hsame hp hd,
     fun hset => answerBit_after_rmw (C := .polarity) hset hok hsame hp hd⟩

end Sys2Proof.Machine
end

section
/-! The proofs of the statements of 60_exceptions.md: the two errors of the checks before a command, `NotInitialized` (R115)
and `InvalidPin` (R116). -/

namespace Sys2Proof.Machine

/-- What a raise at a check leaves: the ending with its status, and nothing else (60_exceptions.md R113). -/
theorem exec_ends_of_raise {i : Instr} {s : State} {e : Exec} {st : Status} (h : exec i s = .next (s.raise e st)) :
    ∃ t, exec i s = .next t ∧ Ended s t e.port st 0 [] ∧ SameRegisters s t ∧ SameBus s t :=
  ⟨_, h, ended_raise s e st, ⟨rfl, rfl⟩, rfl, rfl⟩

/-- Settles O17: the check of `initialized` comes before the pin's, so no operand matters. -/
theorem uninitializedCommandsEndNotInitialized : Obligations.UninitializedCommandsEndNotInitialized :=
  fun _ _ _ hp hd hi hne => exec_ends_of_raise (exec_of_not_initialized hp hd hne hi)

/-- `InvalidPin` is the ending of a command with a pin above 15, whatever the state: no other branch of a command has this
status. -/
theorem exists_pin_gt_of_exec_releases_invalidPin {i : Instr} {s t : State} {k : Nat} {d : Word} (h : exec i s = .next t)
    (hrel : JustReleased t k .invalidPin d) : ∃ p, i.pin? = some p ∧ 15 < p := by
  obtain ⟨e, -, hcases⟩ := exec_next h
  rcases hcases with ⟨-, -, -, rfl⟩ | ⟨p, -, hpin, -, h15, -⟩ | ⟨d', -, -, rfl, -⟩ | ⟨req, -, rfl⟩ |
    ⟨req, b, sc, -, rfl⟩ | ⟨req, b, c, ini, d', -, -, -, rfl⟩ | ⟨req, -, rfl⟩
  · simp [justReleased_raise] at hrel
  · exact ⟨p, hpin, h15⟩
  · simp [justReleased_respond] at hrel
  · simp [justReleased_raise] at hrel
  · exact absurd hrel (not_justReleased_advance s req _ e sc k _ d)
  · simp [justReleased_respond] at hrel
  · exact absurd hrel (not_justReleased_hang s _ req k _ d)

theorem status_ne_invalidPin_of_no_pin {i : Instr} {s t : State} {k : Nat} {st : Status} {d : Word}
    (hpin : i.pin? = none) (h : exec i s = .next t) (hrel : JustReleased t k st d) : st ≠ .invalidPin := by
  rintro rfl
  obtain ⟨p, hp, -⟩ := exists_pin_gt_of_exec_releases_invalidPin h hrel
  simp [hpin] at hp

/-- Settles O18: the check of the pin, the two operands' encodings, and the two commands without a pin. -/
theorem invalidPinIsReported : Obligations.InvalidPinIsReported := by
  refine ⟨fun s e i p hp hd hi hpin h15 => ?_, by decide, fun s t k st d h hrel => ?_⟩
  · exact exec_ends_of_raise (exec_of_invalid_pin hp hd hpin hi h15)
  · obtain hinit | hgetvals := h
    · exact status_ne_invalidPin_of_no_pin rfl hinit hrel
    · exact status_ne_invalidPin_of_no_pin rfl hgetvals hrel

end Sys2Proof.Machine
end

section
/-! The proofs of the statements of 70_reset_and_hazards.md: a reset issues no bus transaction, and only an INIT gives the
cache a value (R141). -/

namespace Sys2Proof.Machine

open State

/-! ## The commands that set `initialized` -/

/-- A step of a command other than INIT keeps `initialized` (10_state.md R22): the only one that writes it has found it
set. -/
theorem exec_keeps_initialized_of_ne_init {i : Instr} {s t : State} (h : exec i s = .next t) (hne : i ≠ .init) :
    t.initialized = s.initialized := by
  obtain ⟨e, -, hcases⟩ := exec_next h
  rcases hcases with ⟨-, -, -, rfl⟩ | ⟨p, -, -, -, -, rfl⟩ | ⟨d, -, -, rfl, -⟩ | ⟨req, -, rfl⟩ | ⟨req, b, sc, -, rfl⟩ |
    ⟨req, b, c, ini, d, -, hini, hset, rfl⟩ | ⟨req, -, rfl⟩
  · rfl
  · rfl
  · rfl
  · rfl
  · rfl
  · exact hini.trans (hset hne).symm
  · rfl

/-- A step of INIT keeps `initialized`, or is the commit that ends it with `OK` and data 0 (40_init.md R91, R92). -/
theorem execInit_keeps_initialized_or_ends_ok {s t : State} {e : Exec} (h : execInit s = .next t)
    (hp : s.phase = .exec e) : t.initialized = s.initialized ∨ JustReleased t e.port .ok 0 := by
  obtain ⟨e', index, hp', -, -, ⟨r, -, rfl⟩ | ⟨-, rfl⟩⟩ := execInit_next h
  · obtain rfl := Phase.exec.inj (hp.symm.trans hp')
    cases r with
    | err => exact .inl rfl
    | ok b =>
      by_cases hlast : e.done + 1 = initOrder.length
      · simp only [if_pos hlast]
        exact .inr rfl
      · simp only [if_neg hlast]
        exact .inl rfl
  · exact .inl rfl

/-- A step of the machine to a state with `initialized` set had it set before, or is the commit of an INIT. -/
theorem step_initialized_before_or_init_ends_ok {s t : State} (h : step s = .next t) (ht : t.initialized = true) :
    s.initialized = true ∨ ∃ e, s.phase = .exec e ∧ decode e.word = some .init ∧ JustReleased t e.port .ok 0 := by
  rcases step_next h with ⟨k, w, p, -, -, -, rfl⟩ | ⟨-, rfl⟩ | ⟨-, -, rfl⟩ | ⟨k, w, -, -, -, -, rfl⟩ |
    ⟨e, -, -, -, rfl⟩ | ⟨e, i, -, hp, hdec, hexec⟩ | ⟨e, req, -, -, rfl⟩
  · exact .inl ht
  · cases ht
  · exact .inl ht
  · exact .inl ht
  · exact .inl ht
  · by_cases hinit : i = .init
    · subst hinit
      obtain hkept | hends := execInit_keeps_initialized_or_ends_ok (s := s.takeMove) hexec hp
      · exact .inl (hkept.symm.trans ht)
      · exact .inr ⟨e, hp, hdec, hends⟩
    · exact .inl ((exec_keeps_initialized_of_ne_init hexec hinit).symm.trans ht)
  · exact .inl ht

/-! ## The reset -/

theorem step_of_reset {s : State} (hm : s.nextMove = .reset) : step s = .next s.takeMove.construct := by
  simp [step_eq, hm]

/-- Settles O15: a reset is the construction, whose fields the first clause reads off; the second is the origin of
`initialized`, which is what the cache's view depends on. -/
theorem resetIssuesNoTransaction : Obligations.ResetIssuesNoTransaction := by
  refine ⟨fun s t hm h => ?_, fun s t h hs ht => ?_⟩
  · obtain rfl := Host.Outcome.next.inj ((step_of_reset hm).symm.trans h)
    exact ⟨⟨rfl, rfl⟩, newEvents_of_log_eq_append rfl, rfl, rfl⟩
  · rw [view_eq_none_iff] at hs
    rw [Ne, view_eq_none_iff, Bool.not_eq_false] at ht
    obtain hbefore | hends := step_initialized_before_or_init_ends_ok h ht
    · rw [hs] at hbefore
      cases hbefore
    · exact hends

end Sys2Proof.Machine
end

section
/-! The command word, both ways: a command's word decodes to it, a word that decodes is the command's word, and the rows of
the opcode map agree with the decoder (30_encoding.md R70 to R77); what the assembler spells and refuses (R80); and the
codes of the response (R78). -/

namespace Sys2Proof.Machine

/-! ## The fields of a packed word (30_encoding.md R70) -/

@[simp] theorem fieldOp_packWord (op : BitVec 4) (v : Bool) (pin : BitVec 8) : fieldOp (packWord op v pin) = op := by
  have h : (op ++ 0#3 ++ BitVec.ofBool v ++ pin).extractLsb' 12 4 = op := by
    rw [BitVec.extractLsb'_append_eq_of_le (by decide), BitVec.extractLsb'_append_eq_of_le (by decide)]
    exact BitVec.extractLsb'_append_eq_left
  exact h

@[simp] theorem fieldRsv_packWord (op : BitVec 4) (v : Bool) (pin : BitVec 8) : fieldRsv (packWord op v pin) = 0 := by
  have h : (op ++ 0#3 ++ BitVec.ofBool v ++ pin).extractLsb' 9 3 = 0 := by
    rw [BitVec.extractLsb'_append_eq_of_le (by decide), BitVec.extractLsb'_append_eq_of_le (by decide)]
    exact BitVec.extractLsb'_append_eq_right
  exact h

@[simp] theorem fieldV_packWord (op : BitVec 4) (v : Bool) (pin : BitVec 8) : fieldV (packWord op v pin) = v := by
  have h : (op ++ 0#3 ++ BitVec.ofBool v ++ pin).getLsbD 8 = v := by
    simp only [BitVec.getLsbD_append]
    simp
  exact h

@[simp] theorem fieldPin_packWord (op : BitVec 4) (v : Bool) (pin : BitVec 8) : fieldPin (packWord op v pin) = pin :=
  BitVec.extractLsb'_append_eq_right

theorem ofBool_fieldV (w : Word) : BitVec.ofBool (fieldV w) = w.extractLsb' 8 1 := by
  rw [fieldV, BitVec.getLsbD_eq_extractLsb']
  generalize w.extractLsb' 8 1 = b
  revert b
  decide

/-- A word with `RSV` zero is packed from its other three fields. -/
theorem packWord_fields {w : Word} (h : fieldRsv w = 0) : packWord (fieldOp w) (fieldV w) (fieldPin w) = w := by
  have hw : fieldOp w ++ fieldRsv w ++ w.extractLsb' 8 1 ++ fieldPin w = w := by
    unfold fieldOp fieldRsv fieldPin
    rw [BitVec.extractLsb'_append_extractLsb'_eq_extractLsb' (show 12 = 9 + 3 from rfl),
      BitVec.extractLsb'_append_extractLsb'_eq_extractLsb' (show 9 = 8 + 1 from rfl),
      BitVec.extractLsb'_append_extractLsb'_eq_extractLsb' (show 8 = 0 + 8 from rfl)]
    exact BitVec.extractLsb'_eq_self
  rwa [h, ← ofBool_fieldV] at hw

/-! ## Decoding the word of a command -/

theorem toNat_ofNat_pin {p : Nat} (h : p < 256) : (BitVec.ofNat 8 p).toNat = p := by
  simp [Nat.mod_eq_of_lt h]

/-- Settles O1: the decoder reads back the four fields that the encoder packs, one case for each command. -/
theorem decodeEncodeRoundTrip : Obligations.DecodeEncodeRoundTrip := by
  intro i hi
  cases i with
  | init => rfl
  | getvals => rfl
  | setdir p v | setpol p v | setval p v =>
    simp [encode, decode, formatPV, toNat_ofNat_pin (of_decide_eq_true hi), -BitVec.toNat_ofNat]
  | getdir p | getpol p | getval p =>
    simp [encode, decode, formatP, toNat_ofNat_pin (of_decide_eq_true hi), -BitVec.toNat_ofNat]

/-! ## The word of a decoded command -/

/-- A word with `RSV` zero is the word of the command with its other three fields. -/
theorem encode_eq_of_fields {w : Word} {i : Instr} {op : BitVec 4} {v : Bool} {pin : BitVec 8}
    (henc : encode i = packWord op v pin) (hop : fieldOp w = op) (hrsv : fieldRsv w = 0) (hv : fieldV w = v)
    (hpin : fieldPin w = pin) : encode i = w := by
  rw [henc, ← hop, ← hv, ← hpin, packWord_fields hrsv]

/-- So the word decodes to that command, when it is well-formed. -/
theorem decode_eq_of_fields {w : Word} {i : Instr} {op : BitVec 4} {v : Bool} {pin : BitVec 8}
    (hwf : i.wellFormed = true) (henc : encode i = packWord op v pin) (hop : fieldOp w = op) (hrsv : fieldRsv w = 0)
    (hv : fieldV w = v) (hpin : fieldPin w = pin) : decode w = some i := by
  rw [← encode_eq_of_fields henc hop hrsv hv hpin]
  exact decodeEncodeRoundTrip i hwf

theorem fieldPin_eq_ofNat (w : Word) : fieldPin w = BitVec.ofNat 8 (fieldPin w).toNat := by simp

theorem fieldPin_fits (w : Word) : decide ((fieldPin w).toNat < 256) = true := decide_eq_true (fieldPin w).isLt

/-- Settles O2: one case for each `OP` of the decoder, which its format (30_encoding.md R71) turns into the four fields. -/
theorem decodedWordIsTheEncoding : Obligations.DecodedWordIsTheEncoding := by
  intro w i h
  unfold decode at h
  split at h
  case h_9 => cases h
  case h_1 hop | h_8 hop =>
    simp only [formatN, Option.ite_none_right_eq_some, Option.some.injEq] at h
    obtain ⟨⟨hrsv, hv, hpin⟩, rfl⟩ := h
    exact ⟨rfl, encode_eq_of_fields rfl (BitVec.eq_of_toNat_eq hop) hrsv hv hpin⟩
  case h_2 hop | h_4 hop | h_6 hop =>
    simp only [formatPV, Option.ite_none_right_eq_some, Option.some.injEq] at h
    obtain ⟨hrsv, rfl⟩ := h
    exact ⟨fieldPin_fits w, encode_eq_of_fields rfl (BitVec.eq_of_toNat_eq hop) hrsv rfl (fieldPin_eq_ofNat w)⟩
  case h_3 hop | h_5 hop | h_7 hop =>
    simp only [formatP, Option.ite_none_right_eq_some, Option.some.injEq] at h
    obtain ⟨⟨hrsv, hv⟩, rfl⟩ := h
    exact ⟨fieldPin_fits w, encode_eq_of_fields rfl (BitVec.eq_of_toNat_eq hop) hrsv hv (fieldPin_eq_ofNat w)⟩

/-! ## The rows of the opcode map (30_encoding.md R73) -/

theorem fieldOp_and (w m : Word) : fieldOp (w &&& m) = fieldOp w &&& fieldOp m := BitVec.extractLsb'_and

theorem fieldRsv_and (w m : Word) : fieldRsv (w &&& m) = fieldRsv w &&& fieldRsv m := BitVec.extractLsb'_and

theorem fieldV_and (w m : Word) : fieldV (w &&& m) = (fieldV w && fieldV m) := BitVec.getLsbD_and

/-- A word under the mask of format PV has the row's `OP`, and `RSV` zero. -/
theorem fields_of_and_maskPV {w : Word} {op : BitVec 4} (h : w &&& 0xFE00 = packWord op false 0) :
    fieldOp w = op ∧ fieldRsv w = 0 := by
  have hop := congrArg fieldOp h
  have hrsv := congrArg fieldRsv h
  rw [fieldOp_and, show fieldOp 0xFE00 = BitVec.allOnes 4 from rfl, BitVec.and_allOnes, fieldOp_packWord] at hop
  rw [fieldRsv_and, show fieldRsv 0xFE00 = BitVec.allOnes 3 from rfl, BitVec.and_allOnes, fieldRsv_packWord] at hrsv
  exact ⟨hop, hrsv⟩

/-- A word under the mask of format P has, besides, `V` zero. -/
theorem fields_of_and_maskP {w : Word} {op : BitVec 4} (h : w &&& 0xFF00 = packWord op false 0) :
    fieldOp w = op ∧ fieldRsv w = 0 ∧ fieldV w = false := by
  have hop := congrArg fieldOp h
  have hrsv := congrArg fieldRsv h
  have hv := congrArg fieldV h
  rw [fieldOp_and, show fieldOp 0xFF00 = BitVec.allOnes 4 from rfl, BitVec.and_allOnes, fieldOp_packWord] at hop
  rw [fieldRsv_and, show fieldRsv 0xFF00 = BitVec.allOnes 3 from rfl, BitVec.and_allOnes, fieldRsv_packWord] at hrsv
  rw [fieldV_and, show fieldV 0xFF00 = true from rfl, Bool.and_true, fieldV_packWord] at hv
  exact ⟨hop, hrsv, hv⟩

/-- A word that a row of format PV matches decodes to a command of the row. -/
theorem decode_of_and_maskPV {w : Word} {op : BitVec 4} (h : w &&& 0xFE00 = packWord op false 0) {i : Nat → Bool → Instr}
    {name : String} (hwf : ∀ p v, (i p v).wellFormed = decide (p < 256))
    (henc : ∀ p v, encode (i p v) = packWord op v (BitVec.ofNat 8 p)) (hname : ∀ p v, (i p v).mnemonic = name) :
    ∃ j, decode w = some j ∧ j.mnemonic = name := by
  obtain ⟨hop, hrsv⟩ := fields_of_and_maskPV h
  exact ⟨_, decode_eq_of_fields ((hwf _ _).trans (fieldPin_fits w)) (henc _ _) hop hrsv rfl (fieldPin_eq_ofNat w),
    hname _ _⟩

/-- A word that a row of format P matches decodes to a command of the row. -/
theorem decode_of_and_maskP {w : Word} {op : BitVec 4} (h : w &&& 0xFF00 = packWord op false 0) {i : Nat → Instr}
    {name : String} (hwf : ∀ p, (i p).wellFormed = decide (p < 256))
    (henc : ∀ p, encode (i p) = packWord op false (BitVec.ofNat 8 p)) (hname : ∀ p, (i p).mnemonic = name) :
    ∃ j, decode w = some j ∧ j.mnemonic = name := by
  obtain ⟨hop, hrsv, hv⟩ := fields_of_and_maskP h
  exact ⟨_, decode_eq_of_fields ((hwf _).trans (fieldPin_fits w)) (henc _) hop hrsv hv (fieldPin_eq_ofNat w), hname _⟩

/-- A word that a row of format N matches is the row's pattern. -/
theorem eq_of_and_maskN {w x : Word} (h : w &&& 0xFFFF = x) : w = x :=
  (BitVec.and_allOnes (x := w)).symm.trans h

/-- A word that a row matches decodes to a command of the row's mnemonic: one case for each row. -/
theorem decode_of_matchesWord {w : Word} {r : OpcodeRow} (hr : r ∈ opcodeMap) (h : r.matchesWord w = true) :
    ∃ i, decode w = some i ∧ i.mnemonic = r.mnemonic := by
  simp only [opcodeMap, List.mem_cons, List.not_mem_nil, or_false] at hr
  rcases hr with rfl | rfl | rfl | rfl | rfl | rfl | rfl | rfl <;> replace h := eq_of_beq h
  · exact ⟨.init, congrArg decode (eq_of_and_maskN h), rfl⟩
  · exact decode_of_and_maskPV (i := .setdir) (op := 2) h (fun _ _ => rfl) (fun _ _ => rfl) fun _ _ => rfl
  · exact decode_of_and_maskP (i := .getdir) (op := 3) h (fun _ => rfl) (fun _ => rfl) fun _ => rfl
  · exact decode_of_and_maskPV (i := .setpol) (op := 4) h (fun _ _ => rfl) (fun _ _ => rfl) fun _ _ => rfl
  · exact decode_of_and_maskP (i := .getpol) (op := 5) h (fun _ => rfl) (fun _ => rfl) fun _ => rfl
  · exact decode_of_and_maskPV (i := .setval) (op := 6) h (fun _ _ => rfl) (fun _ _ => rfl) fun _ _ => rfl
  · exact decode_of_and_maskP (i := .getval) (op := 7) h (fun _ => rfl) (fun _ => rfl) fun _ => rfl
  · exact ⟨.getvals, congrArg decode (eq_of_and_maskN h), rfl⟩

/-- The row of a command matches the command's word (`Laws.FitsRow`, one lemma per command). -/
theorem fitsRow (i : Instr) : Laws.FitsRow.Statement i := by
  cases i with
  | init => exact Laws.FitsRow.init
  | setdir p v => exact Laws.FitsRow.setdir p v
  | getdir p => exact Laws.FitsRow.getdir p
  | setpol p v => exact Laws.FitsRow.setpol p v
  | getpol p => exact Laws.FitsRow.getpol p
  | setval p v => exact Laws.FitsRow.setval p v
  | getval p => exact Laws.FitsRow.getval p
  | getvals => exact Laws.FitsRow.getvals

theorem opcodeMap_mnemonic_injective :
    ∀ r ∈ opcodeMap, ∀ r' ∈ opcodeMap, r.mnemonic = r'.mnemonic → r = r' := by
  decide

/-- Settles O3: a matched word decodes to the row's command; a decoded word is the command's, which its row matches; and two
rows that match one word name the same command. -/
theorem opcodeMapMatchesDecoder : Obligations.OpcodeMapMatchesDecoder := by
  refine ⟨fun w r => decode_of_matchesWord, fun w i h => ?_, fun w r r' hr hr' h h' => ?_⟩
  · obtain ⟨-, rfl⟩ := decodedWordIsTheEncoding w i h
    exact fitsRow i
  · obtain ⟨i, hi, hname⟩ := decode_of_matchesWord hr h
    obtain ⟨j, hj, hname'⟩ := decode_of_matchesWord hr' h'
    obtain rfl := Option.some.inj (hi.symm.trans hj)
    exact opcodeMap_mnemonic_injective r hr r' hr' (hname.symm.trans hname')

/-! ## What the assembler spells and refuses (30_encoding.md R80) -/

theorem pinOperand_eq_none_iff (p : Int) : pinOperand p = none ↔ p < -128 ∨ 255 < p := by
  simp only [pinOperand, ite_eq_right_iff, reduceCtorEq, imp_false]
  omega

theorem pinOperand_lt {p : Int} {q : Nat} (h : pinOperand p = some q) : q < 256 := by
  simp only [pinOperand, Option.ite_none_right_eq_some, Option.some.injEq] at h
  obtain ⟨-, rfl⟩ := h
  exact BitVec.isLt _

theorem valueOperand_eq_none_iff (v : Int) : valueOperand v = none ↔ v ≠ 0 ∧ v ≠ 1 := by
  unfold valueOperand
  split_ifs with h0 h1
  · simp [h0]
  · simp [h1]
  · simp [h0, h1]

theorem setSource_eq_none_iff (i : Nat → Bool → Instr) (p v : Int) :
    setSource i p v = none ↔ (p < -128 ∨ 255 < p) ∨ (v ≠ 0 ∧ v ≠ 1) := by
  rw [← pinOperand_eq_none_iff, ← valueOperand_eq_none_iff]
  cases hp : pinOperand p <;> cases hv : valueOperand v <;> simp [setSource, hp, hv]

/-- A pseudo-instruction writes the value itself, so that only the pin can be refused. -/
theorem setSource_bit_eq_none_iff (i : Nat → Bool → Instr) (p : Int) (b : Bool) :
    setSource i p b.toInt = none ↔ p < -128 ∨ 255 < p := by
  rw [setSource_eq_none_iff]
  cases b <;> simp

theorem wellFormed_of_setSource {i : Nat → Bool → Instr} {p v : Int} {j : Instr} (h : setSource i p v = some j)
    (hi : ∀ q b, (i q b).wellFormed = decide (q < 256)) : j.wellFormed = true := by
  simp only [setSource, Option.bind_eq_bind, Option.bind_eq_some_iff, Option.pure_def, Option.some.injEq] at h
  obtain ⟨q, hq, b, -, rfl⟩ := h
  rw [hi, decide_eq_true (pinOperand_lt hq)]

theorem wellFormed_of_pinOperand {i : Nat → Instr} {p : Int} {j : Instr} (h : (pinOperand p).map i = some j)
    (hi : ∀ q, (i q).wellFormed = decide (q < 256)) : j.wellFormed = true := by
  obtain ⟨q, hq, rfl⟩ := Option.map_eq_some_iff.1 h
  rw [hi, decide_eq_true (pinOperand_lt hq)]

/-- Whatever a source stands for is well-formed: its pin is an 8-bit value. -/
theorem wellFormed_of_instr? {src : Source} {j : Instr} (h : src.instr? = some j) : j.wellFormed = true := by
  cases src with
  | init | getvals =>
    obtain rfl := Option.some.inj h
    rfl
  | setdir p v | setpol p v | setval p v => exact wellFormed_of_setSource h fun _ _ => rfl
  | input p | output p | invert p | normal p | high p | low p => exact wellFormed_of_setSource h fun _ _ => rfl
  | getdir p | getpol p | getval p => exact wellFormed_of_pinOperand h fun _ => rfl
  | word n => cases h

theorem assemble_of_ne_word {src : Source} (h : ∀ n, src ≠ .word n) : src.assemble = src.instr?.map encode := by
  cases src with
  | word n => exact absurd rfl (h n)
  | init | setdir p v | getdir p | setpol p v | getpol p | setval p v | getval p | getvals | input p | output p | invert p
  | normal p | high p | low p => rfl

theorem decode_isSome_of_assemble {src : Source} {w : Word} (hsrc : ∀ n, src ≠ .word n) (h : src.assemble = some w) :
    (decode w).isSome = true := by
  rw [assemble_of_ne_word hsrc] at h
  obtain ⟨j, hj, rfl⟩ := Option.map_eq_some_iff.1 h
  rw [decodeEncodeRoundTrip j (wellFormed_of_instr? hj), Option.isSome_some]

theorem assemble_word_eq_none_iff (n : Int) : (Source.word n).assemble = none ↔ n < 0 ∨ 0xFFFF < n := by
  simp only [Source.assemble, ite_eq_right_iff, reduceCtorEq, imp_false]
  omega

theorem assemble_word_toNat (w : Word) : (Source.word w.toNat).assemble = some w := by
  have := w.isLt
  simp only [Source.assemble]
  rw [if_pos (by omega)]
  simp

/-- Settles O7: a source other than `.word` stands for a well-formed command, whose word decodes; and each operand is refused
exactly outside its range. -/
theorem assemblerSpellsLegalWords : Obligations.AssemblerSpellsLegalWords := by
  refine ⟨fun src w => decode_isSome_of_assemble, fun src p v hsrc => ?_, fun src p hsrc => ?_, by decide,
    assemble_word_eq_none_iff, assemble_word_toNat⟩
  · simp only [List.mem_cons, List.not_mem_nil, or_false] at hsrc
    obtain rfl | rfl | rfl := hsrc
    all_goals exact Option.map_eq_none_iff.trans (setSource_eq_none_iff _ p v)
  · simp only [List.mem_cons, List.not_mem_nil, or_false] at hsrc
    obtain rfl | rfl | rfl | rfl | rfl | rfl | rfl | rfl | rfl := hsrc
    · exact Option.map_eq_none_iff.trans (Option.map_eq_none_iff.trans (pinOperand_eq_none_iff p))
    · exact Option.map_eq_none_iff.trans (Option.map_eq_none_iff.trans (pinOperand_eq_none_iff p))
    · exact Option.map_eq_none_iff.trans (Option.map_eq_none_iff.trans (pinOperand_eq_none_iff p))
    · exact Option.map_eq_none_iff.trans (setSource_bit_eq_none_iff .setdir p true)
    · exact Option.map_eq_none_iff.trans (setSource_bit_eq_none_iff .setdir p false)
    · exact Option.map_eq_none_iff.trans (setSource_bit_eq_none_iff .setpol p true)
    · exact Option.map_eq_none_iff.trans (setSource_bit_eq_none_iff .setpol p false)
    · exact Option.map_eq_none_iff.trans (setSource_bit_eq_none_iff .setval p true)
    · exact Option.map_eq_none_iff.trans (setSource_bit_eq_none_iff .setval p false)

/-! ## The response (30_encoding.md R78) -/

theorem toNat_packResponse (st : Status) (d : Word) : (packResponse st d).toNat = st.code.toNat * 65536 + d.toNat := by
  simp only [packResponse, BitVec.toNat_append]
  rw [← Nat.shiftLeft_add_eq_or_of_lt d.isLt, Nat.shiftLeft_eq]

/-- Settles O9: the codes one by one, and the packed response as a number. -/
theorem responseIsPackedWithItsStatusCode : Obligations.ResponseIsPackedWithItsStatusCode :=
  ⟨by decide, fun st => by cases st <;> decide, toNat_packResponse⟩

end Sys2Proof.Machine
end

section
/-! A step of a command against the serial machine: the request it issues (20_memory.md R68) and, when it ends, what the whole
command leaves (R59). -/

namespace Sys2Proof.Machine

open State

/-! ## The levels, by pin (00_scope.md R11, 42_value.md R112) -/

/-- Bit p of two raw input bytes is the pin's bit of its register's byte. -/
theorem getLsbD_append_bytes (raw0 raw1 : Byte) {p : Nat} (hp : p ≤ 15) :
    (raw1 ++ raw0 : Word).getLsbD p = (if p < 8 then raw0 else raw1).getLsbD (p % 8) := by
  have hword : (raw1 ++ raw0 : Word).getLsbD p = if p < 8 then raw0.getLsbD p else raw1.getLsbD (p - 8) :=
    getLsbD_word ⟨raw0, raw1⟩ p
  rw [hword]
  by_cases h : p < 8
  · rw [if_pos h, if_pos h, Nat.mod_eq_of_lt h]
  · rw [if_neg h, if_neg h, show p % 8 = p - 8 by omega]

/-- The polarity bit of a pin is its bit of the polarity word. -/
theorem getLsbD_polarityWord (s : State) {p : Nat} (hp : p ≤ 15) : s.polarityWord.getLsbD p = s.polarityOf p := by
  cases h : s.params.appliesPolarity <;> simp [State.polarityWord, State.polarityOf, h, pin_eq_getLsbD_word _ p hp]

/-- The level of an input pin in the composed word is the level of its raw byte alone. -/
theorem getLsbD_levels_of_input (s : State) (raw0 raw1 : Byte) {p : Nat} (hp : p ≤ 15)
    (hin : s.cache.config.pin p = true) :
    (s.cache.levels s.params (raw1 ++ raw0)).getLsbD p =
      s.cache.inputLevel s.params p (if p < 8 then raw0 else raw1) := by
  rw [pin_eq_getLsbD_word _ p hp] at hin
  rw [levels_eq, getLsbD_compose _ _ _ _ p hp, if_pos hin, getLsbD_polarityWord s hp, getLsbD_append_bytes _ _ hp,
    inputLevel_eq]

/-- The level of an output pin in the composed word is its latch. -/
theorem getLsbD_levels_of_output (s : State) (w : Word) {p : Nat} (hp : p ≤ 15) (hout : s.cache.config.pin p = false) :
    (s.cache.levels s.params w).getLsbD p = s.cache.output.pin p := by
  rw [pin_eq_getLsbD_word _ p hp] at hout
  rw [levels_eq, getLsbD_compose _ _ _ _ p hp, if_neg (by simp [hout]), pin_eq_getLsbD_word _ p hp]

/-! ## The staging bytes of INIT -/

theorem initOrder_not_mem_take :
    ∀ n < 8, ∀ index, initOrder[n]? = some index → index ∉ initOrder.take n := by
  decide

/-- The read of the next index adds its byte to the bytes read so far. -/
theorem map_staged_stage {n : Nat} {index : BitVec 3} (hx : initOrder[n]? = some index) (sc : Scratch) (b : Byte) :
    (initOrder.take (n + 1)).map (sc.stage index b).staged = (initOrder.take n).map sc.staged ++ [b] := by
  obtain ⟨hn, -⟩ := List.getElem?_eq_some_iff.1 hx
  have hnew : index ∉ initOrder.take n := initOrder_not_mem_take n hn index hx
  rw [List.take_add_one, hx, Option.toList_some, List.map_append, List.map_singleton, staged_stage, if_pos rfl]
  congr 1
  apply List.map_congr_left
  intro j hj
  rw [staged_stage, if_neg (ne_of_mem_of_not_mem hj hnew)]

/-- The cache INIT commits is the serial machine's seed from the eight bytes. -/
theorem seeded_eq_seed (sc : Scratch) (params : Params) :
    sc.seeded params = Reference.seed params (sc.staged 6) (sc.staged 7) (sc.staged 4) (sc.staged 5) (sc.staged 2)
      (sc.staged 3) (sc.staged 0) (sc.staged 1) := by
  have hlast := seeded_lastInputState sc params
  simp only [Scratch.seeded] at hlast
  simp only [Scratch.seeded, Reference.seed, hlast]

theorem map_staged_seven (sc : Scratch) : (initOrder.take 7).map sc.staged =
    [sc.staged 6, sc.staged 7, sc.staged 4, sc.staged 5, sc.staged 2, sc.staged 3, sc.staged 0] := rfl

/-! ## The bytes a command has read -/

/-- The bytes that the command `i` in execution has read so far, oldest first. -/
def Exec.readBy (e : Exec) : Instr → List Byte
  | .init => (initOrder.take e.done).map e.scratch.staged
  | .getvals => if e.done = 0 then [] else [e.scratch.in0]
  | .setdir _ _ | .getdir _ | .setpol _ _ | .getpol _ | .setval _ _ | .getval _ => []

/-- They are the bytes of `Exec.taken`, which reads the command from its word. -/
theorem taken_eq_readBy {e : Exec} {i : Instr} (h : decode e.word = some i) : e.taken = e.readBy i := by
  unfold Exec.taken
  rw [h]
  cases i <;> rfl

theorem readBy_of_start {e : Exec} (h : e.done = 0) (i : Instr) : e.readBy i = [] := by
  cases i <;> simp [Exec.readBy, h]

theorem taken_of_start {e : Exec} (h : e.done = 0) : e.taken = [] := by
  unfold Exec.taken
  split
  · rw [h]; rfl
  · rw [if_pos h]
  · rfl

/-! ## The requests of the serial machine, at a state of the machine (20_memory.md R68) -/

theorem request_init {s : State} {n : Nat} {index : BitVec 3} (hx : initOrder[n]? = some index)
    (hallowed : ¬ (n = 0 ∧ s.initialized = true ∧ s.params.reinit = .refuse)) :
    Reference.request s.params s.view .init n = some (s.params.read index) := by
  have hview : s.view.isSome = s.initialized := by cases h : s.initialized <;> simp [State.view, h]
  simp only [Reference.request, hview, if_neg hallowed, hx]
  rfl

theorem request_setInstr (params : Params) (c : Cache) (C : PairName) {p : Nat} (v : Bool) (hp : p ≤ 15) :
    Reference.request params (some c) (C.setInstr p v) 0 =
      some (params.write (deviceIndex C.base p) (c.newByte C p v)) := by
  rw [← setRequest_eq params C c p v hp]
  cases C <;> simp [PairName.setInstr, Reference.request, hp, PairName.base, Cache.pair]

theorem request_getval_of_input (params : Params) {c : Cache} {p : Nat} (hp : p ≤ 15) (hin : c.config.pin p = true) :
    Reference.request params (some c) (.getval p) 0 = some (params.read (deviceIndex 0 p)) := by
  rw [pin_eq_getLsbD_word _ p hp] at hin
  have hindex : (if p < 8 then 0 else 1 : BitVec 3) = deviceIndex 0 p := by
    simp only [deviceIndex, reg]
    by_cases h : p < 8
    · rw [if_pos h, show 0 + p / 8 = 0 by omega]; rfl
    · rw [if_neg h, show 0 + p / 8 = 1 by omega]; rfl
  simp [Reference.request, hp, hin, ← hindex, Params.read]

theorem request_of_invalid_pin (params : Params) (v : Option Cache) {i : Instr} {p : Nat} (hpin : i.pin? = some p)
    (h15 : 15 < p) (n : Nat) : Reference.request params v i n = none := by
  have : ¬ p ≤ 15 := by omega
  cases i <;> cases hpin <;> cases v <;> simp [Reference.request, this]

theorem request_start_of_no_cache (params : Params) {i : Instr} (hne : i ≠ .init) :
    Reference.request params none i 0 = none := by
  cases i with
  | init => exact absurd rfl hne
  | setdir p v | getdir p | setpol p v | getpol p | setval p v | getval p | getvals => rfl

/-! ## A step of a command, with its request -/

/-- What one step of the command `i` makes of the state `s`, with the request that the serial machine lists for it: the
endings at a check or from the cache, the wait, the failed transaction, the reads that the command goes on after, and one
commit for each command that has one. -/
inductive ExecStep (i : Instr) (s : State) (e : Exec) : State → Prop
  | ends (st : Status) (d : Word) (hdone : e.done = 0) (hreq : Reference.request s.params s.view i e.done = none)
      (hres : Reference.runInstr s.params s.view i [] = ⟨s.view, st, d⟩) : ExecStep i s e (s.release e.port st d)
  | waits (req : BusRequest) (hreq : Reference.request s.params s.view i e.done = some req) (hr : s.nextReply = none) :
      ExecStep i s e (s.hang (e.sending req) req)
  | fails (req : BusRequest) (hreq : Reference.request s.params s.view i e.done = some req)
      (hr : s.nextReply = some .err) : ExecStep i s e ((s.answered req .err).raise e .busError)
  | stages (index : BitVec 3) (b : Byte) (hi : i = .init) (hx : initOrder[e.done]? = some index) (hlt : e.done + 1 < 8)
      (hreq : Reference.request s.params s.view i e.done = some (s.params.read index)) (hr : s.nextReply = some (.ok b)) :
      ExecStep i s e ((s.answered (s.params.read index) (.ok b)).advance e (e.scratch.stage index b))
  | keepsLow (b : Byte) (hi : i = .getvals) (hdone : e.done = 0) (hinit : s.initialized = true)
      (hreq : Reference.request s.params s.view i e.done = some (s.params.read 0)) (hr : s.nextReply = some (.ok b)) :
      ExecStep i s e ((s.answered (s.params.read 0) (.ok b)).advance e { e.scratch with in0 := b })
  | seeds (b : Byte) (hi : i = .init) (hdone : e.done = 7)
      (hreq : Reference.request s.params s.view i e.done = some (s.params.read 1)) (hr : s.nextReply = some (.ok b)) :
      ExecStep i s e (((s.answered (s.params.read 1) (.ok b)).commitInit (e.scratch.stage 1 b)).respond e 0)
  | sets (C : PairName) (p : Nat) (v : Bool) (b : Byte) (hi : i = C.setInstr p v) (hdone : e.done = 0)
      (hinit : s.initialized = true) (hp : p ≤ 15)
      (hreq : Reference.request s.params s.view i e.done =
        some (s.params.write (deviceIndex C.base p) (s.cache.newByte C p v)))
      (hr : s.nextReply = some (.ok b)) :
      ExecStep i s e (((s.answered (s.params.write (deviceIndex C.base p) (s.cache.newByte C p v)) (.ok b)).setCache
        (s.cache.commitByte C p (s.cache.newByte C p v))).respond e 0)
  | reportsPin (p : Nat) (b : Byte) (hi : i = .getval p) (hdone : e.done = 0) (hinit : s.initialized = true) (hp : p ≤ 15)
      (hin : s.cache.config.pin p = true)
      (hreq : Reference.request s.params s.view i e.done = some (s.params.read (deviceIndex 0 p)))
      (hr : s.nextReply = some (.ok b)) :
      ExecStep i s e (((s.answered (s.params.read (deviceIndex 0 p)) (.ok b)).setCache
        (s.cache.setLevel p (s.cache.inputLevel s.params p b))).respond e (zext16 (s.cache.inputLevel s.params p b)))
  | reportsAll (b : Byte) (hi : i = .getvals) (hdone : e.done = 1) (hinit : s.initialized = true)
      (hreq : Reference.request s.params s.view i e.done = some (s.params.read 1)) (hr : s.nextReply = some (.ok b)) :
      ExecStep i s e (((s.answered (s.params.read 1) (.ok b)).setCache
        { s.cache with lastInputState := s.cache.levels s.params (b ++ e.scratch.in0) }).respond e
          (s.cache.levels s.params (b ++ e.scratch.in0)))

/-- Before the first successful INIT every other command ends with `NotInitialized` (30_encoding.md R76). -/
theorem execStep_of_not_initialized {i : Instr} {s : State} {e : Exec} (hne : i ≠ .init) (hd : e.done = 0)
    (hi : s.initialized = false) : ExecStep i s e (s.raise e .notInitialized) := by
  have hview := (view_eq_none_iff s).2 hi
  refine .ends _ _ hd ?_ ?_ <;> rw [hview]
  · rw [hd, request_start_of_no_cache _ hne]
  · cases i with
    | init => exact absurd rfl hne
    | setdir p v | getdir p | setpol p v | getpol p | setval p v | getval p | getvals => rfl

/-- A pin above 15 ends a command with `InvalidPin` (30_encoding.md R76). -/
theorem execStep_of_invalid_pin {i : Instr} {p : Nat} {s : State} {e : Exec} (hpin : i.pin? = some p) (h15 : 15 < p)
    (hd : e.done = 0) (hi : s.initialized = true) : ExecStep i s e (s.raise e .invalidPin) := by
  refine .ends _ _ hd (request_of_invalid_pin _ _ hpin h15 _) ?_
  have : ¬ p ≤ 15 := by omega
  rw [view_of_initialized hi]
  cases i <;> cases hpin <;> simp [Reference.runInstr, this, Reference.failed]

/-- A get command of the cached pair `C` ends with the pin's bit. -/
theorem execStep_of_cached_bit {i : Instr} {p : Nat} {s : State} {e : Exec} {C : PairName} (hd : e.done = 0)
    (hi : s.initialized = true) (hp : p ≤ 15) (hreq : Reference.request s.params (some s.cache) i 0 = none)
    (hres : Reference.runInstr s.params (some s.cache) i [] =
      ⟨some s.cache, .ok, zext16 ((s.cache.pair C).word.getLsbD p)⟩) :
    ExecStep i s e (s.respond e (zext16 ((s.cache.pair C).pin p))) := by
  refine .ends _ _ hd ?_ ?_ <;> rw [view_of_initialized hi]
  · rw [hd, hreq]
  · rw [hres, pin_eq_getLsbD_word _ p hp]

theorem execStep_of_rmw {s t : State} {e : Exec} {C : PairName} {p : Nat} {v : Bool} (hp : s.phase = .exec e)
    (h : s.rmw C p v = .next t) : ExecStep (C.setInstr p v) s e t := by
  have hpin : (C.setInstr p v).pin? = some p := by cases C <;> rfl
  have hne : C.setInstr p v ≠ .init := by cases C <;> simp [PairName.setInstr]
  obtain ⟨e', hp', hd, hcases⟩ := rmw_next h
  obtain rfl := Phase.exec.inj (hp.symm.trans hp')
  have hreq (hi : s.initialized = true) (h15 : p ≤ 15) : Reference.request s.params s.view (C.setInstr p v) e.done =
      some (s.params.write (deviceIndex C.base p) (s.cache.newByte C p v)) := by
    rw [view_of_initialized hi, hd, request_setInstr _ _ _ _ h15]
  obtain ⟨hi, rfl⟩ | ⟨hi, h15, rfl⟩ | ⟨hi, h15, r, hr, rfl⟩ | ⟨hi, h15, hr, rfl⟩ := hcases
  · exact execStep_of_not_initialized hne hd hi
  · exact execStep_of_invalid_pin hpin h15 hd hi
  · cases r with
    | ok b => exact .sets C p v b rfl hd hi h15 (hreq hi h15) hr
    | err => exact .fails _ (hreq hi h15) hr
  · exact .waits _ (hreq hi h15) hr

theorem execStep_of_answerBit {i : Instr} {s t : State} {e : Exec} {C : PairName} {p : Nat} (hp : s.phase = .exec e)
    (h : s.answerBit C p = .next t) (hi : i = .getdir p ∧ C = .config ∨ i = .getpol p ∧ C = .polarity) :
    ExecStep i s e t := by
  have hpin : i.pin? = some p := by obtain ⟨rfl, -⟩ | ⟨rfl, -⟩ := hi <;> rfl
  have hne : i ≠ .init := by rintro rfl; cases hpin
  obtain ⟨e', hp', hd, hcases⟩ := answerBit_next h
  obtain rfl := Phase.exec.inj (hp.symm.trans hp')
  obtain ⟨hini, rfl⟩ | ⟨hini, h15, rfl⟩ | ⟨hini, h15, rfl⟩ := hcases
  · exact execStep_of_not_initialized hne hd hini
  · exact execStep_of_invalid_pin hpin h15 hd hini
  · obtain ⟨rfl, rfl⟩ | ⟨rfl, rfl⟩ := hi
    · exact execStep_of_cached_bit hd hini h15 rfl (by simp [Reference.runInstr, h15, Cache.pair])
    · exact execStep_of_cached_bit hd hini h15 rfl (by simp [Reference.runInstr, h15, Cache.pair])

theorem execStep_of_execInit {s t : State} {e : Exec} (hp : s.phase = .exec e) (h : execInit s = .next t) :
    ExecStep .init s e t := by
  obtain ⟨e', index, hp', hx, hallowed, hcases⟩ := execInit_next h
  obtain rfl := Phase.exec.inj (hp.symm.trans hp')
  have hreq := request_init hx hallowed
  obtain ⟨hlt, -⟩ := List.getElem?_eq_some_iff.1 hx
  have hlen : initOrder.length = 8 := rfl
  obtain ⟨r, hr, rfl⟩ | ⟨hr, rfl⟩ := hcases
  · cases r with
    | err => exact .fails _ hreq hr
    | ok b =>
      by_cases hlast : e.done + 1 = initOrder.length
      · have hdone : e.done = 7 := by omega
        obtain rfl : 1 = index := Option.some.inj (by rw [← hx, hdone]; rfl)
        simp only [if_pos hlast]
        exact .seeds b rfl hdone hreq hr
      · simp only [if_neg hlast]
        exact .stages index b rfl hx (by omega) hreq hr
  · exact .waits _ hreq hr

theorem execStep_of_execGetval {s t : State} {e : Exec} {p : Nat} (hp : s.phase = .exec e)
    (h : execGetval p s = .next t) : ExecStep (.getval p) s e t := by
  obtain ⟨e', hp', hd, hcases⟩ := execGetval_next h
  obtain rfl := Phase.exec.inj (hp.symm.trans hp')
  have hreq (hi : s.initialized = true) (h15 : p ≤ 15) (hin : s.cache.config.pin p = true) :
      Reference.request s.params s.view (.getval p) e.done = some (s.params.read (deviceIndex 0 p)) := by
    rw [view_of_initialized hi, hd, request_getval_of_input _ h15 hin]
  obtain ⟨hi, rfl⟩ | ⟨hi, h15, rfl⟩ | ⟨hi, h15, hout, rfl⟩ | ⟨hi, h15, hin, r, hr, rfl⟩ | ⟨hi, h15, hin, hr, rfl⟩ := hcases
  · exact execStep_of_not_initialized (by simp) hd hi
  · exact execStep_of_invalid_pin rfl h15 hd hi
  · rw [pin_eq_getLsbD_word _ p h15] at hout
    exact execStep_of_cached_bit (C := .output) hd hi h15 (by simp [Reference.request, hout])
      (by simp [Reference.runInstr, h15, hout, Cache.pair])
  · cases r with
    | ok b => exact .reportsPin p b rfl hd hi h15 hin (hreq hi h15 hin) hr
    | err => exact .fails _ (hreq hi h15 hin) hr
  · exact .waits _ (hreq hi h15 hin) hr

theorem execStep_of_execGetvals {s t : State} {e : Exec} (hp : s.phase = .exec e) (h : execGetvals s = .next t) :
    ExecStep .getvals s e t := by
  obtain ⟨e', hp', hcases⟩ := execGetvals_next h
  obtain rfl := Phase.exec.inj (hp.symm.trans hp')
  have hlow (hi : s.initialized = true) (hd : e.done = 0) :
      Reference.request s.params s.view .getvals e.done = some (s.params.read 0) := by
    rw [view_of_initialized hi, hd]; rfl
  have hhigh (hd : e.done = 1) : Reference.request s.params s.view .getvals e.done = some (s.params.read 1) := by
    rw [hd]; cases s.view <;> rfl
  obtain ⟨hd, hi, rfl⟩ | ⟨hd, hi, r, hr, rfl⟩ | ⟨hd, hr, rfl⟩ | ⟨hd, hi, b, hr, rfl⟩ |
    ⟨hr, ⟨hd, hi, rfl⟩ | ⟨hd, rfl⟩⟩ := hcases
  · exact execStep_of_not_initialized (by simp) hd hi
  · cases r with
    | ok b => exact .keepsLow b rfl hd hi (hlow hi hd) hr
    | err => exact .fails _ (hlow hi hd) hr
  · exact .fails _ (hhigh hd) hr
  · exact .reportsAll b rfl hd hi (hhigh hd) hr
  · exact .waits _ (hlow hi hd) hr
  · exact .waits _ (hhigh hd) hr

/-- Every step of a command is one of these. -/
theorem exec_execStep {i : Instr} {s t : State} {e : Exec} (hp : s.phase = .exec e) (h : exec i s = .next t) :
    ExecStep i s e t := by
  cases i with
  | init => exact execStep_of_execInit hp h
  | setdir p v => exact execStep_of_rmw (C := .config) hp h
  | getdir p => exact execStep_of_answerBit hp h (.inl ⟨rfl, rfl⟩)
  | setpol p v => exact execStep_of_rmw (C := .polarity) hp h
  | getpol p => exact execStep_of_answerBit hp h (.inr ⟨rfl, rfl⟩)
  | setval p v => exact execStep_of_rmw (C := .output) hp h
  | getval p => exact execStep_of_execGetval hp h
  | getvals => exact execStep_of_execGetvals hp h

/-- A step for which the table lists no request ends the command. -/
theorem ExecStep.eq_release_of_no_request {i : Instr} {s t : State} {e : Exec} (h : ExecStep i s e t)
    (hnone : Reference.request s.params s.view i e.done = none) : ∃ st d, t = s.release e.port st d := by
  cases h with
  | ends st d hdone hreq hres => exact ⟨st, d, rfl⟩
  | waits req hreq hr | fails req hreq hr | stages index b hi hx hlt hreq hr | keepsLow b hi hdone hinit hreq hr
  | seeds b hi hdone hreq hr | sets C p v b hi hdone hinit h15 hreq hr | reportsPin p b hi hdone hinit h15 hin hreq hr
  | reportsAll b hi hdone hinit hreq hr => cases hnone.symm.trans hreq

/-- A step whose request is never answered waits. -/
theorem ExecStep.eq_hang_of_no_reply {i : Instr} {s t : State} {e : Exec} {req : BusRequest} (h : ExecStep i s e t)
    (hlisted : Reference.request s.params s.view i e.done = some req) (hnone : s.nextReply = none) :
    t = s.hang (e.sending req) req := by
  cases h with
  | ends st d hdone hreq hres => cases hlisted.symm.trans hreq
  | waits req' hreq hr =>
    obtain rfl := Option.some.inj (hlisted.symm.trans hreq)
    rfl
  | fails req hreq hr | stages index b hi hx hlt hreq hr | keepsLow b hi hdone hinit hreq hr
  | seeds b hi hdone hreq hr | sets C p v b hi hdone hinit h15 hreq hr | reportsPin p b hi hdone hinit h15 hin hreq hr
  | reportsAll b hi hdone hinit hreq hr => cases hnone.symm.trans hr

end Sys2Proof.Machine
end

section
/-! Linearizability (20_memory.md R59): the events of a run replay on the serial machine of whole commands, and every step keeps
the replay in agreement with the state. -/

namespace Sys2Proof.Machine

open State

/-! ## What a whole command leaves -/

theorem err_mem_of_append_eq {rs l : List BusReply} (h : rs ++ [.err] = l) : .err ∈ l := by simp [← h]

theorem setResult_fails (c c' : Cache) (rs : List BusReply) :
    Reference.setResult c c' (rs ++ [.err]) = Reference.failed (some c) .busError := by
  unfold Reference.setResult
  split
  · rename_i h
    exact absurd (err_mem_of_append_eq h) (by simp)
  · rfl

/-- A command whose last request failed ends with `BusError`, whatever it was answered before. -/
theorem runInstr_fails {params : Params} {v : Option Cache} {i : Instr} {n : Nat} {req : BusRequest}
    (hreq : Reference.request params v i n = some req) (rs : List BusReply) :
    Reference.runInstr params v i (rs ++ [.err]) = Reference.failed v .busError := by
  cases i with
  | init =>
    simp only [Reference.runInstr]
    split
    · rename_i h
      exact absurd (err_mem_of_append_eq h) (by simp)
    · rfl
  | setdir p b | setpol p b | setval p b =>
    cases v with
    | none => cases hreq
    | some c =>
      simp only [Reference.request, Option.ite_none_right_eq_some] at hreq
      obtain ⟨⟨-, hp⟩, -⟩ := hreq
      simp only [Reference.runInstr, if_pos hp, setResult_fails]
  | getdir p | getpol p => cases v <;> cases hreq
  | getval p =>
    cases v with
    | none => cases hreq
    | some c =>
      simp only [Reference.request, Option.ite_none_right_eq_some] at hreq
      obtain ⟨⟨-, hp, hin⟩, -⟩ := hreq
      simp only [Reference.runInstr, if_pos hp, if_pos hin]
      split
      · rename_i h
        exact absurd (err_mem_of_append_eq h) (by simp)
      · rfl
  | getvals =>
    cases v with
    | none => cases rs <;> rfl
    | some c =>
      simp only [Reference.runInstr]
      split
      · rename_i h
        exact absurd (err_mem_of_append_eq h) (by simp)
      · rfl

/-- The serial machine's pair of a set command is the one the machine commits. -/
theorem runInstr_setInstr (params : Params) (c : Cache) (C : PairName) {p : Nat} (v : Bool) (hp : p ≤ 15) (b : Byte) :
    Reference.runInstr params (some c) (C.setInstr p v) [.ok b] =
      ⟨some (c.commitByte C p (c.newByte C p v)), .ok, 0⟩ := by
  cases C <;>
    simp [PairName.setInstr, Reference.runInstr, hp, Reference.setResult, setPin_eq _ _ _ hp, Cache.commitByte,
      Cache.newByte, Cache.setPair, Cache.pair]

theorem runInstr_getval_of_input (s : State) {p : Nat} (hp : p ≤ 15) (hin : s.cache.config.pin p = true) (b : Byte) :
    Reference.runInstr s.params (some s.cache) (.getval p) [.ok b] =
      ⟨some (s.cache.setLevel p (s.cache.inputLevel s.params p b)), .ok, zext16 (s.cache.inputLevel s.params p b)⟩ := by
  have hlevel : (s.cache.levels s.params (b ++ b)).getLsbD p = s.cache.inputLevel s.params p b := by
    rw [getLsbD_levels_of_input s b b hp hin, ite_self]
  rw [pin_eq_getLsbD_word _ p hp] at hin
  simp only [Reference.runInstr, if_pos hp, if_pos hin, hlevel, Cache.setLevel]

theorem runInstr_init_of_eight (params : Params) (v : Option Cache) (sc : Scratch) (b : Byte) :
    Reference.runInstr params v .init (((initOrder.take 7).map sc.staged).map .ok ++ [.ok b]) =
      ⟨some ((sc.stage 1 b).seeded params), .ok, 0⟩ := by
  rw [seeded_eq_seed, map_staged_seven]
  simp [Reference.runInstr, staged_stage]

/-- At most how many steps the command takes, the release step included. -/
def commandSteps : Instr → Nat
  | .init => 8
  | .getvals => 2
  | .setdir _ _ | .getdir _ | .setpol _ _ | .getpol _ | .setval _ _ | .getval _ => 1

/-- A command with a request to come is within its transactions. -/
theorem lt_commandSteps_of_request {params : Params} {v : Option Cache} {i : Instr} {n : Nat} {req : BusRequest}
    (hreq : Reference.request params v i n = some req) : n < commandSteps i := by
  cases i with
  | init =>
    simp only [Reference.request, Option.ite_none_left_eq_some, Option.map_eq_some_iff] at hreq
    obtain ⟨-, index, hx, -⟩ := hreq
    obtain ⟨hlt, -⟩ := List.getElem?_eq_some_iff.1 hx
    exact hlt
  | getvals =>
    by_contra hn
    have h0 : n ≠ 0 := by rintro rfl; exact hn (by decide)
    have h1 : n ≠ 1 := by rintro rfl; exact hn (by decide)
    cases v <;> simp [Reference.request, h0, h1] at hreq
  | setdir p b | setpol p b | setval p b | getval p =>
    cases v with
    | none => cases hreq
    | some c =>
      simp only [Reference.request, Option.ite_none_right_eq_some] at hreq
      obtain ⟨⟨rfl, -⟩, -⟩ := hreq
      exact Nat.one_pos
  | getdir p | getpol p => cases v <;> cases hreq

/-- A command within its transactions has read one byte in each of those so far. -/
theorem length_readBy {e : Exec} {i : Instr} (h : e.done < commandSteps i) : (e.readBy i).length = e.done := by
  cases i with
  | init =>
    have hlen : initOrder.length = 8 := rfl
    have h8 : e.done < 8 := h
    simp only [Exec.readBy, List.length_map, List.length_take]
    omega
  | getvals =>
    obtain hd | hd : e.done = 0 ∨ e.done = 1 := by have h2 : e.done < 2 := h; omega
    · simp [Exec.readBy, hd]
    · simp [Exec.readBy, hd]
  | setdir p b | getdir p | setpol p b | getpol p | setval p b | getval p => exact (Nat.lt_one_iff.1 h).symm

/-! ## The state as a replay -/

/-- What the replay of a run that agrees with the serial machine holds at the state `s`. -/
def State.serial (s : State) : Replay where
  cache := s.view
  ports := s.ports
  current := s.phase.exec?.map fun e => (e.port, e.word, e.taken.map .ok)
  hung := match s.phase with
    | .idle => none
    | .exec _ => none
    | .stuck _ req => some req
  agrees := true

theorem linear_iff (s : State) : s.Linear ↔ replay s.params s.ports.length s.log = s.serial := by
  constructor
  · rintro ⟨hagrees, hcache, hports, hcurrent, hhung⟩
    generalize replay s.params s.ports.length s.log = r at *
    cases r
    simp only [State.serial, Replay.mk.injEq]
    exact ⟨hcache, hports, hcurrent, hhung, hagrees⟩
  · intro h
    constructor <;> rw [h] <;> rfl

/-- The events of a step, replayed from the state before it. -/
theorem State.Linear.of_events {s t : State} (h : s.Linear) (evs : List Event) (hlog : t.log = evs ++ s.log)
    (hparams : t.params = s.params) (hports : t.ports.length = s.ports.length)
    (hevents : evs.foldr (fun ev r => r.event s.params ev) s.serial = t.serial) : t.Linear := by
  rw [linear_iff] at h ⊢
  rw [hparams, hports, hlog, ← hevents, ← h]
  clear hevents hlog
  induction evs with
  | nil => rfl
  | cons ev evs ih => exact congrArg (Replay.event s.params · ev) ih

theorem linear_takeMove {s : State} (h : s.Linear) : s.takeMove.Linear :=
  ⟨h.agrees, h.cache, h.ports, h.current, h.hung⟩

/-- Settles O50: a construction has no event, and the serial machine's start has no more. -/
theorem constructedStateIsLinear : Obligations.ConstructedStateIsLinear := by
  intro params n agenda arb answers
  rw [linear_iff]
  simp [State.constructed, replay, Replay.start, State.serial, State.view, Phase.exec?]

/-! ## The steps that are no command's -/

theorem linear_issue {s : State} (h : s.Linear) {k : Nat} {p : Port} (w : Word) (hk : s.ports[k]? = some p)
    (hmay : p.mayIssue = true) :
    State.Linear { s with ports := s.ports.set k (.pending w), log := .issue k w :: s.log } := by
  refine h.of_events [.issue k w] rfl rfl (by simp) ?_
  have hport : (s.ports[k]?).map Port.mayIssue = some true := by rw [hk, Option.map_some, hmay]
  exact if_pos hport

theorem linear_construct {s : State} (h : s.Linear) : s.construct.Linear := by
  refine h.of_events [.reset] rfl rfl (by simp) ?_
  simp [Replay.event, State.serial, Replay.start, State.view, Phase.exec?]

theorem linear_grantTo {s : State} (h : s.Linear) {k : Nat} {w : Word} (hp : s.phase = .idle)
    (hk : s.ports[k]? = some (.pending w)) : (s.grantTo k w).Linear := by
  refine h.of_events [.grant k w] rfl rfl (by simp) ?_
  have hview : (s.grantTo k w).view = s.view := rfl
  simp [Replay.event, State.serial, hp, hk, Phase.exec?, hview, taken_of_start]

/-! ## The steps of a command -/

/-- A command that ends without a transaction. -/
theorem linear_release {s : State} {e : Exec} (h : s.Linear) (hp : s.phase = .exec e) {st : Status} {d : Word}
    (hres : Reference.run s.params s.view e.word (e.taken.map .ok) = ⟨s.view, st, d⟩) :
    (s.release e.port st d).Linear := by
  refine h.of_events [.release e.port st d] rfl rfl (by simp) ?_
  have hview : (s.release e.port st d).view = s.view := rfl
  simp [Replay.event, State.serial, hp, hres, hview, Phase.exec?]

/-- A command that ends after a transaction, in a state with the serial machine's cache. -/
theorem linear_release_after_bus {s u : State} {e : Exec} {i : Instr} (h : s.Linear) (hp : s.phase = .exec e)
    (hdec : decode e.word = some i) {req : BusRequest} {r : BusReply}
    {st : Status} {d : Word}
    (hreq : Reference.request s.params s.view i e.done = some req)
    (hres : Reference.runInstr s.params s.view i ((e.readBy i).map .ok ++ [r]) = ⟨u.view, st, d⟩)
    (hparams : u.params = s.params) (hports : u.ports = s.ports) (hlog : u.log = .bus req r :: s.log) :
    (u.release e.port st d).Linear := by
  refine h.of_events [.release e.port st d, .bus req r] (by simp [hlog]) (by simp [hparams]) (by simp [hports]) ?_
  have hview : (u.release e.port st d).view = u.view := rfl
  have hlen := length_readBy (lt_commandSteps_of_request hreq)
  simp [Replay.event, State.serial, hp, hdec, taken_eq_readBy hdec, hlen, hreq, hres, hports, hview, Phase.exec?,
    Reference.run]

/-- A command that goes on after a transaction, with one more byte read. -/
theorem linear_advance {s : State} {e : Exec} {i : Instr} (h : s.Linear) (hp : s.phase = .exec e)
    (hdec : decode e.word = some i) {req : BusRequest} {b : Byte} {sc : Scratch}
    (hreq : Reference.request s.params s.view i e.done = some req)
    (hread : ({ e with done := e.done + 1, scratch := sc } : Exec).readBy i = e.readBy i ++ [b]) :
    ((s.answered req (.ok b)).advance e sc).Linear := by
  refine h.of_events [.bus req (.ok b)] rfl rfl (by simp) ?_
  have hview : ((s.answered req (.ok b)).advance e sc).view = s.view := rfl
  have hlen := length_readBy (lt_commandSteps_of_request hreq)
  have htaken := taken_eq_readBy (e := { e with done := e.done + 1, scratch := sc }) hdec
  simp [Replay.event, State.serial, hp, hdec, taken_eq_readBy hdec, hlen, hreq, hview, Phase.exec?, htaken, hread]

/-- A command that waits for ever. -/
theorem linear_hang {s : State} {e : Exec} {i : Instr} (h : s.Linear) (hp : s.phase = .exec e)
    (hdec : decode e.word = some i) {req : BusRequest}
    (hreq : Reference.request s.params s.view i e.done = some req) : (s.hang (e.sending req) req).Linear := by
  refine h.of_events [.hang req] rfl rfl (by simp) ?_
  have hview : (s.hang (e.sending req) req).view = s.view := rfl
  have hlen := length_readBy (lt_commandSteps_of_request hreq)
  simp [Replay.event, State.serial, hp, hdec, taken_eq_readBy hdec, hlen, hreq, hview, Phase.exec?]

theorem view_setCache_answered {s : State} (h : s.initialized = true) (req : BusRequest) (r : BusReply) (c : Cache) :
    ((s.answered req r).setCache c).view = some c :=
  view_of_initialized (s := (s.answered req r).setCache c) h

/-- Every step of a command keeps the agreement. -/
theorem linear_exec {s t : State} {e : Exec} {i : Instr} (h : s.Linear) (hp : s.phase = .exec e)
    (hdec : decode e.word = some i) (hexec : exec i s = .next t) : t.Linear := by
  cases exec_execStep hp hexec with
  | ends st d hdone hreq hres =>
    refine linear_release h hp ?_
    rw [taken_of_start hdone, Reference.run, hdec]
    exact hres
  | waits req hreq hr => exact linear_hang h hp hdec hreq
  | fails req hreq hr => exact linear_release_after_bus h hp hdec hreq (runInstr_fails hreq _) rfl rfl rfl
  | stages index b hi hx hlt hreq hr =>
    subst hi
    exact linear_advance h hp hdec hreq (map_staged_stage hx e.scratch b)
  | keepsLow b hi hdone hinit hreq hr =>
    subst hi
    exact linear_advance h hp hdec hreq (by simp [Exec.readBy, hdone])
  | seeds b hi hdone hreq hr =>
    subst hi
    refine linear_release_after_bus h hp hdec hreq ?_ rfl rfl rfl
    rw [Exec.readBy, hdone, runInstr_init_of_eight]
    rfl
  | sets C p v b hi hdone hinit h15 hreq hr =>
    subst hi
    refine linear_release_after_bus h hp hdec hreq ?_ rfl rfl rfl
    rw [readBy_of_start hdone, view_of_initialized hinit, view_setCache_answered hinit]
    exact runInstr_setInstr s.params s.cache C v h15 b
  | reportsPin p b hi hdone hinit h15 hin hreq hr =>
    subst hi
    refine linear_release_after_bus h hp hdec hreq ?_ rfl rfl rfl
    rw [readBy_of_start hdone, view_of_initialized hinit, view_setCache_answered hinit]
    exact runInstr_getval_of_input s h15 hin b
  | reportsAll b hi hdone hinit hreq hr =>
    subst hi
    refine linear_release_after_bus h hp hdec hreq ?_ rfl rfl rfl
    rw [view_of_initialized hinit, view_setCache_answered hinit]
    simp [Exec.readBy, hdone, Reference.runInstr]

/-- Settles O51: the events of each kind of step replay to the state it leaves. -/
theorem stepKeepsRunLinear : Obligations.StepKeepsRunLinear := by
  intro s t hs h
  have hs' := linear_takeMove hs
  rcases step_next h with ⟨k, w, p, -, hk, hmay, rfl⟩ | ⟨-, rfl⟩ | ⟨-, -, rfl⟩ | ⟨k, w, -, hp, -, hk, rfl⟩ |
    ⟨e, -, hp, hdec, rfl⟩ | ⟨e, i, -, hp, hdec, hexec⟩ | ⟨e, req, -, -, rfl⟩
  · exact linear_issue hs' w hk hmay
  · exact linear_construct hs'
  · exact hs'
  · exact linear_grantTo hs' hp hk
  · refine linear_release hs' hp ?_
    rw [Reference.run, hdec]
    rfl
  · exact linear_exec hs' hp hdec hexec
  · exact hs'

end Sys2Proof.Machine
end

section
/-! The bus requests of a step are those of the serial machine's table (20_memory.md R68), and what follows from the table:
the parameters they carry (10_state.md R30) and the indices that only INIT reads (20_memory.md R67). -/

namespace Sys2Proof.Machine

open State

/-! ## The request of a step -/

/-- From `s` to `t` the request `o`, if any, was issued, recorded and answered or left to wait; and no other. -/
def IssuesRequest (s t : State) (o : Option BusRequest) : Prop :=
  (newEvents s t).filterMap Event.request? = o.toList ∧
  (∀ req, o = some req →
    OneAnswer s t ∧ (∀ r, s.nextReply = some r → Event.bus req r ∈ newEvents s t) ∧
    (s.nextReply = none → Event.hang req ∈ newEvents s t)) ∧
  (o = none → t.answers = s.answers)

theorem issuesRequest_none {s t : State} (evs : List Event) (hlog : t.log = evs ++ s.log)
    (hevs : evs.filterMap Event.request? = []) (hanswers : t.answers = s.answers) : IssuesRequest s t none :=
  ⟨by rw [newEvents_of_log_eq_append hlog, hevs]; rfl, by simp, fun _ => hanswers⟩

theorem issuesRequest_answered {s t : State} {req : BusRequest} {r : BusReply} (evs : List Event)
    (hlog : t.log = evs ++ s.log) (hevs : evs.filterMap Event.request? = [req]) (hmem : .bus req r ∈ evs)
    (hr : s.nextReply = some r) (hone : OneAnswer s t) : IssuesRequest s t (some req) := by
  unfold IssuesRequest
  rw [newEvents_of_log_eq_append hlog]
  refine ⟨hevs, fun req' hreq => ?_, by simp⟩
  obtain rfl := Option.some.inj hreq
  refine ⟨hone, fun r' hr' => ?_, fun hnone => ?_⟩
  · obtain rfl := Option.some.inj (hr.symm.trans hr')
    exact hmem
  · cases hr.symm.trans hnone

theorem issuesRequest_hang {s : State} (e : Exec) (req : BusRequest) (hr : s.nextReply = none) :
    IssuesRequest s (s.hang e req) (some req) := by
  have hnew : newEvents s (s.hang e req) = [.hang req] := newEvents_of_log_eq_append rfl
  refine ⟨by rw [hnew]; rfl, fun req' hreq => ?_, by simp⟩
  obtain rfl := Option.some.inj hreq
  exact ⟨oneAnswer_hang hr e req, by simp [hr], fun _ => by simp [hnew]⟩

theorem oneAnswer_of_answered {s t : State} {req : BusRequest} {r : BusReply}
    (hanswers : t.answers = (s.answered req r).answers) (hdraws : t.draws = (s.answered req r).draws) : OneAnswer s t := by
  unfold OneAnswer
  rw [hanswers, hdraws]
  exact oneAnswer_answered s req r

theorem issuesRequest_bus {s t : State} {req : BusRequest} {r : BusReply} (hlog : t.log = .bus req r :: s.log)
    (hr : s.nextReply = some r) (hanswers : t.answers = (s.answered req r).answers)
    (hdraws : t.draws = (s.answered req r).draws) : IssuesRequest s t (some req) :=
  issuesRequest_answered [.bus req r] hlog rfl (by simp) hr (oneAnswer_of_answered hanswers hdraws)

theorem issuesRequest_bus_release {s t : State} {req : BusRequest} {r : BusReply} {k : Nat} {st : Status} {d : Word}
    (hlog : t.log = .release k st d :: .bus req r :: s.log) (hr : s.nextReply = some r)
    (hanswers : t.answers = (s.answered req r).answers) (hdraws : t.draws = (s.answered req r).draws) :
    IssuesRequest s t (some req) :=
  issuesRequest_answered [.release k st d, .bus req r] hlog rfl (by simp) hr (oneAnswer_of_answered hanswers hdraws)

/-- A step of a command issues the request that the table lists for it. -/
theorem ExecStep.issuesRequest {i : Instr} {s t : State} {e : Exec} (h : ExecStep i s e t) :
    IssuesRequest s t (Reference.request s.params s.view i e.done) := by
  cases h with
  | ends st d hdone hreq hres => exact hreq ▸ issuesRequest_none [.release e.port st d] rfl rfl rfl
  | waits req hreq hr => exact hreq ▸ issuesRequest_hang _ req hr
  | fails req hreq hr => exact hreq ▸ issuesRequest_bus_release rfl hr rfl rfl
  | stages index b hi hx hlt hreq hr => exact hreq ▸ issuesRequest_bus rfl hr rfl rfl
  | keepsLow b hi hdone hinit hreq hr => exact hreq ▸ issuesRequest_bus rfl hr rfl rfl
  | seeds b hi hdone hreq hr => exact hreq ▸ issuesRequest_bus_release rfl hr rfl rfl
  | sets C p v b hi hdone hinit h15 hreq hr =>
    exact hreq ▸ issuesRequest_bus_release rfl hr rfl rfl
  | reportsPin p b hi hdone hinit h15 hin hreq hr =>
    exact hreq ▸ issuesRequest_bus_release rfl hr rfl rfl
  | reportsAll b hi hdone hinit hreq hr =>
    exact hreq ▸ issuesRequest_bus_release rfl hr rfl rfl

/-! ## The request to come -/

theorem nextRequest_of_exec {s : State} {e : Exec} (hm : s.nextMove = .sequencer) (hp : s.phase = .exec e) :
    s.nextRequest = (decode e.word).bind (Reference.request s.params s.view · e.done) := by
  simp [State.nextRequest, hm, hp]

theorem nextRequest_of_ne_sequencer {s : State} (hm : s.nextMove ≠ .sequencer) : s.nextRequest = none := by
  unfold State.nextRequest
  split
  · rename_i h _
    exact absurd h hm
  · rfl

theorem nextRequest_of_not_exec {s : State} (hp : ∀ e, s.phase ≠ .exec e) : s.nextRequest = none := by
  unfold State.nextRequest
  split
  · rename_i e _ h
    exact absurd h (hp e)
  · rfl

/-- A request to come is that of the command in execution. -/
theorem nextRequest_eq_some {s : State} {req : BusRequest} (h : s.nextRequest = some req) :
    ∃ e i, s.nextMove = .sequencer ∧ s.phase = .exec e ∧ decode e.word = some i ∧
      Reference.request s.params s.view i e.done = some req := by
  unfold State.nextRequest at h
  split at h
  · rename_i e hm hp
    obtain ⟨i, hdec, hreq⟩ := Option.bind_eq_some_iff.1 h
    exact ⟨e, i, hm, hp, hdec, hreq⟩
  · cases h

/-- Settles O41: only the steps of a command issue a request. -/
theorem stepIssuesTheListedRequest : Obligations.StepIssuesTheListedRequest := by
  intro s t h
  change IssuesRequest s t s.nextRequest
  rcases step_next h with ⟨k, w, p, hm, -, -, rfl⟩ | ⟨hm, rfl⟩ | ⟨-, hp, rfl⟩ | ⟨k, w, -, hp, -, -, rfl⟩ |
    ⟨e, hm, hp, hdec, rfl⟩ | ⟨e, i, hm, hp, hdec, hexec⟩ | ⟨e, req, -, hp, rfl⟩
  · rw [nextRequest_of_ne_sequencer (by simp [hm])]
    exact issuesRequest_none [.issue k w] rfl rfl rfl
  · rw [nextRequest_of_ne_sequencer (by simp [hm])]
    exact issuesRequest_none [.reset] rfl rfl rfl
  · rw [nextRequest_of_not_exec (by simp [hp])]
    exact issuesRequest_none [] rfl rfl rfl
  · rw [nextRequest_of_not_exec (by simp [hp])]
    exact issuesRequest_none [.grant k w] rfl rfl rfl
  · rw [nextRequest_of_exec hm hp, hdec]
    exact issuesRequest_none [.release e.port .illegalCommand 0] rfl rfl rfl
  · rw [nextRequest_of_exec hm hp, hdec]
    exact (exec_execStep (s := s.takeMove) hp hexec).issuesRequest
  · rw [nextRequest_of_not_exec (by simp [hp])]
    exact issuesRequest_none [] rfl rfl rfl

/-- The request among a step's events is the one to come. -/
theorem nextRequest_of_mem_newEvents {s t : State} {req : BusRequest} (h : step s = .next t)
    (hmem : req ∈ (newEvents s t).filterMap Event.request?) : s.nextRequest = some req := by
  obtain ⟨hevents, -, -⟩ := stepIssuesTheListedRequest s t h
  rw [hevents] at hmem
  simpa using hmem

/-! ## What the table's requests carry -/

/-- The three kinds of request in the table: INIT's reads, the input reads of the get commands, and the writes of the set
commands. -/
theorem request_kinds {params : Params} {v : Option Cache} {i : Instr} {n : Nat} {req : BusRequest}
    (h : Reference.request params v i n = some req) :
    (i = .init ∧ ∃ index, req = params.read index) ∨ (∃ index : BitVec 3, index.toNat < 2 ∧ req = params.read index) ∨
      ∃ index b, req = params.write index b := by
  cases i with
  | init =>
    simp only [Reference.request, Option.ite_none_left_eq_some, Option.map_eq_some_iff] at h
    obtain ⟨-, index, -, rfl⟩ := h
    exact .inl ⟨rfl, index, rfl⟩
  | setdir p b | setpol p b | setval p b =>
    cases v with
    | none => cases h
    | some c =>
      simp only [Reference.request, Option.ite_none_right_eq_some, Option.some.injEq] at h
      obtain ⟨-, rfl⟩ := h
      exact .inr (.inr ⟨_, _, rfl⟩)
  | getdir p | getpol p => cases v <;> cases h
  | getval p =>
    cases v with
    | none => cases h
    | some c =>
      simp only [Reference.request, Option.ite_none_right_eq_some, Option.some.injEq] at h
      obtain ⟨-, rfl⟩ := h
      exact .inr (.inl ⟨_, by split <;> decide, rfl⟩)
  | getvals =>
    cases v with
    | none =>
      simp only [Reference.request, Option.ite_none_right_eq_some, Option.some.injEq] at h
      obtain ⟨-, rfl⟩ := h
      exact .inr (.inl ⟨1, by decide, rfl⟩)
    | some c =>
      simp only [Reference.request] at h
      split_ifs at h with h0 h1
      · obtain rfl := Option.some.inj h
        exact .inr (.inl ⟨0, by decide, rfl⟩)
      · obtain rfl := Option.some.inj h
        exact .inr (.inl ⟨1, by decide, rfl⟩)

/-- The parameters and the number of ports stay, and a reset is a construction with the same ones. -/
theorem step_keeps_params {s t : State} (h : step s = .next t) :
    t.params = s.params ∧ t.ports.length = s.ports.length := by
  rcases step_next h with ⟨k, w, p, -, -, -, rfl⟩ | ⟨-, rfl⟩ | ⟨-, -, rfl⟩ | ⟨k, w, -, -, -, -, rfl⟩ |
    ⟨e, -, -, -, rfl⟩ | ⟨e, i, -, hp, -, hexec⟩ | ⟨e, req, -, -, rfl⟩
  · simp
  · simp
  · simp
  · simp
  · simp
  · cases exec_execStep (s := s.takeMove) hp hexec <;> simp
  · simp

/-- Settles O37: each request of a step is one of the table's, which are made of the parameters. -/
theorem parametersAreFixedAndSent : Obligations.ParametersAreFixedAndSent := by
  intro s t h
  obtain ⟨hparams, hports⟩ := step_keeps_params h
  refine ⟨hparams, hports, fun req hmem => ?_⟩
  obtain ⟨e, i, -, -, -, hreq⟩ := nextRequest_eq_some (nextRequest_of_mem_newEvents h hmem)
  obtain ⟨-, index, rfl⟩ | ⟨index, -, rfl⟩ | ⟨index, b, rfl⟩ := request_kinds hreq
  · exact .inl ⟨index, rfl⟩
  · exact .inl ⟨index, rfl⟩
  · exact .inr ⟨index, b, rfl⟩

/-- Settles O40: of the table's requests only INIT's read an index from 2 on. -/
theorem onlyInitReadsTheCachedRegisters : Obligations.OnlyInitReadsTheCachedRegisters := by
  intro s t busId address index h hmem h2
  obtain ⟨e, i, -, hp, hdec, hreq⟩ := nextRequest_eq_some (nextRequest_of_mem_newEvents h hmem)
  obtain ⟨rfl, -⟩ | ⟨low, hlow, heq⟩ | ⟨low, b, heq⟩ := request_kinds hreq
  · exact ⟨e, hp, hdec⟩
  · obtain ⟨-, -, rfl⟩ := BusRequest.rd.inj heq
    omega
  · cases heq

end Sys2Proof.Machine
end

section
/-! Coherence (10_state.md R29): on the mock bus of 20_memory.md R58, with no other writer, every step keeps the cache equal to
the device. -/

namespace Sys2Proof.Machine

open State

/-! ## The mock bus -/

theorem cellsAfter_of_reply_err {m : Mock} {req : BusRequest} (h : m.reply req = .err) : m.cellsAfter req = m.dev := by
  have hfails : m.failsNext = true := by
    by_contra hn
    simp only [Mock.reply, if_neg hn] at h
    cases req <;> cases h
  simp only [Mock.cellsAfter, if_pos hfails]

theorem not_failsNext_of_reply_ok {m : Mock} {req : BusRequest} {b : Byte} (h : m.reply req = .ok b) :
    ¬ m.failsNext = true := by
  intro hfails
  simp only [Mock.reply, if_pos hfails] at h
  cases h

/-- A read that is answered `Ok` returns the cell, and changes none. -/
theorem reply_read_ok {m : Mock} {params : Params} {index : BitVec 3} {b : Byte}
    (h : m.reply (params.read index) = .ok b) :
    b = m.dev[index.toNat]'index.isLt ∧ m.cellsAfter (params.read index) = m.dev := by
  have hn := not_failsNext_of_reply_ok h
  simp only [Mock.reply, if_neg hn] at h
  simp only [Mock.cellsAfter, if_neg hn]
  exact ⟨(BusReply.ok.inj h).symm, rfl⟩

/-- A write that is answered `Ok` sets its cell. -/
theorem cellsAfter_write_ok {m : Mock} {params : Params} {index : BitVec 3} {nb b : Byte}
    (h : m.reply (params.write index nb) = .ok b) :
    m.cellsAfter (params.write index nb) = m.dev.set index.toNat nb index.isLt := by
  simp only [Mock.cellsAfter, if_neg (not_failsNext_of_reply_ok h), Params.write]

/-! ## The cached pairs and their cells -/

/-- The three cached pairs are the cells of their base indices (20_memory.md R45). -/
def Cache.EqualsCells (c : Cache) (dev : Vector Byte 8) : Prop :=
  c.output = ⟨dev[2], dev[3]⟩ ∧ c.polarity = ⟨dev[4], dev[5]⟩ ∧ c.config = ⟨dev[6], dev[7]⟩

/-- A set command's commit and its write are the same change, of one byte of a pair and of its cell. -/
theorem equalsCells_commitByte {c : Cache} {dev : Vector Byte 8} (h : c.EqualsCells dev) (C : PairName) {p : Nat}
    (hp : p ≤ 15) (nb : Byte) :
    (c.commitByte C p nb).EqualsCells (dev.set (deviceIndex C.base p).toNat nb (deviceIndex C.base p).isLt) := by
  obtain ⟨hout, hpol, hcfg⟩ := h
  have hreg : reg p = 0 ∨ reg p = 1 := by unfold reg; omega
  cases C <;> obtain hreg | hreg := hreg <;>
    simp [Cache.EqualsCells, Cache.commitByte, Cache.setPair, Cache.pair, Pair.setByte, deviceIndex, PairName.base, hreg,
      hout, hpol, hcfg]

/-! ## Coherence -/

/-- Where no command is in execution, coherence is that of the cache. -/
theorem coherent_of_idle {m : Mock} (hp : m.rbc.phase = .idle)
    (h : m.rbc.initialized = true → m.rbc.cache.EqualsCells m.dev) : m.Coherent := by
  refine ⟨fun c hc => ?_, fun e he => ?_⟩
  · obtain ⟨hinit, rfl⟩ := (view_eq_some_iff _ c).1 hc
    exact h hinit
  · cases hp.symm.trans he

/-- Settles O52: nothing is cached and no command is in execution. -/
theorem constructedMockIsCoherent : Obligations.ConstructedMockIsCoherent :=
  fun _ _ _ _ _ _ => coherent_of_idle rfl fun hinit => by cases hinit

/-! ## A step without a request -/

/-- A step without a request keeps the cache or empties it, and starts no command with a byte read. -/
theorem step_of_no_request {s t : State} (h : step s = .next t) (hreq : s.nextRequest = none) :
    (∀ c, t.view = some c → s.view = some c) ∧ ∀ e, t.phase = .exec e → s.phase = .exec e ∨ e.done = 0 := by
  rcases step_next h with ⟨k, w, p, -, -, -, rfl⟩ | ⟨-, rfl⟩ | ⟨-, -, rfl⟩ | ⟨k, w, -, -, -, -, rfl⟩ |
    ⟨e, -, -, -, rfl⟩ | ⟨e, i, hm, hp, hdec, hexec⟩ | ⟨e, req, -, -, rfl⟩
  · exact ⟨fun _ => id, fun _ => .inl⟩
  · exact ⟨fun _ hc => (by cases hc), fun _ he => (by cases he)⟩
  · exact ⟨fun _ => id, fun _ => .inl⟩
  · refine ⟨fun _ => id, fun e he => .inr ?_⟩
    obtain rfl := Phase.exec.inj he
    rfl
  · exact ⟨fun _ => id, fun _ he => (by cases he)⟩
  · rw [nextRequest_of_exec hm hp, hdec] at hreq
    obtain ⟨st, d, rfl⟩ := (exec_execStep (s := s.takeMove) hp hexec).eq_release_of_no_request hreq
    exact ⟨fun _ => id, fun _ he => (by cases he)⟩
  · exact ⟨fun _ => id, fun _ => .inl⟩

theorem coherent_of_no_request {m : Mock} {t : State} (h : m.Coherent) (hstep : step m.rbc = .next t)
    (hreq : m.rbc.nextRequest = none) : Mock.Coherent { m with rbc := t } := by
  obtain ⟨hview, hphase⟩ := step_of_no_request hstep hreq
  refine ⟨fun c hc => h.cells c (hview c hc), fun e he hdec index hmem h2 => ?_⟩
  obtain hsame | hstart := hphase e he
  · exact h.staged e hsame hdec index hmem h2
  · simp [hstart] at hmem

/-! ## A step with a request -/

/-- The staging bytes of the cached pairs are their cells. -/
def Exec.StagedEqualsCells (e : Exec) (dev : Vector Byte 8) : Prop :=
  ∀ index ∈ initOrder.take e.done, 2 ≤ index.toNat → e.scratch.staged index = dev[index.toNat]'index.isLt

/-- The next byte of INIT, read from its cell. -/
theorem stagedEqualsCells_stage {e : Exec} {dev : Vector Byte 8} (h : e.StagedEqualsCells dev) {index : BitVec 3}
    (hx : initOrder[e.done]? = some index) :
    Exec.StagedEqualsCells
      { e with done := e.done + 1, scratch := e.scratch.stage index (dev[index.toNat]'index.isLt) } dev := by
  intro j hj h2
  by_cases hji : j = index
  · subst hji
    exact (staged_stage ..).trans (if_pos rfl)
  · simp only [List.take_add_one, hx, Option.toList_some, List.mem_append, List.mem_singleton, hji, or_false] at hj
    exact ((staged_stage ..).trans (if_neg hji)).trans (h j hj h2)

/-- The cache that INIT seeds after its last read, of an input byte. -/
theorem equalsCells_seeded {e : Exec} {dev : Vector Byte 8} (h : e.StagedEqualsCells dev) (hdone : e.done = 7)
    (params : Params) (b : Byte) : ((e.scratch.stage 1 b).seeded params).EqualsCells dev := by
  have hstaged (j : BitVec 3) (hj : j ∈ initOrder.take 7) (h2 : 2 ≤ j.toNat) :
      (e.scratch.stage 1 b).staged j = dev[j.toNat]'j.isLt := by
    have hne : j ≠ 1 := by rintro rfl; exact absurd h2 (by decide)
    rw [staged_stage, if_neg hne]
    exact h j (by rwa [hdone]) h2
  unfold Cache.EqualsCells Scratch.seeded
  dsimp only
  rw [hstaged 2 (by decide) (by decide), hstaged 3 (by decide) (by decide), hstaged 4 (by decide) (by decide),
    hstaged 5 (by decide) (by decide), hstaged 6 (by decide) (by decide), hstaged 7 (by decide) (by decide)]
  exact ⟨rfl, rfl, rfl⟩

/-- A step of a command, with the request that the table lists and the mock bus's answer to it, keeps the coherence. -/
theorem coherent_of_execStep {m : Mock} {s t : State} {e : Exec} {i : Instr} {req : BusRequest} {n : Nat}
    (hcells : ∀ c, s.view = some c → c.EqualsCells m.dev)
    (hstaged : decode e.word = some .init → e.StagedEqualsCells m.dev) (hdec : decode e.word = some i)
    (hreq : Reference.request s.params s.view i e.done = some req) (hreply : s.nextReply = some (m.reply req))
    (hstep : ExecStep i s e t) : Mock.Coherent { rbc := t, dev := m.cellsAfter req, fail := m.fail, count := n } := by
  have hcache (hinit : s.initialized = true) : s.cache.EqualsCells m.dev := hcells _ (view_of_initialized hinit)
  cases hstep with
  | ends st d hdone hnone hres => cases hreq.symm.trans hnone
  | waits req' hreq' hr => cases hr.symm.trans hreply
  | fails req' hreq' hr =>
    have herr : m.reply req = .err := Option.some.inj (hreply.symm.trans hr)
    exact coherent_of_idle rfl (by rw [cellsAfter_of_reply_err herr]; exact hcache)
  | stages index b hi hx hlt hreq' hr =>
    obtain rfl := Option.some.inj (hreq.symm.trans hreq')
    obtain ⟨rfl, hdev⟩ := reply_read_ok (Option.some.inj (hreply.symm.trans hr))
    refine ⟨by rw [hdev]; exact hcells, fun f hf hinit => ?_⟩
    obtain rfl := Phase.exec.inj hf
    rw [hdev]
    exact stagedEqualsCells_stage (hstaged hinit) hx
  | keepsLow b hi hdone hinit hreq' hr =>
    obtain rfl := Option.some.inj (hreq.symm.trans hreq')
    obtain ⟨-, hdev⟩ := reply_read_ok (Option.some.inj (hreply.symm.trans hr))
    refine ⟨by rw [hdev]; exact hcells, fun f hf hword => ?_⟩
    obtain rfl := Phase.exec.inj hf
    subst hi
    cases hdec.symm.trans hword
  | seeds b hi hdone hreq' hr =>
    obtain rfl := Option.some.inj (hreq.symm.trans hreq')
    obtain ⟨-, hdev⟩ := reply_read_ok (Option.some.inj (hreply.symm.trans hr))
    subst hi
    refine coherent_of_idle rfl fun _ => ?_
    rw [hdev]
    exact equalsCells_seeded (hstaged hdec) hdone s.params b
  | sets C p v b hi hdone hinit h15 hreq' hr =>
    obtain rfl := Option.some.inj (hreq.symm.trans hreq')
    have hdev := cellsAfter_write_ok (Option.some.inj (hreply.symm.trans hr))
    refine coherent_of_idle rfl fun _ => ?_
    rw [hdev]
    exact equalsCells_commitByte (hcache hinit) C h15 _
  | reportsPin p b hi hdone hinit h15 hin hreq' hr =>
    obtain rfl := Option.some.inj (hreq.symm.trans hreq')
    obtain ⟨-, hdev⟩ := reply_read_ok (Option.some.inj (hreply.symm.trans hr))
    refine coherent_of_idle rfl fun _ => ?_
    rw [hdev]
    exact hcache hinit
  | reportsAll b hi hdone hinit hreq' hr =>
    obtain rfl := Option.some.inj (hreq.symm.trans hreq')
    obtain ⟨-, hdev⟩ := reply_read_ok (Option.some.inj (hreply.symm.trans hr))
    refine coherent_of_idle rfl fun _ => ?_
    rw [hdev]
    exact hcache hinit

/-- What a step on the mock bus is: a step of the RBC without a request, or one with the mock bus's answer to it. -/
theorem mock_step_next {m m' : Mock} (h : m.step = .next m') :
    (∃ t, m.rbc.nextRequest = none ∧ step m.rbc = .next t ∧ m' = { m with rbc := t }) ∨
    ∃ req t, m.rbc.nextRequest = some req ∧ step { m.rbc with answers := [.reply (m.reply req)] } = .next t ∧
      m' = { rbc := t, dev := m.cellsAfter req, fail := m.fail, count := m.count + 1 } := by
  unfold Mock.step at h
  split at h
  · rename_i hreq
    split at h
    · rename_i t hstep
      exact .inl ⟨t, hreq, hstep, (Host.Outcome.next.inj h).symm⟩
    · cases h
    · cases h
  · rename_i req hreq
    split at h
    · rename_i t hstep
      exact .inr ⟨req, t, hreq, hstep, (Host.Outcome.next.inj h).symm⟩
    · cases h
    · cases h

/-- Settles O53: a step without a request changes no cell and no cached byte, and a step with one changes both alike. -/
theorem mockStepKeepsCoherence : Obligations.MockStepKeepsCoherence := by
  intro m m' h hstep
  obtain ⟨t, hreq, hrbc, rfl⟩ | ⟨req, t, hreq, hrbc, rfl⟩ := mock_step_next hstep
  · exact coherent_of_no_request h hrbc hreq
  · obtain ⟨e, i, hm, hp, hdec, hlisted⟩ := nextRequest_eq_some hreq
    have hexec := (step_eq_exec_of_legal_word (s := { m.rbc with answers := [.reply (m.reply req)] }) hm hp hdec).symm.trans
      hrbc
    exact coherent_of_execStep (s := State.takeMove { m.rbc with answers := [.reply (m.reply req)] }) h.cells (h.staged e hp)
      hdec hlisted rfl (exec_execStep hp hexec)

end Sys2Proof.Machine
end

section
/-! The agents around the RBC: a step of the sequencer is one of the decoded command, an issue, the choice of the arbitration,
a reset (10_state.md R34, 20_memory.md R53, R60, 70_reset_and_hazards.md R140); and who sets `initialized` and `LIS_OUT`
(10_state.md R22, 60_exceptions.md R120). -/

namespace Sys2Proof.Machine

open State

/-! ## A placed word -/

/-- A placed word is in execution on port 0, at its start, with the sequencer to move (log 16). -/
theorem withFetchWord_phase (s : State) (w : Nat) : (s.withFetchWord 16 w).phase =
    .exec { port := 0, word := BitVec.ofNat 16 (w % 2 ^ 16), done := 0, scratch := freeScratch s.draws } := rfl

/-- Settles O10: the step decodes the word in execution, and a placed word is in execution. -/
theorem stepRunsTheDecodedCommand : Obligations.StepRunsTheDecodedCommand := by
  refine ⟨fun s e i => step_eq_exec_of_legal_word, fun _ => rfl, fun s w i h => ?_⟩
  have hdec : decode (BitVec.ofNat 16 (w % 2 ^ 16)) = some i := h
  exact ⟨_, withFetchWord_phase s w, rfl, rfl, hdec, step_eq_exec_of_legal_word rfl (withFetchWord_phase s w) hdec,
    ⟨rfl, rfl⟩, rfl⟩

/-! ## The issue (10_state.md R34) -/

theorem issue_of_mayIssue {s : State} {k : Nat} {p : Port} (hk : s.ports[k]? = some p) (hmay : p.mayIssue = true)
    (w : Word) : s.issue k w = .next { s with ports := s.ports.set k (.pending w), log := .issue k w :: s.log } := by
  simp [State.issue, hk, hmay]

theorem step_of_issue {s : State} {k : Nat} {w : Word} (hm : s.nextMove = .issue k w) :
    step s = s.takeMove.issue k w := by
  simp [step_eq, hm]

/-- Settles O11: the issue by the port it finds. -/
theorem issueMakesThePortPending : Obligations.IssueMakesThePortPending := by
  intro s k w hm
  rw [step_of_issue hm]
  refine ⟨fun p hk hmay => ?_, fun p hk hmay => ?_, fun hlen => ?_⟩
  · obtain ⟨hlt, -⟩ := List.getElem?_eq_some_iff.1 hk
    exact ⟨_, issue_of_mayIssue (s := s.takeMove) hk hmay w, List.getElem?_set_self hlt,
      fun j hj => List.getElem?_set_ne hj.symm, rfl, rfl, ⟨rfl, rfl⟩, ⟨rfl, rfl⟩, rfl, rfl, rfl, rfl⟩
  · simp [State.issue, hk, hmay]
  · simp [State.issue, List.getElem?_eq_none hlen]

/-! ## The choice of the arbitration (00_scope.md R7) -/

theorem pairwise_lt_pendingFrom (n : Nat) (ps : List Port) : (pendingFrom n ps).Pairwise (· < ·) := by
  induction ps generalizing n with
  | nil => exact List.Pairwise.nil
  | cons p ps ih =>
    unfold pendingFrom
    split
    · refine List.Pairwise.cons (fun k hk => ?_) (ih (n + 1))
      obtain ⟨-, hlt, -⟩ := mem_pendingFrom.1 hk
      exact hlt
    · exact ih (n + 1)

/-- In a rising list the first number from `k` on is `k`, when it is there. -/
theorem find?_le_of_mem {k : Nat} {l : List Nat} (hl : l.Pairwise (· < ·)) (hk : k ∈ l) :
    l.find? (k ≤ ·) = some k := by
  induction hl with
  | nil => cases hk
  | @cons j js hj _ ih =>
    obtain rfl | hmem := List.mem_cons.1 hk
    · simp
    · have : ¬ k ≤ j := by have := hj k hmem; omega
      simp [this, ih hmem]

/-- A pending port is granted when the choice names it. -/
theorem pickPort_of_mem {k : Nat} {l : List Nat} (hl : l.Pairwise (· < ·)) (hk : k ∈ l) : pickPort k l = some k := by
  match l with
  | [] => cases hk
  | [j] =>
    obtain rfl := List.mem_singleton.1 hk
    rfl
  | j :: j' :: js =>
    simp only [pickPort]
    rw [find?_le_of_mem hl hk]
    rfl

theorem step_grants_choice {s : State} {k : Nat} {w : Word} {rest : List Nat} (hm : s.nextMove = .sequencer)
    (hl : s.lock = .free) (hp : s.phase = .idle) (hk : s.ports[k]? = some (.pending w)) (harb : s.arb = k :: rest) :
    step s = .next (s.takeMove.grantTo k w) := by
  have hpick : pickPort s.takeMove.nextChoice s.takeMove.pendingPorts = some k := by
    rw [State.nextChoice, takeMove_arb, harb]
    exact pickPort_of_mem (pairwise_lt_pendingFrom 0 _) (mem_pendingPorts.2 ⟨w, hk⟩)
  simp [step_eq, hm, State.sequence, hp, State.grant, State.grantee, hl, hpick, hk, Port.pending?]

/-- Settles O13: the choice names the port, and the rest of the choices stay. -/
theorem anyPendingPortCanBeGranted : Obligations.AnyPendingPortCanBeGranted := by
  intro s k w rest hm hl hp hk harb
  obtain ⟨hbusy, -⟩ := ports_grantTo_of_pending (s := s.takeMove) hk
  exact ⟨_, step_grants_choice hm hl hp hk harb, rfl, hbusy, by simp [harb]⟩

/-! ## `initialized` (10_state.md R22) -/

/-- No command clears `initialized`. -/
theorem exec_keeps_initialized {i : Instr} {s t : State} (h : exec i s = .next t) (hs : s.initialized = true) :
    t.initialized = true := by
  obtain ⟨e, hp, -⟩ := exec_next h
  cases exec_execStep hp h with
  | ends | waits | fails | stages | keepsLow | sets | reportsPin | reportsAll => exact hs
  | seeds => rfl

/-- Only a reset clears `initialized`. -/
theorem step_clears_initialized_only_by_reset {s t : State} (h : step s = .next t) (hs : s.initialized = true)
    (ht : t.initialized = false) : s.nextMove = .reset := by
  by_contra hm
  have hkeeps : t.initialized = true := by
    rcases step_next h with ⟨k, w, p, -, -, -, rfl⟩ | ⟨hm', -⟩ | ⟨-, -, rfl⟩ | ⟨k, w, -, -, -, -, rfl⟩ |
      ⟨e, -, -, -, rfl⟩ | ⟨e, i, -, -, -, hexec⟩ | ⟨e, req, -, -, rfl⟩
    · exact hs
    · exact absurd hm' hm
    · exact hs
    · exact hs
    · exact hs
    · exact exec_keeps_initialized (s := s.takeMove) hexec hs
    · exact hs
  cases ht.symm.trans hkeeps

/-- A step that sets `initialized` is the sequencer's. -/
theorem nextMove_of_step_sets_initialized {s t : State} (h : step s = .next t) (hs : s.initialized = false)
    (ht : t.initialized = true) : s.nextMove = .sequencer := by
  rcases step_next h with ⟨k, w, p, -, -, -, rfl⟩ | ⟨-, rfl⟩ | ⟨hm, -⟩ | ⟨k, w, hm, -⟩ | ⟨e, hm, -⟩ | ⟨e, i, hm, -⟩ |
    ⟨e, req, hm, -⟩
  · cases hs.symm.trans ht
  · cases ht
  · exact hm
  · exact hm
  · exact hm
  · exact hm
  · exact hm

/-- Settles O36: the origin of `initialized` is the commit of an INIT, and no step of a command clears it. -/
theorem onlyInitSetsInitialized : Obligations.OnlyInitSetsInitialized := by
  refine ⟨fun s t h hs ht => ?_, fun _ _ _ => exec_keeps_initialized, fun _ _ => step_clears_initialized_only_by_reset⟩
  obtain hbefore | ⟨e, hp, hdec, hok⟩ := step_initialized_before_or_init_ends_ok h ht
  · cases hs.symm.trans hbefore
  · exact ⟨e, nextMove_of_step_sets_initialized h hs ht, hp, hdec, hok⟩

/-- Settles O14: a reset is the construction, and nothing else clears `initialized`. -/
theorem resetLeavesNothingInitialized : Obligations.ResetLeavesNothingInitialized :=
  ⟨fun _ hm => ⟨_, step_of_reset hm, rfl, rfl, rfl, by simp, fun _ hp => List.eq_of_mem_replicate hp, rfl, rfl, rfl⟩,
   fun _ _ => step_clears_initialized_only_by_reset⟩

/-! ## `LIS_OUT` (60_exceptions.md R120) -/

/-- Settles O38: `LIS_OUT` shows a data register. -/
theorem lisOutChangesOnlyAtRelease : Obligations.LisOutChangesOnlyAtRelease :=
  fun _ _ h hlis hm => step_changes_registers_only_with_ok h hm fun hsame => hlis (lisOut_congr hsame.1)

end Sys2Proof.Machine
end

section
/-! What a step of a command can do: go on, end or wait (20_memory.md R54); where a meaning stops (60_exceptions.md R127,
93_implementation_defined.md I1, I8). -/

namespace Sys2Proof.Machine

open State

/-! ## The steps of a command -/

theorem stepsOf_of_decode {w : Word} {i : Instr} (h : decode w = some i) : stepsOf w = commandSteps i := by
  unfold stepsOf
  rw [h]
  cases i <;> rfl

theorem stepsOf_pos (w : Word) : 0 < stepsOf w := by
  unfold stepsOf
  split <;> decide

theorem stepsOf_le_eight (w : Word) : stepsOf w ≤ 8 := by
  unfold stepsOf
  split <;> decide

theorem commandSteps_of_pin {i : Instr} {p : Nat} (h : i.pin? = some p) : commandSteps i = 1 := by
  cases i with
  | init | getvals => cases h
  | setdir q v | setpol q v | setval q v | getdir q | getpol q | getval q => rfl

theorem ends_with_one_answer {s t : State} {k : Nat} {st : Status} {d : Word} {req : BusRequest} {r : BusReply}
    (h : Ended s t k st d [.bus req r]) (hanswers : t.answers = (s.answered req r).answers)
    (hdraws : t.draws = (s.answered req r).draws) : ∃ st d req r, Ended s t k st d [.bus req r] ∧ OneAnswer s t :=
  ⟨st, d, req, r, h, oneAnswer_of_answered hanswers hdraws⟩

/-- Every step of a command goes on with a byte read, before its last transaction; or ends the command, with at most one bus
answer; or waits for ever. -/
theorem exec_goes_on_ends_or_waits {i : Instr} {s t : State} {e : Exec} (hp : s.phase = .exec e)
    (h : exec i s = .next t) :
    (∃ req b sc, t = (s.answered req (.ok b)).advance e sc ∧ e.done + 1 < commandSteps i ∧
      (i = .init ∨ s.initialized = true)) ∨
    (∃ st d, Ended s t e.port st d [] ∧ SameBus s t) ∨
    (∃ st d req r, Ended s t e.port st d [.bus req r] ∧ OneAnswer s t) ∨
    (∃ req, s.nextReply = none ∧ t = s.hang (e.sending req) req) := by
  cases exec_execStep hp h with
  | ends st d hdone hreq hres => exact .inr (.inl ⟨st, d, ended_release _ _ _ _ rfl rfl rfl rfl rfl, rfl, rfl⟩)
  | waits req hreq hr => exact .inr (.inr (.inr ⟨req, hr, rfl⟩))
  | fails req hreq hr =>
    exact .inr (.inr (.inl (ends_with_one_answer (ended_raise_answered s e .busError req .err) rfl rfl)))
  | stages index b hi hx hlt hreq hr => exact .inl ⟨_, b, _, rfl, by rw [hi]; exact hlt, .inl hi⟩
  | keepsLow b hi hdone hinit hreq hr => exact .inl ⟨_, b, _, rfl, by rw [hi, hdone]; decide, .inr hinit⟩
  | seeds b hi hdone hreq hr =>
    exact .inr (.inr (.inl (ends_with_one_answer (ended_release (s := s) _ _ _ [.bus (s.params.read 1) (.ok b)]
      rfl rfl rfl rfl rfl) rfl rfl)))
  | sets C p v b hi hdone hinit h15 hreq hr =>
    exact .inr (.inr (.inl (ends_with_one_answer (ended_respond_setCache_answered ..) rfl rfl)))
  | reportsPin p b hi hdone hinit h15 hin hreq hr =>
    exact .inr (.inr (.inl (ends_with_one_answer (ended_respond_setCache_answered ..) rfl rfl)))
  | reportsAll b hi hdone hinit hreq hr =>
    exact .inr (.inr (.inl (ends_with_one_answer (ended_respond_setCache_answered ..) rfl rfl)))

/-- Settles O34, from the four things a step can do. -/
theorem commandStepGoesOnOrEnds : Obligations.CommandStepGoesOnOrEnds := by
  intro i s t e hp h
  obtain ⟨req, b, sc, rfl, -, -⟩ | hends | hends | ⟨req, hr, rfl⟩ := exec_goes_on_ends_or_waits hp h
  · exact .inl ⟨req, .ok b, sc, goesOn_advance s e sc req (.ok b), oneAnswer_answered s req (.ok b), rfl⟩
  · exact .inr (.inl hends)
  · exact .inr (.inr (.inl hends))
  · exact .inr (.inr (.inr ⟨req, hr, goesOn_hang s _ req, oneAnswer_hang hr _ req, rfl⟩))

/-! ## Where a meaning stops -/

/-- A command has a meaning in `Exec` only. -/
theorem exec_of_not_exec (i : Instr) {s : State} (hp : ∀ e, s.phase ≠ .exec e) : exec i s = .fault .offPhase := by
  cases i with
  | init | getvals | setdir p v | setpol p v | setval p v | getdir p | getpol p | getval p =>
    exact withExec_of_not_exec hp _

theorem checkedPin_past_start {s : State} {e : Exec} (hp : s.phase = .exec e) (hd : e.done ≠ 0) (p : Nat)
    (run : Exec → Cache → Host.Outcome State Fault Refusal) : s.checkedPin p run = .fault .offPhase := by
  rw [State.checkedPin, withExec_of_exec hp, if_neg hd]

/-- Past its last transaction a command has no meaning. -/
theorem exec_past_end {i : Instr} {s : State} {e : Exec} (hp : s.phase = .exec e) (hd : commandSteps i ≤ e.done) :
    exec i s = .fault .offPhase := by
  cases hpin : i.pin? with
  | some p =>
    obtain ⟨run, hrun⟩ := exec_eq_checkedPin hpin s
    rw [commandSteps_of_pin hpin] at hd
    rw [hrun, checkedPin_past_start hp (by omega)]
  | none =>
    cases i with
    | init =>
      have hx : initOrder[e.done]? = none := List.getElem?_eq_none hd
      simp only [exec, execInit, withExec_of_exec hp, hx]
    | getvals =>
      simp only [exec, execGetvals, withExec_of_exec hp]
      split
      · rename_i h0; simp [h0, commandSteps] at hd
      · rename_i h1; simp [h1, commandSteps] at hd
      · rfl
    | setdir q v | setpol q v | setval q v | getdir q | getpol q | getval q => cases hpin

/-- A transaction always answers a next state. -/
theorem transact_total (s : State) (e : Exec) (req : BusRequest) (f : BusReply → State → State) :
    ∃ t, s.transact e req f = .next t := by
  cases hr : s.nextReply with
  | some r => exact ⟨_, transact_of_reply hr e req f⟩
  | none => exact ⟨_, transact_of_hang hr e req f⟩

/-- The checks always answer a next state, when what they guard does. -/
theorem checkedPin_total {s : State} {e : Exec} (hp : s.phase = .exec e) (hd : e.done = 0) (p : Nat)
    {run : Exec → Cache → Host.Outcome State Fault Refusal} (hrun : ∃ t, run e s.cache = .next t) :
    ∃ t, s.checkedPin p run = .next t := by
  rw [checkedPin_of_start hp hd]
  split_ifs with hi h15
  · exact hrun
  · exact ⟨_, rfl⟩
  · exact ⟨_, rfl⟩

/-- The two stops of a command within its transactions: a second INIT under `REINIT = refuse`, and a GETVALS that reads the
cache before the first INIT. -/
inductive Stops (s : State) (e : Exec) : Instr → Host.Outcome State Fault Refusal → Prop
  | secondInit (hd : e.done = 0) (hi : s.initialized = true) (hre : s.params.reinit = .refuse) :
      Stops s e .init (.refused .secondInit)
  | cacheRead (b : Byte) (hd : e.done = 1) (hi : s.initialized = false) (hr : s.nextReply = some (.ok b)) :
      Stops s e .getvals (.fault .cacheReadBeforeWrite)

theorem execInit_of_refuse {s : State} {e : Exec} (hp : s.phase = .exec e) (hd : e.done = 0) (hi : s.initialized = true)
    (hre : s.params.reinit = .refuse) : execInit s = .refused .secondInit := by
  have hx : initOrder[e.done]? = some 6 := by rw [hd]; rfl
  rw [execInit, withExec_of_exec hp]
  simp only [hx]
  exact if_pos ⟨hd, hi, hre⟩

theorem execGetvals_of_no_cache {s : State} {e : Exec} {b : Byte} (hp : s.phase = .exec e) (hd : e.done = 1)
    (hi : s.initialized = false) (hr : s.nextReply = some (.ok b)) : execGetvals s = .fault .cacheReadBeforeWrite := by
  have hview : (s.answered (s.params.read 1) (.ok b)).view = none := (view_eq_none_iff _).2 hi
  simp only [execGetvals, withExec_of_exec hp, hd, transactWith_of_reply hr, State.withCache, hview]

theorem execInit_total {s : State} {e : Exec} (hp : s.phase = .exec e) (hd : e.done < 8) :
    (∃ t, execInit s = .next t) ∨ Stops s e .init (execInit s) := by
  by_cases hrefuse : e.done = 0 ∧ s.initialized = true ∧ s.params.reinit = .refuse
  · obtain ⟨hd0, hi, hre⟩ := hrefuse
    rw [execInit_of_refuse hp hd0 hi hre]
    exact .inr (.secondInit hd0 hi hre)
  · have hx : initOrder[e.done]? = some initOrder[e.done] := List.getElem?_eq_getElem hd
    rw [execInit, withExec_of_exec hp]
    simp only [hx]
    rw [if_neg hrefuse]
    exact .inl (transact_total ..)

theorem execGetvals_total {s : State} {e : Exec} (hp : s.phase = .exec e) (hd : e.done < 2) :
    (∃ t, execGetvals s = .next t) ∨ Stops s e .getvals (execGetvals s) := by
  obtain hd | hd : e.done = 0 ∨ e.done = 1 := by omega
  · left
    simp only [execGetvals, withExec_of_exec hp, hd, State.checkedCache]
    split_ifs with hi
    · rw [withCache_of_initialized hi]
      exact transact_total ..
    · exact ⟨_, rfl⟩
  · by_cases hread : s.initialized = false ∧ ∃ b, s.nextReply = some (.ok b)
    · obtain ⟨hi, b, hr⟩ := hread
      rw [execGetvals_of_no_cache hp hd hi hr]
      exact .inr (.cacheRead b hd hi hr)
    · left
      simp only [execGetvals, withExec_of_exec hp, hd]
      cases hr : s.nextReply with
      | none => exact ⟨_, transactWith_of_hang hr ..⟩
      | some r =>
        rw [transactWith_of_reply hr]
        cases r with
        | err => exact ⟨_, rfl⟩
        | ok b =>
          have hi : s.initialized = true := by simpa [hr] using hread
          exact ⟨_, withCache_of_initialized (s := s.answered _ _) hi _⟩

/-- Within its transactions a command answers a next state, or stops in one of the two ways. -/
theorem exec_total {i : Instr} {s : State} {e : Exec} (hp : s.phase = .exec e) (hd : e.done < commandSteps i) :
    (∃ t, exec i s = .next t) ∨ Stops s e i (exec i s) := by
  cases i with
  | init => exact execInit_total hp hd
  | getvals => exact execGetvals_total hp hd
  | setdir p v | setpol p v | setval p v => exact .inl (checkedPin_total hp (Nat.lt_one_iff.1 hd) p (transact_total ..))
  | getdir p | getpol p => exact .inl (checkedPin_total hp (Nat.lt_one_iff.1 hd) p ⟨_, rfl⟩)
  | getval p =>
    refine .inl (checkedPin_total hp (Nat.lt_one_iff.1 hd) p ?_)
    dsimp only
    split_ifs
    · exact transact_total ..
    · exact ⟨_, rfl⟩

/-- A command that answers no next state is outside its transactions, or stops in one of the two ways. -/
theorem exec_stops {i : Instr} {s : State} (h : ∀ t, exec i s ≠ .next t) :
    exec i s = .fault .offPhase ∨ ∃ e, s.phase = .exec e ∧ Stops s e i (exec i s) := by
  by_cases hp : ∃ e, s.phase = .exec e
  · obtain ⟨e, hp⟩ := hp
    obtain hd | hd := Nat.lt_or_ge e.done (commandSteps i)
    · obtain ⟨t, ht⟩ | hstops := exec_total hp hd
      · exact absurd ht (h t)
      · exact .inr ⟨e, hp, hstops⟩
    · exact .inl (exec_past_end hp hd)
  · exact .inl (exec_of_not_exec i (not_exists.1 hp))

/-- Settles O43: outside the transactions the stop is `offPhase`, and the other fault is the one of `Stops`. -/
theorem meaningsStopWhereTheSpecHasNoStep : Obligations.MeaningsStopWhereTheSpecHasNoStep := by
  refine ⟨fun i s => exec_of_not_exec i, fun i s e hp hd => exec_past_end hp (le_of_eq_of_le ?_ hd),
    fun i s => ⟨fun h => ?_, ?_⟩⟩
  · cases i <;> rfl
  · obtain hoff | ⟨e, hp, hstops⟩ := exec_stops (i := i) (s := s) (by simp [h])
    · cases h.symm.trans hoff
    · rw [h] at hstops
      cases hstops with
      | cacheRead b hd hi hr => exact ⟨rfl, hi, ⟨e, hp, hd⟩, b, hr⟩
  · rintro ⟨rfl, hi, ⟨e, hp, hd⟩, b, hr⟩
    exact execGetvals_of_no_cache hp hd hi hr

/-- Settles O23: the refusal is the one of `Stops`. -/
theorem secondInitIsRefusedOnlyUnderRefuse : Obligations.SecondInitIsRefusedOnlyUnderRefuse := by
  refine ⟨fun s e hp hd hi hre => execInit_of_refuse hp hd hi hre, fun s r h => ?_⟩
  obtain hoff | ⟨e, hp, hstops⟩ := exec_stops (i := .init) (s := s) (by simp [h])
  · cases h.symm.trans hoff
  · rw [h] at hstops
    cases hstops with
    | secondInit hd hi hre => exact ⟨rfl, hi, hre⟩

end Sys2Proof.Machine
end

section
/-! The invariant of ports, lock and phase (10_state.md R31 to R33): it holds at construction, every step keeps it, and from a
state with it no step faults (93_implementation_defined.md I8); commands do not interleave (20_memory.md R55); and the wait
for a bus that never answers (I7). -/

namespace Sys2Proof.Machine

open State

/-! ## At construction -/

theorem inv_of_idle {s : State} (hports : 0 < s.ports.length) (hwidth : 0 < s.params.busId.width) (hl : s.lock = .free)
    (hp : s.phase = .idle) (hbusy : ∀ (k : Nat) (w : Word), s.ports[k]? ≠ some (.busy w)) : s.Inv where
  params := ⟨hports, hwidth⟩
  idle _ := ⟨hl, hbusy⟩
  owner e he := by rw [hp] at he; cases he
  progress e he := by rw [hp] at he; cases he

theorem replicate_idle_ne_busy (n k : Nat) (w : Word) : (List.replicate n Port.idle)[k]? ≠ some (.busy w) := by
  intro h
  cases List.eq_of_mem_replicate (List.mem_of_getElem? h)

theorem inv_constructed (params : Params) {n : Nat} (hwidth : 0 < params.busId.width) (hn : 0 < n) :
    (State.constructed params n).Inv :=
  inv_of_idle (by simpa [State.constructed] using hn) hwidth rfl rfl (replicate_idle_ne_busy n)

/-- Settles O45: all ports are idle, and the reset state is a construction with two ports. -/
theorem constructedStateIsWellFormed : Obligations.ConstructedStateIsWellFormed :=
  ⟨fun params _ => inv_constructed params, inv_constructed _ (Nat.succ_pos _) (by decide)⟩

/-! ## The steps that are no command's -/

theorem inv_takeMove {s : State} (h : s.Inv) : s.takeMove.Inv := ⟨h.params, h.idle, h.owner, h.progress⟩

theorem inv_construct {s : State} (h : s.Inv) : s.construct.Inv := by
  obtain ⟨hports, hwidth⟩ := h.params
  exact inv_of_idle (by simpa using hports) hwidth rfl rfl (replicate_idle_ne_busy _)

/-- A `Busy` port after another one is written was `Busy` before, when what is written is not. -/
theorem busy_of_busy_set {ps : List Port} {k j : Nat} {p : Port} {w : Word} (hp : ∀ v, p ≠ .busy v)
    (h : (ps.set k p)[j]? = some (.busy w)) : j ≠ k ∧ ps[j]? = some (.busy w) := by
  by_cases hjk : j = k
  · subst hjk
    obtain ⟨hlt, heq⟩ := List.getElem?_eq_some_iff.1 h
    rw [List.getElem_set_self] at heq
    exact absurd heq (hp w)
  · exact ⟨hjk, by rwa [List.getElem?_set_ne (Ne.symm hjk)] at h⟩

theorem inv_issue {s : State} (h : s.Inv) {k : Nat} {p : Port} (w : Word) (hk : s.ports[k]? = some p)
    (hmay : p.mayIssue = true) :
    State.Inv { s with ports := s.ports.set k (.pending w), log := .issue k w :: s.log } where
  params := by simpa using h.params
  idle hp := by
    obtain ⟨hl, hbusy⟩ := h.idle hp
    exact ⟨hl, fun j v hj => hbusy j v (busy_of_busy_set (by simp) hj).2⟩
  owner e he := by
    obtain ⟨hl, howner, hother⟩ := h.owner e he
    have hne : k ≠ e.port := by
      rintro rfl
      obtain rfl := Option.some.inj (hk.symm.trans howner)
      cases hmay
    exact ⟨hl, by rwa [List.getElem?_set_ne hne], fun j v hj => hother j v (busy_of_busy_set (by simp) hj).2⟩
  progress := h.progress

theorem inv_grantTo {s : State} (h : s.Inv) {k : Nat} {w : Word} (hp : s.phase = .idle)
    (hk : s.ports[k]? = some (.pending w)) : (s.grantTo k w).Inv where
  params := by simpa using h.params
  idle hp' := by cases hp'
  owner e he := by
    obtain rfl := Option.some.inj he
    obtain ⟨-, hbusy⟩ := h.idle hp
    obtain ⟨hown, hothers⟩ := ports_grantTo_of_pending hk
    refine ⟨rfl, hown, fun j v hj => ?_⟩
    by_contra hjk
    exact hbusy j v ((hothers j hjk).symm.trans hj)
  progress e he := by
    obtain rfl := Option.some.inj he
    exact ⟨stepsOf_pos w, fun h0 => absurd h0 (Nat.lt_irrefl 0)⟩

/-! ## The steps of a command -/

/-- The ending of a command leaves the phase idle, the lock free and no port `Busy`. -/
theorem inv_of_ended {s t : State} {e : Exec} {st : Status} {d : Word} {evs : List Event} (h : s.Inv)
    (hp : s.phase.exec? = some e) (hends : Ended s t e.port st d evs) : t.Inv := by
  obtain ⟨hports, hwidth⟩ := h.params
  obtain ⟨-, howner, hother⟩ := h.owner e hp
  obtain ⟨hlt, -⟩ := List.getElem?_eq_some_iff.1 howner
  obtain ⟨hlatched, ⟨hlen, hothers⟩, ⟨hl, hidle⟩, ⟨hparams, -, -⟩, -⟩ := hends
  refine inv_of_idle (by rwa [hlen]) (by rwa [hparams]) hl hidle fun k w hk => ?_
  by_cases hke : k = e.port
  · subst hke
    cases (hlatched hlt).symm.trans hk
  · exact hke (hother k w ((hothers k hke).symm.trans hk))

/-- A command that stays in execution, within its transactions, keeps the invariant. -/
theorem inv_of_goesOn {s t : State} {e f : Exec} {ev : Event} (h : s.Inv) (hp : s.phase.exec? = some e)
    (hgoes : GoesOn s t ev) (hp' : t.phase.exec? = some f) (hport : f.port = e.port) (hword : f.word = e.word)
    (hdone : f.done < stepsOf f.word)
    (hchecked : 0 < f.done → decode f.word = some .init ∨ s.initialized = true) : t.Inv := by
  obtain ⟨⟨hports, hlock⟩, ⟨-, hinit⟩, ⟨hparams, -, -⟩, -⟩ := hgoes
  have hf : ∀ g, t.phase.exec? = some g → g = f := fun g hg => Option.some.inj (hg.symm.trans hp')
  refine ⟨by rw [hports, hparams]; exact h.params, fun hidle => ?_, fun g hg => ?_, fun g hg => ?_⟩
  · rw [hidle] at hp'
    cases hp'
  · obtain rfl := hf g hg
    rw [hports, hlock, hport, hword]
    exact h.owner e hp
  · obtain rfl := hf g hg
    rw [hinit]
    exact ⟨hdone, hchecked⟩

theorem inv_exec {s t : State} {e : Exec} {i : Instr} (h : s.Inv) (hp : s.phase = .exec e)
    (hdec : decode e.word = some i) (hexec : exec i s = .next t) : t.Inv := by
  have hp? : s.phase.exec? = some e := by rw [hp]; rfl
  obtain ⟨req, b, sc, rfl, hlt, hchecked⟩ | ⟨st, d, hends, -⟩ | ⟨st, d, req, r, hends, -⟩ | ⟨req, -, rfl⟩ :=
    exec_goes_on_ends_or_waits hp hexec
  · refine inv_of_goesOn h hp? (goesOn_advance s e sc req (.ok b)) rfl rfl rfl ?_ fun _ => ?_
    · rwa [stepsOf_of_decode hdec]
    · obtain rfl | hinit := hchecked
      · exact .inl hdec
      · exact .inr hinit
  · exact inv_of_ended h hp? hends
  · exact inv_of_ended h hp? hends
  · obtain ⟨hdone, hchecked⟩ := h.progress e hp?
    exact inv_of_goesOn h hp? (goesOn_hang s _ req) rfl (sending_port e req) (sending_word e req)
      (by rwa [sending_done, sending_word]) (by rwa [sending_done, sending_word])

/-- Settles O46: the invariant, for each kind of step. -/
theorem stepKeepsWellFormedStates : Obligations.StepKeepsWellFormedStates := by
  intro s t hs h
  have hs' := inv_takeMove hs
  rcases step_next h with ⟨k, w, p, -, hk, hmay, rfl⟩ | ⟨-, rfl⟩ | ⟨-, -, rfl⟩ | ⟨k, w, -, hp, -, hk, rfl⟩ |
    ⟨e, -, hp, -, rfl⟩ | ⟨e, i, -, hp, hdec, hexec⟩ | ⟨e, req, -, -, rfl⟩
  · exact inv_issue hs' w hk hmay
  · exact inv_construct hs'
  · exact hs'
  · exact inv_grantTo hs' hp hk
  · exact inv_of_ended hs' (by rw [takeMove_phase, hp]; rfl) (ended_raise s.takeMove e .illegalCommand)
  · exact inv_exec hs' hp hdec hexec
  · exact hs'

/-! ## From a well-formed state no step faults -/

/-- A command of a well-formed state stops only as a second INIT. -/
theorem exec_stops_of_inv {s : State} {e : Exec} {i : Instr} (h : s.Inv) (hp : s.phase = .exec e)
    (hdec : decode e.word = some i) : (∃ t, exec i s = .next t) ∨
      (exec i s = .refused .secondInit ∧ s.initialized = true ∧ s.params.reinit = .refuse) := by
  obtain ⟨hdone, hchecked⟩ := h.progress e (by rw [hp]; rfl)
  rw [stepsOf_of_decode hdec] at hdone
  obtain hnext | hstops := exec_total hp hdone
  · exact .inl hnext
  · generalize hout : exec i s = o at hstops
    cases hstops with
    | secondInit hd hi hre => exact .inr ⟨rfl, hi, hre⟩
    | cacheRead b hd hi hr =>
      obtain hinit | hset := hchecked (by omega)
      · cases hdec.symm.trans hinit
      · cases hi.symm.trans hset

/-- What a step of a well-formed state can be: a next state, the refusal of an issue, or the refusal of a second INIT. -/
theorem step_outcome_of_inv {s : State} (h : s.Inv) : (∃ t, step s = .next t) ∨
    (∃ k w r, step s = .refused r ∧ s.nextMove = .issue k w ∧ ∀ p, s.ports[k]? = some p → p.mayIssue = false) ∨
    (step s = .refused .secondInit ∧ s.initialized = true ∧ s.params.reinit = .refuse) := by
  cases hm : s.nextMove with
  | reset => exact .inl ⟨_, step_of_reset hm⟩
  | issue k w =>
    rw [step_of_issue hm]
    cases hk : s.ports[k]? with
    | none => exact .inr (.inl ⟨k, w, .noSuchPort, by simp [State.issue, hk], rfl, by simp [hk]⟩)
    | some p =>
      cases hmay : p.mayIssue with
      | true => exact .inl ⟨_, issue_of_mayIssue (s := s.takeMove) hk hmay w⟩
      | false => exact .inr (.inl ⟨k, w, .portBusy, by simp [State.issue, hk, hmay], rfl, by simp [hk, hmay]⟩)
  | sequencer =>
    cases hp : s.phase with
    | idle => exact .inl ⟨s.takeMove.grant, by simp [step_eq, hm, State.sequence, hp]⟩
    | stuck e req => exact .inl ⟨s.takeMove, by simp [step_eq, hm, State.sequence, hp]⟩
    | exec e =>
      cases hdec : decode e.word with
      | none => exact .inl ⟨_, step_of_illegal_word hm hp hdec⟩
      | some i =>
        rw [step_eq_exec_of_legal_word hm hp hdec]
        obtain hnext | hrefused := exec_stops_of_inv (inv_takeMove h) hp hdec
        · exact .inl hnext
        · exact .inr (.inr hrefused)

/-- Settles O47, from the three outcomes. -/
theorem wellFormedStateDoesNotFault : Obligations.WellFormedStateDoesNotFault := by
  intro s hs
  obtain ⟨t, h⟩ | ⟨k, w, r, h, hm, hk⟩ | ⟨h, hi, hre⟩ := step_outcome_of_inv hs
  · exact ⟨by simp [h], by simp [h]⟩
  · exact ⟨by simp [h], fun _ _ => .inl ⟨k, w, hm, hk⟩⟩
  · refine ⟨by simp [h], fun r hr => .inr ⟨?_, hi, hre⟩⟩
    exact Host.Outcome.refused.inj (hr.symm.trans h)

/-! ## Commands do not interleave (20_memory.md R55) -/

/-- A step while a command is in execution leaves the registers and the command in execution, or ends it. -/
theorem step_keeps_or_ends_command {s t : State} {e : Exec} (hp : s.phase.exec? = some e) (h : step s = .next t)
    (hreset : s.nextMove ≠ .reset) :
    (t.phase = .idle ∧ t.lock = .free ∧ ∃ st d, JustReleased t e.port st d) ∨
      ∃ f, t.phase.exec? = some f ∧ f.port = e.port ∧ f.word = e.word ∧ t.lock = s.lock ∧ SameRegisters s t := by
  have hexec? {f : Exec} (hf : s.phase = .exec f) : f = e := by
    rw [hf] at hp
    exact Option.some.inj hp
  rcases step_next h with ⟨k, w, p, -, -, -, rfl⟩ | ⟨hm, -⟩ | ⟨-, hidle, -⟩ | ⟨k, w, -, hidle, -⟩ |
    ⟨f, -, hf, -, rfl⟩ | ⟨f, i, -, hf, -, hexec⟩ | ⟨f, req, -, -, rfl⟩
  · exact .inr ⟨e, hp, rfl, rfl, rfl, rfl, rfl⟩
  · exact absurd hm hreset
  · rw [hidle] at hp
    cases hp
  · rw [hidle] at hp
    cases hp
  · obtain rfl := hexec? hf
    exact .inl ⟨rfl, rfl, _, _, rfl⟩
  · obtain rfl := hexec? hf
    obtain ⟨req, b, sc, rfl, -, -⟩ | ⟨st, d, hends, -⟩ | ⟨st, d, req, r, hends, -⟩ | ⟨req, -, rfl⟩ :=
      exec_goes_on_ends_or_waits (s := s.takeMove) hf hexec
    · exact .inr ⟨_, rfl, rfl, rfl, rfl, rfl, rfl⟩
    · obtain ⟨hl, hidle⟩ := hends.released
      exact .inl ⟨hidle, hl, st, d, by rw [JustReleased, hends.events]; rfl⟩
    · obtain ⟨hl, hidle⟩ := hends.released
      exact .inl ⟨hidle, hl, st, d, by rw [JustReleased, hends.events]; rfl⟩
    · exact .inr ⟨_, rfl, sending_port _ req, sending_word _ req, rfl, rfl, rfl⟩
  · exact .inr ⟨e, hp, rfl, rfl, rfl, rfl, rfl⟩

/-- Settles O42: a grant needs the phase `Idle`, and the lock is the command's. -/
theorem commandsDoNotInterleave : Obligations.CommandsDoNotInterleave := by
  intro s t e hs hp h hreset
  obtain ⟨-, hgrants, -⟩ := grantStartsOnePendingCommand
  refine ⟨fun k w hgrant => ?_, ?_⟩
  · obtain ⟨-, hidle, -⟩ := hgrants s t k w h hgrant
    rw [hidle] at hp
    cases hp
  · obtain ⟨hl, -, -⟩ := hs.owner e hp
    rw [← hl]
    exact step_keeps_or_ends_command hp h hreset

/-! ## A bus that never answers (93_implementation_defined.md I7) -/

/-- A request that the table lists, at a bus that does not answer it, leaves the command waiting. -/
theorem exec_of_request_of_hang {s : State} {e : Exec} {i : Instr} {req : BusRequest} (hp : s.phase = .exec e)
    (hreq : Reference.request s.params s.view i e.done = some req) (hr : s.nextReply = none) :
    exec i s = .next (s.hang (e.sending req) req) := by
  obtain ⟨t, ht⟩ | hstops := exec_total hp (lt_commandSteps_of_request hreq)
  · rw [ht, (exec_execStep hp ht).eq_hang_of_no_reply hreq hr]
  · generalize exec i s = o at hstops
    cases hstops with
    | secondInit hd hi hre => simp [Reference.request, view_of_initialized hi, hd, hre] at hreq
    | cacheRead b hd hi hr' => cases hr.symm.trans hr'

theorem step_of_stuck {s : State} {e : Exec} {req : BusRequest} (hm : s.nextMove = .sequencer)
    (hp : s.phase = .stuck e req) : step s = .next s.takeMove := by
  simp [step_eq, hm, State.sequence, hp]

/-- While the sequencer waits for ever, a step other than a reset is an issue or changes nothing. -/
theorem step_next_of_stuck {s t : State} {e : Exec} {req : BusRequest} (hp : s.phase = .stuck e req)
    (h : step s = .next t) (hreset : s.nextMove ≠ .reset) :
    t = s.takeMove ∨ ∃ k w p, s.ports[k]? = some p ∧ p.mayIssue = true ∧
      t = { s.takeMove with ports := s.ports.set k (.pending w), log := .issue k w :: s.log } := by
  rcases step_next h with ⟨k, w, p, -, hk, hmay, rfl⟩ | ⟨hm, -⟩ | ⟨-, hidle, -⟩ | ⟨k, w, -, hidle, -⟩ |
    ⟨f, -, hf, -⟩ | ⟨f, i, -, hf, -⟩ | ⟨f, req', -, -, rfl⟩
  · exact .inr ⟨k, w, p, hk, hmay, rfl⟩
  · exact absurd hm hreset
  · cases hp.symm.trans hidle
  · cases hp.symm.trans hidle
  · cases hp.symm.trans hf
  · cases hp.symm.trans hf
  · exact .inl rfl

/-- Settles O44: the step that begins the wait, and each agent's move while it lasts. -/
theorem unansweredTransactionLeavesTheSequencerStuck : Obligations.UnansweredTransactionLeavesTheSequencerStuck := by
  refine ⟨fun s req hreq hr => ?_, fun s e req => step_of_stuck, fun s t e req hp h hreset => ?_,
    fun s e req k w p hp hm hk hmay => ?_, fun s e req _ hm => ⟨_, step_of_reset hm, rfl, rfl⟩⟩
  · obtain ⟨e, i, hm, hp, hdec, hlisted⟩ := nextRequest_eq_some hreq
    refine ⟨s.takeMove.hang (e.sending req) req, e, ?_, hp, rfl, goesOn_hang s.takeMove _ req,
      oneAnswer_hang (s := s.takeMove) hr _ req⟩
    rw [step_eq_exec_of_legal_word hm hp hdec, exec_of_request_of_hang (s := s.takeMove) hp hlisted hr]
  · obtain rfl | ⟨k, w, p, hk, hmay, rfl⟩ := step_next_of_stuck hp h hreset
    · exact ⟨hp, rfl, ⟨rfl, rfl⟩, ⟨rfl, rfl⟩, fun _ _ hk _ => hk⟩
    · refine ⟨hp, rfl, ⟨rfl, rfl⟩, ⟨rfl, rfl⟩, fun j q hj hq => ?_⟩
      have hne : k ≠ j := by
        rintro rfl
        obtain rfl := Option.some.inj (hk.symm.trans hj)
        cases hmay.symm.trans hq
      exact (List.getElem?_set_ne hne).trans hj
  · obtain ⟨hlt, -⟩ := List.getElem?_eq_some_iff.1 hk
    rw [step_of_issue hm]
    exact ⟨_, issue_of_mayIssue (s := s.takeMove) hk hmay w, List.getElem?_set_self hlt, hp⟩

end Sys2Proof.Machine
end

section
/-! Runs to the end: with finite response, no other agent's move and `REINIT = reseed`, a granted command ends within eight
steps and every pending command completes (20_memory.md R63, 60_exceptions.md R118). -/

namespace Sys2Proof.Machine

open State

/-! ## Runs -/

theorem run_succ_of_step {s t : State} (h : step s = .next t) (n : Nat) :
    Sys2Proof.core.run (n + 1) s = Sys2Proof.core.run n t := by
  have hcore : Sys2Proof.core.step s = .next t := h
  simp only [Host.Core.run, hcore]

theorem takeMove_of_no_agenda {s : State} (h : s.agenda = []) : s.takeMove = s := by
  cases s
  simp_all [State.takeMove]

theorem nextMove_of_no_agenda {s : State} (h : s.agenda = []) : s.nextMove = .sequencer := by
  simp [State.nextMove, h]

/-- What the statements about the end of a run assume of a state (92_eei_decisions.md D19, 93_implementation_defined.md I1):
only the sequencer moves, the bus answers, and INIT is never refused. -/
structure Undisturbed (s : State) : Prop where
  inv : s.Inv
  finite : s.FiniteResponse
  agenda : s.agenda = []
  reinit : s.params.reinit = .reseed

/-- A step keeps a state undisturbed, when it uses answers of the bus only and does not wait for ever. -/
theorem undisturbed_of_step {s t : State} (h : Undisturbed s) (hstep : step s = .next t)
    (hanswers : t.answers = s.answers ∨ t.answers = s.answers.tail) (hagenda : t.agenda = [])
    (hphase : ∀ e req, t.phase ≠ .stuck e req) : Undisturbed t := by
  obtain ⟨hparams, -⟩ := step_keeps_params hstep
  obtain ⟨hnever, -⟩ := h.finite
  refine ⟨stepKeepsWellFormedStates s t h.inv hstep, ⟨?_, hphase⟩, hagenda, by rw [hparams, h.reinit]⟩
  obtain hsame | htail := hanswers
  · rwa [hsame]
  · rw [htail]
    exact fun hmem => hnever (List.mem_of_mem_tail hmem)

/-! ## A command in execution -/

/-- An undisturbed step of a command goes on with one more transaction, or ends the command. -/
theorem undisturbed_exec_step {s : State} {e : Exec} (h : Undisturbed s) (hp : s.phase = .exec e) :
    ∃ t, step s = .next t ∧ Undisturbed t ∧
      ((∃ sc, t.phase = .exec { e with done := e.done + 1, scratch := sc } ∧ t.ports = s.ports) ∨
        ∃ st d evs, Ended s t e.port st d evs) := by
  have hm := nextMove_of_no_agenda h.agenda
  have htake := takeMove_of_no_agenda h.agenda
  cases hdec : decode e.word with
  | none =>
    have hstep := step_of_illegal_word hm hp hdec
    rw [htake] at hstep
    exact ⟨_, hstep, undisturbed_of_step h hstep (.inl rfl) h.agenda (by simp), .inr ⟨_, _, _, ended_raise s e _⟩⟩
  | some i =>
    have hstep := step_eq_exec_of_legal_word hm hp hdec
    rw [htake] at hstep
    obtain ⟨t, hexec⟩ | ⟨-, -, hre⟩ := exec_stops_of_inv h.inv hp hdec
    · rw [hexec] at hstep
      obtain ⟨req, b, sc, rfl, -, -⟩ | ⟨st, d, hends, hanswers, -⟩ | ⟨st, d, req, r, hends, hanswers, -⟩ | ⟨req, hr, -⟩ :=
        exec_goes_on_ends_or_waits hp hexec
      · exact ⟨_, hstep, undisturbed_of_step h hstep (.inr rfl) h.agenda (by simp), .inl ⟨sc, rfl, rfl⟩⟩
      · obtain ⟨-, hidle⟩ := hends.released
        obtain ⟨-, hagenda, -⟩ := hends.frame
        exact ⟨t, hstep, undisturbed_of_step h hstep (.inl hanswers) (hagenda.trans h.agenda) (by simp [hidle]),
          .inr ⟨st, d, _, hends⟩⟩
      · obtain ⟨-, hidle⟩ := hends.released
        obtain ⟨-, hagenda, -⟩ := hends.frame
        exact ⟨t, hstep, undisturbed_of_step h hstep (.inr hanswers) (hagenda.trans h.agenda) (by simp [hidle]),
          .inr ⟨st, d, _, hends⟩⟩
      · obtain ⟨r, hreply⟩ := nextReply_of_finite h.finite
        cases hr.symm.trans hreply
    · cases hre.symm.trans h.reinit

/-- The command in execution of a well-formed state has a step left. -/
theorem done_lt_eight {s : State} {e : Exec} (h : s.Inv) (hp : s.phase = .exec e) : e.done < 8 := by
  obtain ⟨hdone, -⟩ := h.progress e (by rw [hp]; rfl)
  exact hdone.trans_le (stepsOf_le_eight e.word)

/-- The run of a command to its end, by the number of its steps that are left. -/
theorem run_ends_command {n : Nat} {s : State} {e : Exec} (h : Undisturbed s) (hp : s.phase = .exec e)
    (hn : 8 - e.done ≤ n) :
    ∃ m t, m ≤ n ∧ Sys2Proof.core.run m s = .next t ∧ t.phase = .idle ∧ t.lock = .free ∧
      ∃ st d, t.ports[e.port]? = some (.done st d) ∧ JustReleased t e.port st d := by
  induction n generalizing s e with
  | zero => have := done_lt_eight h.inv hp; omega
  | succ n ih =>
    obtain ⟨t, hstep, ht, ⟨sc, hp', -⟩ | ⟨st, d, evs, hends⟩⟩ := undisturbed_exec_step h hp
    · obtain ⟨m, u, hm, hrun, hend⟩ := ih ht hp' (by dsimp only; omega)
      exact ⟨m + 1, u, by omega, (run_succ_of_step hstep m).trans hrun, hend⟩
    · obtain ⟨-, howner, -⟩ := h.inv.owner e (by rw [hp]; rfl)
      obtain ⟨hlt, -⟩ := List.getElem?_eq_some_iff.1 howner
      obtain ⟨hl, hidle⟩ := hends.released
      exact ⟨1, t, by omega, run_succ_of_step hstep 0, hidle, hl, st, d, hends.latched hlt,
        by rw [JustReleased, hends.events]; rfl⟩

/-- Settles O48: the command has at most eight steps left. -/
theorem grantedCommandEndsWithinEightSteps : Obligations.GrantedCommandEndsWithinEightSteps :=
  fun _ _ hinv hfin hagenda hre hp => run_ends_command ⟨hinv, hfin, hagenda, hre⟩ hp (Nat.sub_le 8 _)

/-! ## All pending commands -/

/-- From `s` to `t` a port without a command kept its contents, and one with a command still has one or is `Done`. -/
def PortsServed (s t : State) : Prop :=
  ∀ (k : Nat) (p : Port), s.ports[k]? = some p →
    (p.mayIssue = true → t.ports[k]? = some p) ∧
    (p.mayIssue = false → ∃ q, t.ports[k]? = some q ∧ (q.mayIssue = false ∨ ∃ st d, q = .done st d))

theorem portsServed_of_eq {s t : State} (h : t.ports = s.ports) : PortsServed s t :=
  fun k p hk => ⟨fun _ => by rw [h, hk], fun hp => ⟨p, by rw [h, hk], .inl hp⟩⟩

theorem PortsServed.trans {s t u : State} (h : PortsServed s t) (h' : PortsServed t u) : PortsServed s u := by
  intro k p hk
  obtain ⟨hmay, hserved⟩ := h k p hk
  refine ⟨fun hp => (h' k p (hmay hp)).1 hp, fun hp => ?_⟩
  obtain ⟨q, hq, hcmd | ⟨st, d, rfl⟩⟩ := hserved hp
  · exact (h' k q hq).2 hcmd
  · exact ⟨_, (h' k _ hq).1 rfl, .inr ⟨st, d, rfl⟩⟩

/-- Writing the port of a command, with a command or a response, serves it. -/
theorem portsServed_of_set {s t : State} {k : Nat} {p q : Port} (hk : s.ports[k]? = some p) (hp : p.mayIssue = false)
    (hq : q.mayIssue = false ∨ ∃ st d, q = .done st d) (ht : t.ports = s.ports.set k q) : PortsServed s t := by
  obtain ⟨hlt, -⟩ := List.getElem?_eq_some_iff.1 hk
  intro j r hj
  by_cases hjk : j = k
  · subst hjk
    obtain rfl := Option.some.inj (hk.symm.trans hj)
    exact ⟨fun hmay => (by cases hp.symm.trans hmay), fun _ => ⟨q, by rw [ht, List.getElem?_set_self hlt], hq⟩⟩
  · have hsame : t.ports[j]? = some r := by rw [ht, List.getElem?_set_ne (Ne.symm hjk), hj]
    exact ⟨fun _ => hsame, fun hr => ⟨r, hsame, .inl hr⟩⟩

/-- The ports after the ending of a command. -/
theorem ports_of_ended {s t : State} {k : Nat} {st : Status} {d : Word} {evs : List Event} (h : Ended s t k st d evs) :
    t.ports = s.ports.set k (.done st d) := by
  obtain ⟨hlen, hothers⟩ := h.others
  apply List.ext_getElem?
  intro j
  by_cases hjk : j = k
  · subst hjk
    by_cases hlt : j < s.ports.length
    · rw [h.latched hlt, List.getElem?_set_self hlt]
    · rw [List.getElem?_eq_none (by omega), List.getElem?_eq_none (by simp; omega)]
  · rw [hothers j hjk, List.getElem?_set_ne (Ne.symm hjk)]

/-- How many ports are pending. -/
def pendingCount (s : State) : Nat := s.ports.countP fun p => p.pending?.isSome

/-- At most how many steps are left to do: nine for each pending port, its grant and the command's, and what is left of the
command in execution. -/
def stepsLeft (s : State) : Nat :=
  9 * pendingCount s + match s.phase with
    | .idle => 0
    | .exec e => 8 - e.done
    | .stuck _ _ => 0

theorem pendingCount_set {s t : State} {k : Nat} {p q : Port} (hk : s.ports[k]? = some p)
    (ht : t.ports = s.ports.set k q) : pendingCount t + (if p.pending?.isSome then 1 else 0) =
      pendingCount s + if q.pending?.isSome then 1 else 0 := by
  obtain ⟨hlt, hget⟩ := List.getElem?_eq_some_iff.1 hk
  have hpos : (if p.pending?.isSome then 1 else 0) ≤ pendingCount s := by
    split_ifs with hp
    · exact List.countP_pos_iff.2 ⟨p, List.mem_of_getElem? hk, hp⟩
    · exact Nat.zero_le _
  unfold pendingCount at hpos ⊢
  rw [ht, List.countP_set hlt, hget]
  omega

theorem pendingCount_grantTo {s : State} {k : Nat} {w : Word} (hk : s.ports[k]? = some (.pending w)) :
    pendingCount (s.grantTo k w) + 1 = pendingCount s := by
  simpa [Port.pending?] using pendingCount_set hk (grantTo_ports s k w)

theorem pendingCount_of_ended {s t : State} {k : Nat} {w : Word} {st : Status} {d : Word} {evs : List Event}
    (hk : s.ports[k]? = some (.busy w)) (h : Ended s t k st d evs) : pendingCount t = pendingCount s := by
  simpa [Port.pending?] using pendingCount_set hk (ports_of_ended h)

theorem pendingCount_eq_zero_iff (s : State) :
    pendingCount s = 0 ↔ ∀ (k : Nat) (w : Word), s.ports[k]? ≠ some (.pending w) := by
  rw [pendingCount, List.countP_eq_zero]
  constructor
  · intro h k w hk
    exact h _ (List.mem_of_getElem? hk) rfl
  · intro h p hp hpending
    obtain ⟨k, hk⟩ := List.getElem?_of_mem hp
    cases p with
    | pending w => exact h k w hk
    | idle | busy w | done st d => cases hpending

/-- An undisturbed step in `Idle` grants a pending port; without one, nothing is left to do. -/
theorem undisturbed_idle_step {s : State} (h : Undisturbed s) (hp : s.phase = .idle) :
    ∃ t, step s = .next t ∧ Undisturbed t ∧ PortsServed s t ∧ stepsLeft t ≤ stepsLeft s - 1 := by
  have hm := nextMove_of_no_agenda h.agenda
  have htake := takeMove_of_no_agenda h.agenda
  have hstep : step s = .next s.grant := by simp [step_eq, hm, State.sequence, htake, hp]
  obtain ⟨hsame, hnone⟩ | ⟨k, w, -, -, hk, hgrant⟩ := grant_cases s
  · rw [hsame] at hstep
    obtain ⟨hl, -⟩ := h.inv.idle hp
    have hzero : pendingCount s = 0 := (pendingCount_eq_zero_iff s).2 (hnone hl hp)
    exact ⟨s, hstep, h, portsServed_of_eq rfl, by simp [stepsLeft, hp, hzero]⟩
  · rw [hgrant] at hstep
    refine ⟨_, hstep, undisturbed_of_step h hstep (.inl rfl) h.agenda (by simp),
      portsServed_of_set hk rfl (.inl rfl) (grantTo_ports s k w), ?_⟩
    have hcount := pendingCount_grantTo hk
    simp only [stepsLeft, hp, grantTo_phase]
    omega

/-- An undisturbed step serves the ports, and brings the end nearer when it is not there yet. -/
theorem undisturbed_step {s : State} (h : Undisturbed s) :
    ∃ t, step s = .next t ∧ Undisturbed t ∧ PortsServed s t ∧ stepsLeft t ≤ stepsLeft s - 1 := by
  cases hp : s.phase with
  | idle => exact undisturbed_idle_step h hp
  | stuck e req =>
    obtain ⟨-, hnot⟩ := h.finite
    exact absurd hp (hnot e req)
  | exec e =>
    have h8 := done_lt_eight h.inv hp
    obtain ⟨-, howner, -⟩ := h.inv.owner e (by rw [hp]; rfl)
    obtain ⟨t, hstep, ht, ⟨sc, hp', hports⟩ | ⟨st, d, evs, hends⟩⟩ := undisturbed_exec_step h hp
    · refine ⟨t, hstep, ht, portsServed_of_eq hports, ?_⟩
      simp only [stepsLeft, hp, hp', pendingCount, hports]
      omega
    · refine ⟨t, hstep, ht, portsServed_of_set howner rfl (.inr ⟨st, d, rfl⟩) (ports_of_ended hends), ?_⟩
      obtain ⟨-, hidle⟩ := hends.released
      simp only [stepsLeft, hp, hidle, pendingCount_of_ended howner hends]
      omega

/-- Where no step is left to do, the phase is idle, the lock free, and no port has a command. -/
theorem quiet_of_no_steps_left {s : State} (h : Undisturbed s) (hleft : stepsLeft s = 0) :
    s.phase = .idle ∧ s.lock = .free ∧ ∀ (k : Nat) (p : Port), s.ports[k]? = some p → p.mayIssue = true := by
  have hzero : pendingCount s = 0 := by unfold stepsLeft at hleft; omega
  have hidle : s.phase = .idle := by
    cases hp : s.phase with
    | idle => rfl
    | stuck e req =>
      obtain ⟨-, hnot⟩ := h.finite
      exact absurd hp (hnot e req)
    | exec e =>
      have h8 := done_lt_eight h.inv hp
      simp only [stepsLeft, hp] at hleft
      omega
  obtain ⟨hl, hbusy⟩ := h.inv.idle hidle
  refine ⟨hidle, hl, fun k p hk => ?_⟩
  cases p with
  | idle | done st d => rfl
  | pending w => exact absurd hk ((pendingCount_eq_zero_iff s).1 hzero k w)
  | busy w => exact absurd hk (hbusy k w)

/-- An undisturbed run that is long enough leaves nothing to do. -/
theorem run_serves_all {n : Nat} {s : State} (h : Undisturbed s) (hn : stepsLeft s ≤ n) :
    ∃ t, Sys2Proof.core.run n s = .next t ∧ Undisturbed t ∧ PortsServed s t ∧ stepsLeft t = 0 := by
  induction n generalizing s with
  | zero => exact ⟨s, rfl, h, portsServed_of_eq rfl, by omega⟩
  | succ n ih =>
    obtain ⟨t, hstep, ht, hserved, hless⟩ := undisturbed_step h
    obtain ⟨u, hrun, hu, hserved', hzero⟩ := ih ht (by omega)
    exact ⟨u, (run_succ_of_step hstep n).trans hrun, hu, hserved.trans hserved', hzero⟩

theorem stepsLeft_le (s : State) : stepsLeft s ≤ 9 * s.ports.length + 8 := by
  have hcount : pendingCount s ≤ s.ports.length := List.countP_le_length
  unfold stepsLeft
  split <;> omega

/-- Settles O49: each step brings the end nearer, whichever port the arbitration chooses, and at the end no port has a
command. -/
theorem everyPendingCommandCompletes : Obligations.EveryPendingCommandCompletes := by
  intro s hinv hfin hagenda hre
  obtain ⟨t, hrun, ht, hserved, hzero⟩ := run_serves_all ⟨hinv, hfin, hagenda, hre⟩ (stepsLeft_le s)
  obtain ⟨hidle, hl, hquiet⟩ := quiet_of_no_steps_left ht hzero
  refine ⟨t, hrun, hidle, hl, fun k p hk => ?_⟩
  obtain ⟨hmay, hcmd⟩ := hserved k p hk
  refine ⟨hmay, fun hp => ?_⟩
  obtain ⟨q, hq, hbusy | ⟨st, d, rfl⟩⟩ := hcmd hp
  · cases hbusy.symm.trans (hquiet k q hq)
  · exact ⟨st, d, hq⟩

end Sys2Proof.Machine
end

section
/-! INIT as it succeeds (40_init.md R90, R91): each of the first seven reads is staged, the eighth commits, and a whole run
seeds the cache from its eight bytes. -/

namespace Sys2Proof.Machine

open State

theorem exec_init (s : State) : exec .init s = execInit s := rfl

theorem exec_getvals (s : State) : exec .getvals s = execGetvals s := rfl

/-! ## One read -/

/-- A read before the eighth that returns `Ok` is staged. -/
theorem execInit_of_ok {s : State} {e : Exec} {index : BitVec 3} {b : Byte} (hp : s.phase = .exec e) (hlt : e.done < 7)
    (hx : initOrder[e.done]? = some index) (ha : e.done = 0 → s.InitAllowed) (hr : s.nextReply = some (.ok b)) :
    execInit s = .next ((s.answered (s.params.read index) (.ok b)).advance e (e.scratch.stage index b)) := by
  have hlast : e.done + 1 ≠ initOrder.length := by
    have hlen : initOrder.length = 8 := rfl
    omega
  rw [execInit_of_reply hp hx ha hr]
  simp only [if_neg hlast]

/-- The eighth read, when it returns `Ok`, commits the cache. -/
theorem execInit_of_eighth_ok {s : State} {e : Exec} {b : Byte} (hp : s.phase = .exec e) (hd : e.done = 7)
    (hr : s.nextReply = some (.ok b)) :
    execInit s =
      .next (((s.answered (s.params.read 1) (.ok b)).commitInit (e.scratch.stage 1 b)).respond e 0) := by
  have hx : initOrder[e.done]? = some 1 := by rw [hd]; rfl
  rw [execInit_of_reply hp hx (by omega) hr]
  simp only [hd, if_pos (show 7 + 1 = initOrder.length from rfl)]

theorem initOrder_of_first_seven {n : Nat} (hn : n < 7) :
    initOrder[n]? = ([6, 7, 4, 5, 2, 3, 0] : List (BitVec 3))[n]? :=
  List.getElem?_append_left (l₁ := [6, 7, 4, 5, 2, 3, 0]) (l₂ := [1]) hn

/-- Settles O19: the read's byte is staged, and the command goes on. -/
theorem initStagesEachRead : Obligations.InitStagesEachRead := by
  intro s e index b hp hlt ha hx hr
  rw [← initOrder_of_first_seven hlt] at hx
  refine ⟨_, _, execInit_of_ok hp hlt hx ha hr, rfl, ?_, fun j hj => ?_, goesOn_advance ..,
    oneAnswer_answered s (s.params.read index) (.ok b)⟩
  · rw [staged_stage, if_pos rfl]
  · rw [staged_stage, if_neg hj]

/-- What the commit leaves, in the words of the serial machine's seed. -/
theorem seeded_stage_eq (sc : Scratch) (params : Params) (b : Byte) : (sc.stage 1 b).seeded params =
    Reference.seed params (sc.staged 6) (sc.staged 7) (sc.staged 4) (sc.staged 5) (sc.staged 2) (sc.staged 3)
      (sc.staged 0) b := by
  rw [seeded_eq_seed]
  simp [staged_stage]

/-- Settles O20: the cache is the seed of the seven staged bytes and the eighth. -/
theorem initCommitsTheWholeCache : Obligations.InitCommitsTheWholeCache := by
  intro s e b hp hd hr
  have hcache := seeded_stage_eq e.scratch s.params b
  exact ⟨_, execInit_of_eighth_ok hp hd hr, ended_release _ _ _ _ rfl rfl rfl rfl rfl, rfl,
    (congrArg Cache.config hcache).trans rfl, (congrArg Cache.polarity hcache).trans rfl,
    (congrArg Cache.output hcache).trans rfl, (congrArg Cache.lastInputState hcache).trans rfl,
    oneAnswer_answered s (s.params.read 1) (.ok b)⟩

theorem run_add {m : Nat} {s t : State} (h : Sys2Proof.core.run m s = .next t) (n : Nat) :
    Sys2Proof.core.run (m + n) s = Sys2Proof.core.run n t := by
  induction m generalizing s with
  | zero =>
    obtain rfl := Host.Outcome.next.inj h
    rw [Nat.zero_add]
  | succ m ih =>
    simp only [Host.Core.run] at h
    split at h
    · rename_i u hstep
      rw [Nat.add_right_comm, run_succ_of_step hstep, ih h]
    · cases h
    · cases h

/-! ## A whole run (40_init.md R90, R91) -/

/-- The events of reads at the given indices. -/
def readEvents (params : Params) (reads : List (BitVec 3 × Byte)) : List Event :=
  reads.map fun x => .bus (params.read x.1) (.ok x.2)

theorem readEvents_cons (params : Params) {n : Nat} (hn : n < initOrder.length) (b : Byte) (bs : List Byte) :
    readEvents params ((initOrder.drop n).zip (b :: bs)) =
      .bus (params.read initOrder[n]) (.ok b) :: readEvents params ((initOrder.drop (n + 1)).zip bs) := by
  rw [List.drop_eq_getElem_cons hn]
  rfl

/-- From `s`, where the command `e` is in execution, to `t` an INIT has read the bytes `bs` more and has committed nothing;
the answers `rest` are left. -/
structure InitReads (s : State) (e : Exec) (bs : List Byte) (rest : List BusAnswer) (t : State) : Prop where
  phase : ∃ sc, t.phase = .exec { e with done := e.done + bs.length, scratch := sc } ∧
    (initOrder.take (e.done + bs.length)).map sc.staged = (initOrder.take e.done).map e.scratch.staged ++ bs
  ports : t.ports = s.ports
  frame : t.params = s.params ∧ t.agenda = s.agenda ∧ t.arb = s.arb
  answers : t.answers = rest
  log : t.log = (readEvents s.params ((initOrder.drop e.done).zip bs)).reverse ++ s.log

/-- The run of an INIT over the next bytes, before its eighth. -/
theorem run_init_reads (bs : List Byte) {s : State} {e : Exec} {rest : List BusAnswer} (hp : s.phase = .exec e)
    (hdec : decode e.word = some .init) (hagenda : s.agenda = []) (ha : e.done = 0 → s.InitAllowed)
    (hlen : e.done + bs.length ≤ 7) (hanswers : s.answers = bs.map (fun b => .reply (.ok b)) ++ rest) :
    ∃ t : State, Sys2Proof.core.run bs.length s = .next t ∧ InitReads s e bs rest t := by
  induction bs generalizing s e with
  | nil => exact ⟨s, rfl, ⟨e.scratch, hp, by simp⟩, rfl, ⟨rfl, rfl, rfl⟩, hanswers, by simp [readEvents]⟩
  | cons b bs ih =>
    have hlen' : e.done + (bs.length + 1) ≤ 7 := hlen
    have hlt : e.done < initOrder.length := by
      have hlen8 : initOrder.length = 8 := rfl
      omega
    have hx : initOrder[e.done]? = some initOrder[e.done] := List.getElem?_eq_getElem hlt
    have hr : s.nextReply = some (.ok b) := by simp [State.nextReply, hanswers]
    have hstep := step_eq_exec_of_legal_word (nextMove_of_no_agenda hagenda) hp hdec
    rw [takeMove_of_no_agenda hagenda, exec_init, execInit_of_ok hp (by omega) hx ha hr] at hstep
    obtain ⟨t, hrun, ⟨sc, hphase, hstaged⟩, hports, hframe, hans, hlog⟩ := ih
      (s := (s.answered (s.params.read initOrder[e.done]) (.ok b)).advance e (e.scratch.stage initOrder[e.done] b))
      rfl hdec hagenda (by simp) (by dsimp only; omega) (by simp [hanswers])
    refine ⟨t, (run_succ_of_step hstep bs.length).trans hrun, ⟨sc, ?_, ?_⟩, hports, hframe, hans, ?_⟩
    · rw [hphase, List.length_cons, Nat.add_right_comm, Nat.add_assoc]
    · rw [List.length_cons, ← Nat.add_assoc, Nat.add_right_comm, hstaged, map_staged_stage hx, List.append_assoc]
      rfl
    · rw [readEvents_cons s.params hlt, List.reverse_cons, List.append_assoc]
      exact hlog

/-- Settles O21: seven reads are staged, and the eighth commits. -/
theorem initRunSeedsTheCache : Obligations.InitRunSeedsTheCache := by
  intro s e c0 c1 p0 p1 o0 o1 i0 i1 rest hp hd hdec hagenda ha hanswers
  obtain ⟨t, hrun, ⟨sc, hphase, hstaged⟩, hports, ⟨hparams, hagenda', harb⟩, hans, hlog⟩ :=
    run_init_reads [c0, c1, p0, p1, o0, o1, i0] (rest := .reply (.ok i1) :: rest) hp hdec hagenda (fun _ => ha)
      (by simp [hd]) hanswers
  have hr : t.nextReply = some (.ok i1) := by simp [State.nextReply, hans]
  have hstep := step_eq_exec_of_legal_word (nextMove_of_no_agenda (hagenda'.trans hagenda)) hphase hdec
  rw [takeMove_of_no_agenda (hagenda'.trans hagenda), exec_init,
    execInit_of_eighth_ok hphase (by simp [hd]) hr] at hstep
  have hcache := seeded_stage_eq sc t.params i1
  rw [hd] at hstaged
  obtain ⟨h6, h7, h4, h5, h2, h3, h0⟩ : sc.staged 6 = c0 ∧ sc.staged 7 = c1 ∧ sc.staged 4 = p0 ∧ sc.staged 5 = p1 ∧
      sc.staged 2 = o0 ∧ sc.staged 3 = o1 ∧ sc.staged 0 = i0 := by simpa using (map_staged_seven sc).symm.trans hstaged
  rw [h6, h7, h4, h5, h2, h3, h0] at hcache
  refine ⟨_, (run_add hrun 1).trans (run_succ_of_step hstep 0),
    ended_release (u := (t.answered (t.params.read 1) (.ok i1)).commitInit (sc.stage 1 i1)) _ _ _ _ hports hparams hagenda'
      harb ?_, rfl, congrArg List.tail hans, (congrArg Cache.config hcache).trans rfl,
    (congrArg Cache.polarity hcache).trans rfl, (congrArg Cache.output hcache).trans rfl,
    (congrArg Cache.lastInputState hcache).trans (by rw [← hparams]; rfl)⟩
  rw [commitInit_log, answered_log, hlog, hd, hparams]
  rfl

end Sys2Proof.Machine
end

section
/-! The set and get commands (41_config_polarity.md R97 to R103, 42_value.md R106 to R112): a repeated set command changes
nothing, and what the get commands answer, from the cache and from the pins. -/

namespace Sys2Proof.Machine

open State

/-! ## A set command repeated (20_memory.md R56) -/

theorem setBitTo_idem {n : Nat} (x : BitVec n) (i : Nat) (v : Bool) : setBitTo (setBitTo x i v) i v = setBitTo x i v := by
  apply BitVec.eq_of_getLsbD_eq
  intro j hj
  rw [getLsbD_setBitTo _ _ _ _ hj, getLsbD_setBitTo _ _ _ _ hj]
  split_ifs <;> rfl

theorem setByte_idem (x : Pair) (b : Nat) (v : Byte) : (x.setByte b v).setByte b v = x.setByte b v := by
  by_cases h : b = 0 <;> simp [Pair.setByte, h]

theorem setPair_setPair (c : Cache) (C : PairName) (x y : Pair) : (c.setPair x C).setPair y C = c.setPair y C := by
  cases C <;> rfl

/-- The byte that a set command writes once more is the byte it committed. -/
theorem newByte_commit_newByte (c : Cache) (C : PairName) (p : Nat) (v : Bool) :
    (c.commitByte C p (c.newByte C p v)).newByte C p v = c.newByte C p v := by
  rw [Cache.newByte, pair_commitByte_same, byte_setByte_same, Cache.newByte, setBitTo_idem]

theorem commit_newByte_idem (c : Cache) (C : PairName) (p : Nat) (v : Bool) :
    (c.commitByte C p (c.newByte C p v)).commitByte C p ((c.commitByte C p (c.newByte C p v)).newByte C p v) =
      c.commitByte C p (c.newByte C p v) := by
  rw [newByte_commit_newByte]
  simp only [Cache.commitByte, pair_setPair_same, setByte_idem, setPair_setPair]

/-- Settles O26: the second run keeps the registers, or commits the same byte again. -/
theorem setCommandIsIdempotentOnTheCache : Obligations.SetCommandIsIdempotentOnTheCache := by
  intro s t u u' C p v k hset hok hsame hagain
  rw [exec_setInstr] at hset hagain
  obtain ⟨-, -, hcache⟩ := rmw_commits_of_ok hset hok
  obtain ⟨hucache, huinit⟩ := hsame
  obtain ⟨⟨hkept, hinit⟩, -⟩ | ⟨-, -, hinit, hcommit, -⟩ := rmw_keeps_or_commits hagain
  · exact ⟨hkept.trans hucache, hinit.trans huinit⟩
  · refine ⟨?_, hinit.trans huinit⟩
    rw [hcommit, hucache, hcache, commit_newByte_idem]

/-! ## GETDIR and GETPOL (41_config_polarity.md R97, R100) -/

theorem zext16_pin (x : Pair) {p : Nat} (hp : p ≤ 15) : zext16 (x.pin p) = if x.word.getLsbD p then 1 else 0 := by
  rw [zext16_eq, pin_eq_getLsbD_word x p hp]

theorem answerBit_answers {s : State} {e : Exec} {p : Nat} (hp : s.phase = .exec e) (hd : e.done = 0)
    (hi : s.initialized = true) (h15 : p ≤ 15) (C : PairName) :
    ∃ t, s.answerBit C p = .next t ∧
      Ended s t e.port .ok (if (s.cache.pair C).word.getLsbD p then 1 else 0) [] ∧ SameRegisters s t ∧ SameBus s t := by
  refine ⟨_, answerBit_of_start hp hd hi h15 C, ?_, ⟨rfl, rfl⟩, rfl, rfl⟩
  rw [zext16_pin _ h15]
  exact ended_respond s e _

/-- Settles O28: both are answers from the cache. -/
theorem getDirectionAndPolarityAnswerFromTheCache : Obligations.GetDirectionAndPolarityAnswerFromTheCache :=
  fun _ _ _ hp hd hi h15 => ⟨answerBit_answers hp hd hi h15 .config, answerBit_answers hp hd hi h15 .polarity⟩

/-! ## GETVAL (42_value.md R107 to R109) -/

/-- An output pin answers with its latch. -/
theorem execGetval_of_output {s : State} {e : Exec} {p : Nat} (hp : s.phase = .exec e) (hd : e.done = 0)
    (hi : s.initialized = true) (h15 : p ≤ 15) (hout : s.cache.config.pin p = false) :
    execGetval p s = .next (s.respond e (zext16 (s.cache.output.pin p))) := by
  rw [execGetval, checkedPin_of_start hp hd, if_pos hi, if_pos h15, if_neg (by simp [hout])]

/-- An input pin is read; an `Ok` answers with its level and records it. -/
theorem execGetval_of_input_ok {s : State} {e : Exec} {p : Nat} {b : Byte} (hp : s.phase = .exec e) (hd : e.done = 0)
    (hi : s.initialized = true) (h15 : p ≤ 15) (hin : s.cache.config.pin p = true) (hr : s.nextReply = some (.ok b)) :
    execGetval p s = .next (((s.answered (s.params.read (deviceIndex 0 p)) (.ok b)).setCache
      (s.cache.setLevel p (s.cache.inputLevel s.params p b))).respond e (zext16 (s.cache.inputLevel s.params p b))) := by
  rw [execGetval, checkedPin_of_start hp hd, if_pos hi, if_pos h15, if_pos hin, transact_of_reply hr]

theorem execGetval_of_input_err {s : State} {e : Exec} {p : Nat} (hp : s.phase = .exec e) (hd : e.done = 0)
    (hi : s.initialized = true) (h15 : p ≤ 15) (hin : s.cache.config.pin p = true) (hr : s.nextReply = some .err) :
    execGetval p s = .next ((s.answered (s.params.read (deviceIndex 0 p)) .err).raise e .busError) := by
  rw [execGetval, checkedPin_of_start hp hd, if_pos hi, if_pos h15, if_pos hin, transact_of_reply hr]

theorem deviceIndex_zero (p : Nat) : deviceIndex 0 p = BitVec.ofNat 3 (p / 8) := by
  rw [deviceIndex, Nat.zero_add, reg]

/-- Settles O30: one equation of GETVAL for each clause. -/
theorem getValueReportsTheEffectiveLevel : Obligations.GetValueReportsTheEffectiveLevel := by
  intro s e p hp hd hi h15
  rw [← pin_eq_getLsbD_word _ p h15, ← deviceIndex_zero]
  refine ⟨fun b hin hr => ?_, fun hin hr => ?_, fun hout => ?_⟩
  · refine ⟨_, s.cache.inputLevel s.params p b, execGetval_of_input_ok hp hd hi h15 hin hr, inputLevel_eq s p b, ?_, rfl,
      rfl, rfl, fun q hq => getLsbD_setBitTo _ _ _ _ (by omega), rfl,
      oneAnswer_answered s (s.params.read (deviceIndex 0 p)) (.ok b)⟩
    rw [← zext16_eq]
    exact ended_respond_setCache_answered s e _ _ (s.params.read (deviceIndex 0 p)) (.ok b)
  · exact ⟨_, execGetval_of_input_err hp hd hi h15 hin hr, ended_raise_answered s e .busError _ .err, ⟨rfl, rfl⟩,
      oneAnswer_answered s (s.params.read (deviceIndex 0 p)) .err⟩
  · refine ⟨_, execGetval_of_output hp hd hi h15 hout, ?_, ⟨rfl, rfl⟩, rfl, rfl⟩
    rw [zext16_pin _ h15]
    exact ended_respond s e _

/-- Settles O27: SETVAL leaves the latch, SETDIR the direction, and GETVAL then answers from the latch. -/
theorem setValuePassesThroughToTheOutput : Obligations.SetValuePassesThroughToTheOutput := by
  intro s t u u' x e p v k k' hval hok hsame hdir hok' hsame' hp hd
  obtain ⟨h15, -, hcache⟩ := rmw_commits_of_ok (C := .output) hval hok
  obtain ⟨-, hinit', hcache'⟩ := rmw_commits_of_ok (C := .config) hdir hok'
  obtain ⟨hu, -⟩ := hsame
  obtain ⟨hx, hxinit⟩ := hsame'
  have hout : x.cache.config.pin p = false := by
    rw [hx, hcache']
    exact pin_commit_newByte u.cache .config false h15
  have hpair : x.cache.pair .output = t.cache.pair .output := by
    rw [hx, hcache', pair_commitByte_other _ _ _ (by decide), hu]
  have hlatch : (x.cache.pair .output).pin p = v := by
    rw [hpair, hcache, pin_commit_newByte _ _ _ h15]
  refine ⟨_, execGetval_of_output hp hd (hxinit.trans hinit') h15 hout, ?_, ⟨rfl, rfl⟩, rfl, rfl⟩
  exact hlatch ▸ ended_respond x e _

/-! ## GETVALS (42_value.md R110) -/

theorem execGetvals_of_low_ok {s : State} {e : Exec} {b : Byte} (hp : s.phase = .exec e) (hd : e.done = 0)
    (hi : s.initialized = true) (hr : s.nextReply = some (.ok b)) :
    execGetvals s = .next ((s.answered (s.params.read 0) (.ok b)).advance e { e.scratch with in0 := b }) := by
  rw [execGetvals, withExec_of_exec hp]
  simp only [hd, State.checkedCache, if_pos hi, withCache_of_initialized hi, transact_of_reply hr]

/-- The second read, when it returns `Ok`, answers with the composed word and records it. -/
theorem execGetvals_of_high_ok {s : State} {e : Exec} {b : Byte} (hp : s.phase = .exec e) (hd : e.done = 1)
    (hi : s.initialized = true) (hr : s.nextReply = some (.ok b)) :
    execGetvals s = .next (((s.answered (s.params.read 1) (.ok b)).setCache
      { s.cache with lastInputState := s.cache.levels s.params (b ++ e.scratch.in0) }).respond e
        (s.cache.levels s.params (b ++ e.scratch.in0))) := by
  rw [execGetvals, withExec_of_exec hp]
  simp only [hd, transactWith_of_reply hr]
  exact withCache_of_initialized (s := s.answered _ _) hi _

theorem execGetvals_of_err {s : State} {e : Exec} (hp : s.phase = .exec e) (hd : e.done ≤ 1) (hi : s.initialized = true)
    (hr : s.nextReply = some .err) :
    execGetvals s = .next ((s.answered (s.params.read (BitVec.ofNat 3 e.done)) .err).raise e .busError) := by
  rw [execGetvals, withExec_of_exec hp]
  obtain hd | hd : e.done = 0 ∨ e.done = 1 := by omega
  · simp only [hd, State.checkedCache, if_pos hi, withCache_of_initialized hi, transact_of_reply hr]
    rfl
  · simp only [hd, transactWith_of_reply hr]
    rfl

/-- Settles O31: one equation of GETVALS for each clause. -/
theorem getValuesComposesAllPins : Obligations.GetValuesComposesAllPins := by
  intro s e hp hi
  refine ⟨fun b hd hr => ?_, fun b hd hr => ?_, fun hd hr => ?_⟩
  · refine ⟨_, { e.scratch with in0 := b }, execGetvals_of_low_ok hp hd hi hr, ?_, rfl, goesOn_advance ..,
      oneAnswer_answered s (s.params.read 0) (.ok b)⟩
    rw [advance_phase, hd]
  · exact ⟨_, _, execGetvals_of_high_ok hp hd hi hr, levels_eq s _, ended_respond_setCache_answered .., rfl, rfl,
      oneAnswer_answered s (s.params.read 1) (.ok b)⟩
  · exact ⟨_, execGetvals_of_err hp hd hi hr, ended_raise_answered s e .busError _ .err, ⟨rfl, rfl⟩,
      oneAnswer_answered s (s.params.read (BitVec.ofNat 3 e.done)) .err⟩

/-! ## GETVALS against GETVAL (42_value.md R111) -/

/-- GETVAL p answers with bit p of the composed word, of its own register's raw byte and any other for the other register. -/
theorem execGetval_releases_level {s : State} {e : Exec} {p : Nat} {raw0 raw1 : Byte} (hp : s.phase = .exec e)
    (hd : e.done = 0) (hi : s.initialized = true) (h15 : p ≤ 15)
    (hr : s.nextReply = some (.ok (if p < 8 then raw0 else raw1))) :
    ∃ t, execGetval p s = .next t ∧
      JustReleased t e.port .ok (zext16 ((s.cache.levels s.params (raw1 ++ raw0)).getLsbD p)) := by
  cases hin : s.cache.config.pin p with
  | true =>
    rw [getLsbD_levels_of_input s raw0 raw1 h15 hin]
    exact ⟨_, execGetval_of_input_ok hp hd hi h15 hin hr, rfl⟩
  | false =>
    rw [getLsbD_levels_of_output s _ h15 hin]
    exact ⟨_, execGetval_of_output hp hd hi h15 hin, rfl⟩

/-- The same at a state with the registers and the parameters of another one. -/
theorem exec_getval_releases_bit {s u : State} {f : Exec} {p : Nat} {raw0 raw1 : Byte} (hsame : SameRegisters s u)
    (hparams : u.params = s.params) (hi : s.initialized = true) (hp : u.phase = .exec f) (hd : f.done = 0) (h15 : p ≤ 15)
    (hr : u.nextReply = some (.ok (if p < 8 then raw0 else raw1))) :
    ∃ u', exec (.getval p) u = .next u' ∧ JustReleased u' f.port .ok
      (if (s.cache.levels s.params (raw1 ++ raw0)).getLsbD p then 1 else 0) := by
  obtain ⟨hcache, hinit⟩ := hsame
  rw [← zext16_eq, ← hcache, ← hparams]
  exact execGetval_releases_level hp hd (hinit.trans hi) h15 hr

/-- The run of GETVALS from its start, with no other agent's move: two steps, then the composed word. -/
theorem run_getvals {s : State} {e : Exec} {raw0 raw1 : Byte} {rest : List BusAnswer} (hp : s.phase = .exec e)
    (hd : e.done = 0) (hdec : decode e.word = some .getvals) (hi : s.initialized = true) (hagenda : s.agenda = [])
    (hanswers : s.answers = .reply (.ok raw0) :: .reply (.ok raw1) :: rest) :
    ∃ t : State, Sys2Proof.core.run 2 s = .next t ∧
      JustReleased t e.port .ok (s.cache.levels s.params (raw1 ++ raw0)) := by
  have hr : s.nextReply = some (.ok raw0) := by simp [State.nextReply, hanswers]
  have hlow := step_eq_exec_of_legal_word (nextMove_of_no_agenda hagenda) hp hdec
  rw [takeMove_of_no_agenda hagenda, exec_getvals,
    execGetvals_of_low_ok hp hd hi hr] at hlow
  generalize hu : (s.answered (s.params.read 0) (.ok raw0)).advance e { e.scratch with in0 := raw0 } = u at hlow
  have hp' : u.phase = .exec { e with done := e.done + 1, scratch := { e.scratch with in0 := raw0 } } := by rw [← hu]; rfl
  have hr' : u.nextReply = some (.ok raw1) := by simp [← hu, State.nextReply, hanswers]
  have hagenda' : u.agenda = [] := by rw [← hu]; exact hagenda
  have hhigh := step_eq_exec_of_legal_word (nextMove_of_no_agenda hagenda') hp' hdec
  rw [takeMove_of_no_agenda hagenda', exec_getvals,
    execGetvals_of_high_ok hp' (by simp [hd]) (by rw [← hu]; exact hi) hr'] at hhigh
  exact ⟨_, (run_succ_of_step hlow 1).trans (run_succ_of_step hhigh 0), by subst hu; rfl⟩

/-- Settles O32: both commands answer from the one composed word. -/
theorem getValuesAgreesWithGetValue : Obligations.GetValuesAgreesWithGetValue := by
  refine ⟨fun s u e f raw0 raw1 rest p h15 hi hsame hparams hp hd hdec hagenda hanswers hp' hd' hr' => ?_,
    fun s u e f raw0 raw1 p h15 hi hsame hparams hp hd hin0 hr hp' hd' hr' => ?_⟩
  · obtain ⟨u', hget, hbit⟩ := exec_getval_releases_bit hsame hparams hi hp' hd' h15 hr'
    obtain ⟨t, hrun, hall⟩ := run_getvals hp hd hdec hi hagenda hanswers
    exact ⟨t, u', _, hrun, hall, hget, hbit⟩
  · obtain ⟨u', hget, hbit⟩ := exec_getval_releases_bit hsame hparams hi hp' hd' h15 hr'
    subst hin0
    exact ⟨_, u', _, execGetvals_of_high_ok hp hd hi hr, rfl, hget, hbit⟩

/-! ## Output pins in GETVALS (42_value.md R112) -/

/-- The composed word depends on the polarity and the raw level of input pins only. -/
theorem levels_congr {s u : State} {w x : Word} (hparams : s.params = u.params) (hconfig : s.cache.config = u.cache.config)
    (houtput : s.cache.output = u.cache.output)
    (h : ∀ q, q ≤ 15 → s.cache.config.word.getLsbD q = true →
      s.cache.polarity.word.getLsbD q = u.cache.polarity.word.getLsbD q ∧ w.getLsbD q = x.getLsbD q) :
    s.cache.levels s.params w = u.cache.levels u.params x := by
  apply BitVec.eq_of_getLsbD_eq
  intro q hq
  have h15 : q ≤ 15 := by omega
  rw [levels_eq, levels_eq, getLsbD_compose _ _ _ _ q h15, getLsbD_compose _ _ _ _ q h15, ← hconfig, ← houtput]
  split_ifs with hin
  · obtain ⟨hpol, hraw⟩ := h q h15 hin
    rw [hraw, getLsbD_polarityWord s h15, getLsbD_polarityWord u h15, State.polarityOf, State.polarityOf, hparams,
      pin_eq_getLsbD_word _ q h15, pin_eq_getLsbD_word _ q h15, hpol]
  · rfl

/-- Settles O33: the two states compose one word. -/
theorem outputPinsIgnorePolarityAndRawInput : Obligations.OutputPinsIgnorePolarityAndRawInput := by
  intro s u e f b c hi hi' hparams hp hd hr hp' hd' hr' hconfig houtput h
  have hword := levels_congr hparams hconfig houtput h
  exact ⟨_, _, _, execGetvals_of_high_ok hp hd hi hr, execGetvals_of_high_ok hp' hd' hi' hr', rfl, by rw [hword]; rfl, rfl,
    by rw [hword]; rfl⟩

/-! ## The data of a response (30_encoding.md R79) -/

theorem zext16_eq_zero_or_one (b : Bool) : zext16 b = 0 ∨ zext16 b = 1 := by cases b <;> decide

theorem justReleased_release (s : State) (k k' : Nat) (st st' : Status) (d d' : Word) :
    JustReleased (s.release k st d) k' st' d' ↔ k = k' ∧ st = st' ∧ d = d' := by simp [JustReleased]

/-- What a whole command without a transaction answers: an error with data 0, or one bit for the three get commands of one
pin. -/
theorem runInstr_nil_answers {params : Params} {v v' : Option Cache} {i : Instr} {st : Status} {d : Word}
    (h : Reference.runInstr params v i [] = ⟨v', st, d⟩) :
    (st ≠ .ok ∧ d = 0) ∨ (st = .ok ∧ ∃ p b, (i = .getdir p ∨ i = .getpol p ∨ i = .getval p) ∧ d = zext16 b) := by
  have hfailed {x : Status} (hx : x ≠ .ok) (h : Reference.failed v x = ⟨v', st, d⟩) : st ≠ .ok ∧ d = 0 := by
    obtain ⟨-, rfl, rfl⟩ := Reference.Result.mk.inj h
    exact ⟨hx, rfl⟩
  cases v with
  | none =>
    left
    cases i with
    | init => exact hfailed (by decide) h
    | setdir p b | getdir p | setpol p b | getpol p | setval p b | getval p | getvals => exact hfailed (by decide) h
  | some c =>
    cases i with
    | init | getvals => exact .inl (hfailed (by decide) h)
    | setdir p b | setpol p b | setval p b =>
      left
      simp only [Reference.runInstr] at h
      split_ifs at h
      · exact hfailed (by decide) h
      · exact hfailed (by decide) h
    | getdir p | getpol p =>
      simp only [Reference.runInstr] at h
      split_ifs at h
      · obtain ⟨-, rfl, rfl⟩ := Reference.Result.mk.inj h
        exact .inr ⟨rfl, p, _, by simp, rfl⟩
      · exact .inl (hfailed (by decide) h)
    | getval p =>
      simp only [Reference.runInstr] at h
      split_ifs at h
      · exact .inl (hfailed (by decide) h)
      · obtain ⟨-, rfl, rfl⟩ := Reference.Result.mk.inj h
        exact .inr ⟨rfl, p, _, by simp, rfl⟩
      · exact .inl (hfailed (by decide) h)

/-- Settles O39: one case for each way a step can release the lock. -/
theorem responseDataHasItsShape : Obligations.ResponseDataHasItsShape := by
  intro i s t e k st d hp h hrel
  cases exec_execStep hp h with
  | ends st' d' hdone hreq hres =>
    obtain ⟨-, rfl, rfl⟩ := (justReleased_release ..).1 hrel
    obtain ⟨hst, hd⟩ | ⟨rfl, p, b, hi, rfl⟩ := runInstr_nil_answers hres
    · exact ⟨fun _ => hd, fun hok => absurd hok hst⟩
    · refine ⟨fun hne => absurd rfl hne, fun _ => ?_⟩
      obtain rfl | rfl | rfl := hi <;> exact zext16_eq_zero_or_one b
  | waits req hreq hr => exact absurd hrel (not_justReleased_hang s _ req k st d)
  | fails req hreq hr =>
    obtain ⟨-, rfl, rfl⟩ := (justReleased_raise ..).1 hrel
    exact ⟨fun _ => rfl, fun hok => by cases hok⟩
  | stages index b hi hx hlt hreq hr => exact absurd hrel (not_justReleased_advance s _ _ e _ k st d)
  | keepsLow b hi hdone hinit hreq hr => exact absurd hrel (not_justReleased_advance s _ _ e _ k st d)
  | seeds b hi hdone hreq hr =>
    obtain ⟨-, rfl, rfl⟩ := (justReleased_respond ..).1 hrel
    subst hi
    exact ⟨fun _ => rfl, fun _ => rfl⟩
  | sets C p v b hi hdone hinit h15 hreq hr =>
    obtain ⟨-, rfl, rfl⟩ := (justReleased_respond ..).1 hrel
    subst hi
    refine ⟨fun _ => rfl, fun _ => ?_⟩
    cases C <;> exact (rfl : (0 : Word) = 0)
  | reportsPin p b hi hdone hinit h15 hin hreq hr =>
    obtain ⟨-, rfl, rfl⟩ := (justReleased_respond ..).1 hrel
    subst hi
    exact ⟨fun hne => absurd rfl hne, fun _ => zext16_eq_zero_or_one _⟩
  | reportsAll b hi hdone hinit hreq hr =>
    obtain ⟨-, rfl, rfl⟩ := (justReleased_respond ..).1 hrel
    subst hi
    exact ⟨fun hne => absurd rfl hne, fun _ => rfl⟩

end Sys2Proof.Machine
end
